-- ==== Sys2Proof/Word.lean ====
section
/-! DEFINITION. The words of the WTAM core: every register, table word and transaction is 32 bits wide
(20_memory.md R66); the bus address is 16 bits wide (20_memory.md R60). -/

namespace Sys2Proof

/-- A 32-bit register, table word or transaction (R20, R66). -/
abbrev Word := BitVec 32

/-- A byte lane of a word, as a host that bridges byte addresses sees it (R65). -/
abbrev Byte := BitVec 8

/-- A 16-bit byte address of the bus (R60). -/
abbrev BusAddr := BitVec 16

/-- A word read as a binary32 bit pattern (R9): bit 31 the sign, 30:23 the biased exponent, 22:0 the fraction. -/
abbrev F32 := BitVec 32

/-- The UNIT field of a command word, bits 11:8 (R81). -/
abbrev UnitField := BitVec 4

end Sys2Proof
end

