-- ==== Sys2Proof/Machine/Binary32.lean ====
section
/-! DEFINITION. IEEE 754 binary32 arithmetic on bit patterns, as 00_scope.md R9 and R10 prescribe: every
operation rounded once to nearest, ties to even; subnormals kept; one canonical NaN; no flags.

Every finite binary32 value is a whole multiple of 2^-149, the least subnormal. So an exact value is kept as an
integer, or a quotient of two naturals, counted in that unit, and rounded at the end. -/

namespace Sys2Proof.Machine.Binary32

/-- The count of units 2^-149 in 1.0. -/
def unitsPerOne : Nat := 2 ^ 149

/-- The canonical quiet NaN (R10). -/
def qnan : F32 := 0x7FC00000#32

/-- +infinity as the bits 30:0 of a pattern. -/
def infMag : Nat := 0x7F800000

/-- The sign, bit 31 (R9). -/
def neg? (x : F32) : Bool := decide (2 ^ 31 ≤ x.toNat)

/-- Bits 30:0, exponent and fraction together: they order the magnitudes. -/
def magBits (x : F32) : Nat := x.toNat % 2 ^ 31

/-- A NaN: all exponent bits set and a fraction that is not 0. -/
def isNaN (x : F32) : Bool := decide (infMag < magBits x)

/-- An infinity of either sign. -/
def isInf (x : F32) : Bool := decide (magBits x = infMag)

/-- A zero of either sign. -/
def isZero (x : F32) : Bool := decide (magBits x = 0)

/-- Neither NaN nor infinite. -/
def isFinite (x : F32) : Bool := decide (magBits x < infMag)

/-- The magnitude of bits 30:0 in units of 2^-149: a subnormal is its fraction; a normal value is its 24-bit
significand scaled by its exponent. An infinity comes out as the first value beyond the finite ones. -/
def unitsOfMag (m : Nat) : Nat :=
  if m < 2 ^ 23 then m else (2 ^ 23 + m % 2 ^ 23) * 2 ^ (m / 2 ^ 23 - 1)

/-- The magnitude of a value that is no NaN, in units of 2^-149. -/
def magnitude (x : F32) : Nat := unitsOfMag (magBits x)

/-- The value of a finite pattern in units of 2^-149. -/
def toUnits (x : F32) : Int := if neg? x then -(magnitude x : Int) else (magnitude x : Int)

/-- `a / b` rounded to the nearest integer, ties to even. -/
def roundDiv (a b : Nat) : Nat :=
  if 2 * (a % b) < b then a / b
  else if b < 2 * (a % b) then a / b + 1
  else a / b + (a / b) % 2

/-- The binary exponent of the spacing of binary32 values, in units of 2^-149, at a magnitude of `n` units. -/
def spacing (n : Nat) : Nat := if n < 2 ^ 24 then 0 else Nat.log2 n - 23

/-- Bits 30:0 of the binary32 nearest to `num / den` units, ties to even, infinite from the overflow threshold on.
A significand that rounds up to 2^24 carries into the exponent. -/
def roundMag (num den : Nat) : Nat :=
  let e := spacing (num / den)
  min (e * 2 ^ 23 + roundDiv num (den * 2 ^ e)) infMag

/-- A pattern from its sign and its bits 30:0. -/
def withSign (negative : Bool) (mag : Nat) : F32 := BitVec.ofNat 32 ((if negative then 2 ^ 31 else 0) + mag)

/-- The binary32 nearest to `± num / den` units; a zero keeps the sign. -/
def roundSigned (negative : Bool) (num den : Nat) : F32 := withSign negative (roundMag num den)

/-- The exact negation: the sign bit flipped (R120). -/
def negate (x : F32) : F32 := withSign (!neg? x) (magBits x)

/-- `x + y`. An exact zero sum is +0 unless both operands are negative zeros. -/
def add (x y : F32) : F32 :=
  if isNaN x || isNaN y then qnan
  else if isInf x then (if isInf y && (neg? x != neg? y) then qnan else x)
  else if isInf y then y
  else
    let sum := toUnits x + toUnits y
    if sum = 0 then withSign (neg? x && neg? y) 0
    else roundSigned (decide (sum < 0)) sum.natAbs 1

/-- `x - y`, the sum with the negation. -/
def sub (x y : F32) : F32 := add x (negate y)

/-- `x * y`. -/
def mul (x y : F32) : F32 :=
  if isNaN x || isNaN y then qnan
  else if (isInf x && isZero y) || (isZero x && isInf y) then qnan
  else if isInf x || isInf y then withSign (neg? x != neg? y) infMag
  else roundSigned (neg? x != neg? y) (magnitude x * magnitude y) unitsPerOne

/-- `x / y`. -/
def div (x y : F32) : F32 :=
  if isNaN x || isNaN y then qnan
  else if (isInf x && isInf y) || (isZero x && isZero y) then qnan
  else if isInf x || isZero y then withSign (neg? x != neg? y) infMag
  else if isInf y then withSign (neg? x != neg? y) 0
  else roundSigned (neg? x != neg? y) (magnitude x * unitsPerOne) (magnitude y)

/-- `x < y`: false with a NaN operand; the zeros are equal (R9). -/
def lt (x y : F32) : Bool := !isNaN x && !isNaN y && decide (toUnits x < toUnits y)

/-- `x <= y` (R9). -/
def le (x y : F32) : Bool := !isNaN x && !isNaN y && decide (toUnits x ≤ toUnits y)

/-- `x == y`, +0 == -0 (R9). -/
def eq (x y : F32) : Bool := !isNaN x && !isNaN y && decide (toUnits x = toUnits y)

/-- `x > y` (R9). -/
def gt (x y : F32) : Bool := lt y x

/-- `x >= y` (R9). -/
def ge (x y : F32) : Bool := le y x

/-- `f32(n)`, exact for n ≤ 2^24 (R14). -/
def ofNat (n : Nat) : F32 := roundSigned false (n * unitsPerOne) 1

/-- `#r` of the host-script syntax, the binary32 nearest to `± num / den` (R88). -/
def ofRatio (negative : Bool) (num den : Nat) : F32 := roundSigned negative (num * unitsPerOne) den

/-- `floor_int(p)` for finite p (R14). -/
def floorInt (p : F32) : Int := toUnits p / (unitsPerOne : Int)

/-- `rnd(mod_exact(p, n))` for finite p and a whole number n ≥ 1: the exact remainder in [0, n), rounded (R14). -/
def modRounded (p : F32) (n : Nat) : F32 :=
  roundSigned false (toUnits p % ((n * unitsPerOne : Nat) : Int)).toNat 1

/-! The literals of R11. -/

/-- 0 -/
def zero : F32 := 0x00000000#32
/-- 1 -/
def one : F32 := 0x3F800000#32
/-- 0.5 -/
def half : F32 := 0x3F000000#32
/-- 0.05, the touch threshold τ (R18, R180) -/
def tau : F32 := 0x3D4CCCCD#32
/-- 0.3 -/
def threeTenths : F32 := 0x3E99999A#32
/-- 20 -/
def twenty : F32 := 0x41A00000#32
/-- 55 -/
def fiftyFive : F32 := 0x425C0000#32
/-- 880 -/
def eightEighty : F32 := 0x445C0000#32
/-- 2π -/
def twoPi : F32 := 0x40C90FDB#32
/-- 10, the value of POW10(1) (R16) -/
def ten : F32 := 0x41200000#32
/-- 100, the value of POW10(2) (R16) -/
def hundred : F32 := 0x42C80000#32
/-- 1000, the value of POW10(3) (R16) -/
def thousand : F32 := 0x447A0000#32
/-- 2 -/
def two : F32 := 0x40000000#32
/-- 3 -/
def three : F32 := 0x40400000#32

end Sys2Proof.Machine.Binary32
end

