-- ==== Sys2Proof/Machine/Datapath.lean ====
section
/-! DEFINITION. The arithmetic expressions of the datapath, each written once over an arithmetic and evaluated in
the order its rule writes it (92_eei_decisions.md D49). With `binary32` they are the hardware (00_scope.md R9); with
`exact` they are the idealised reading of R12 (Machine/Ideal.lean). -/

namespace Sys2Proof.Machine

/-- The four primitive operations an expression of the spec is built from (R9). -/
structure Arith (α : Type) where
  add : α → α → α
  sub : α → α → α
  mul : α → α → α
  div : α → α → α

/-- The hardware's arithmetic: each operation rounded once (R9). -/
def binary32 : Arith F32 where
  add := Binary32.add
  sub := Binary32.sub
  mul := Binary32.mul
  div := Binary32.div

/-- The idealised arithmetic: each operation exact (R12), in any field; R12's own is the field ℝ. -/
def exact (α : Type) [Field α] : Arith α where
  add := (· + ·)
  sub := (· - ·)
  mul := (· * ·)
  div := (· / ·)

/-- `(N * frequency) * inverseSampleRate` (R102, DOC step 2). -/
def phaseIncrement {α : Type} (A : Arith α) (n freq invSr : α) : α := A.mul (A.mul n freq) invSr

/-- `((1 - frac) * x) + (frac * y)` (R104, DOC step 6). -/
def interpolate {α : Type} (A : Arith α) (one frac x y : α) : α :=
  A.add (A.mul (A.sub one frac) x) (A.mul frac y)

/-- `(2π * cutoffHz) / sampleRate` (R120). -/
def cutoffRatio {α : Type} (A : Arith α) (twoPi cutoff sampleRate : α) : α :=
  A.div (A.mul twoPi cutoff) sampleRate

/-- `state + coefficient * (x - state)` (R121). -/
def smoothNext {α : Type} (A : Arith α) (coef state x : α) : α :=
  A.add state (A.mul coef (A.sub x state))

/-- `outMin + (((value - inMin) * (outMax - outMin)) / (inMax - inMin))` (R140). -/
def mapValue {α : Type} (A : Arith α) (v inMin inMax outMin outMax : α) : α :=
  A.add outMin (A.div (A.mul (A.sub v inMin) (A.sub outMax outMin)) (A.sub inMax inMin))

/-- `carrier * ((modulator * 0.5) + 0.5)` (R150). -/
def amValue {α : Type} (A : Arith α) (half carrier modulator : α) : α :=
  A.mul carrier (A.add (A.mul modulator half) half)

/-- `(amModulated * gain) * 0.5` (R152). -/
def outValue {α : Type} (A : Arith α) (half am gain : α) : α := A.mul (A.mul am gain) half

end Sys2Proof.Machine
end

