-- ==== Sys2Proof/Machine/State.lean ====
section
/-! DEFINITION. The state of the WTAM core (10_state.md R20 to R51), plain data, and its value after reset. -/

namespace Sys2Proof.Machine

/-- A unit instance: oscillator k or filter and axis a (00_scope.md R7, R18). -/
inductive UnitIx where
  /-- Oscillator 0, the carrier; filter 0; axis 0, touch X. -/
  | k0
  /-- Oscillator 1, the modulator; filter 1; axis 1, touch Y. -/
  | k1
  deriving DecidableEq, Repr

/-- One oscillator register set (R38 to R42). -/
structure Osc where
  /-- OSCk_LEN, u32 (R38). -/
  len : Word
  /-- OSCk_INVSR (R39). -/
  invSr : F32
  /-- OSCk_FREQ (R40). -/
  freq : F32
  /-- OSCk_PHASE (R41). -/
  phase : F32
  /-- OSCk_FLAGS.INTERP; the other bits of OSCk_FLAGS read 0 (R42). -/
  interp : Bool
  deriving DecidableEq, Repr

/-- One smoothing-filter register set (R43, R44). -/
structure Smooth where
  /-- SMa_STATE (R43). -/
  state : F32
  /-- SMa_COEF (R44). -/
  coef : F32
  deriving DecidableEq, Repr

/-- One element of SCOPE_STREAM, `(output, targetControl[0], targetControl[1])` (R48). -/
structure ScopeTuple where
  output : F32
  control0 : F32
  control1 : F32
  deriving DecidableEq, Repr

/-- The inputs the block accepts (R80) and the platform's reset (R230). A command is a bus write to CMD. -/
inductive Input where
  /-- `MemRead(addr, 4)` (R60). -/
  | busRead (addr : BusAddr)
  /-- `MemWrite(addr, 4, data)` (R60). -/
  | busWrite (addr : BusAddr) (data : Word)
  /-- One pulse on the DAC tick input (R182). -/
  | tick
  /-- The assertion of `rst_n` (R230). -/
  | reset
  deriving DecidableEq, Repr

/-- The written bytes of the table memories, by bus byte address: strictly rising, one entry an address.
An address that is not listed has not been written since reset. -/
abbrev Memory := List Host.Cell

/-- The fault causes of 60_exceptions.md R200. -/
inductive FaultCause where
  /-- 0x01: reserved bits set, OPCODE > 0x0D, or a bad UNIT. -/
  | illegalCmd
  /-- 0x02: a command outside RUN_SAFE_OPS while CTRL.RUN = 1. -/
  | cmdWhileRun
  /-- 0x03: sampleRate not > 0. -/
  | badSampleRate
  /-- 0x04: length > TABLE_CAPACITY. -/
  | badLength
  /-- 0x05: inMin == inMax. -/
  | mapDivZero
  /-- 0x06: accumulated phase < 0 under NEG_PHASE_POLICY = FAULT. -/
  | negPhase
  /-- 0x07: accumulated phase NaN or infinite. -/
  | nonfinitePhase
  deriving DecidableEq, Repr

/-- The operand of `raise Fault(code, unit)` (R14, R202): a fault the block TAKES; it does not stop the model. -/
structure BlockFault where
  cause : FaultCause
  unit : UnitField
  deriving DecidableEq, Repr

/-- The state of the block, and the model's own fields `inputs`, `responses` and `tableEpoch`. -/
structure State where
  /-- CTRL.RUN; the other bits of CTRL read 0 (R23). -/
  run : Bool
  /-- FAULT_CAUSE (R25). -/
  faultCause : Word
  /-- FAULT_INFO (R26). -/
  faultInfo : Word
  /-- CMD (R27). -/
  cmd : Word
  /-- RESULT (R28). -/
  result : F32
  /-- ARG0 (R29). -/
  arg0 : Word
  /-- ARG1 (R29). -/
  arg1 : Word
  /-- ARG2 (R29). -/
  arg2 : Word
  /-- ARG3 (R29). -/
  arg3 : Word
  /-- ARG4 (R29). -/
  arg4 : Word
  /-- TOUCH_SIZE (R30). -/
  touchSize : F32
  /-- TOUCH_X (R30). -/
  touchX : F32
  /-- TOUCH_Y (R30). -/
  touchY : F32
  /-- LEVEL_DB (R31). -/
  levelDb : F32
  /-- TARGET0 (R32). -/
  target0 : F32
  /-- TARGET1 (R32). -/
  target1 : F32
  /-- GAIN (R33). -/
  gain : F32
  /-- INTENSITY0 (R34). -/
  intensity0 : F32
  /-- INTENSITY1 (R34). -/
  intensity1 : F32
  /-- LAST_OUT (R35). -/
  lastOut : F32
  /-- FRAME_POS (R36). -/
  framePos : Word
  /-- SAMPLE_COUNT (R37). -/
  sampleCount : Word
  /-- PRESENCE (R50). -/
  presence : Bool
  /-- HALTED (R47). -/
  halted : Bool
  /-- The register set of oscillator 0 (R38 to R42). -/
  osc0 : Osc
  /-- The register set of oscillator 1 (R38 to R42). -/
  osc1 : Osc
  /-- The register set of filter 0 (R43, R44). -/
  sm0 : Smooth
  /-- The register set of filter 1 (R43, R44). -/
  sm1 : Smooth
  /-- STG_k and ACT_k (R45, R46): the bytes written since reset. -/
  mem : Memory
  /-- DAC_STREAM, oldest first (R48). -/
  dacStream : List F32
  /-- SCOPE_STREAM, oldest first (R48). -/
  scopeStream : List ScopeTuple
  /-- The model's own: what HOST, DAC and the platform do next, oldest first (R71). -/
  inputs : List Input
  /-- The model's own: the words the bus has returned to HOST, oldest first (R60). -/
  responses : List Word
  /-- The model's own: which power-up contents the table memories have (93_implementation_defined.md U1). -/
  tableEpoch : Nat
  deriving DecidableEq, Repr

/-- Why a step could stop with a fault: never. Every fault of the spec is TAKEN, a next state with its record
and HALTED = 1 (60_exceptions.md R202), and no bus transaction faults (R201). The type has no constructor, so
nobody raises one; that is safe, because no behaviour is cut off. -/
inductive Fault where
  deriving DecidableEq, Repr

/-- Why a step could be refused. -/
inductive Refusal where
  /-- Raised by an arm of `exec` whose command has no meaning yet, and by nothing else. No arm is left so.
  Safe: the model stops where the hardware goes on. -/
  | notModelled (mnemonic : String)
  deriving DecidableEq, Repr

/-- An oscillator register set after reset (R51). -/
def Osc.atReset : Osc where
  len := 0
  invSr := 0
  freq := 0
  phase := 0
  interp := false

/-- A filter register set after reset (R51). -/
def Smooth.atReset : Smooth where
  state := 0
  coef := 0

/-- The machine right after reset (R51): every register 0 or +0.0, the streams empty, no table byte written.
The model's own fields start empty and at 0 (DESIGN CHOICE, notes/assumptions 1, 3 and 4). -/
def State.reset : State where
  run := false
  faultCause := 0
  faultInfo := 0
  cmd := 0
  result := 0
  arg0 := 0
  arg1 := 0
  arg2 := 0
  arg3 := 0
  arg4 := 0
  touchSize := 0
  touchX := 0
  touchY := 0
  levelDb := 0
  target0 := 0
  target1 := 0
  gain := 0
  intensity0 := 0
  intensity1 := 0
  lastOut := 0
  framePos := 0
  sampleCount := 0
  presence := false
  halted := false
  osc0 := Osc.atReset
  osc1 := Osc.atReset
  sm0 := Smooth.atReset
  sm1 := Smooth.atReset
  mem := []
  dacStream := []
  scopeStream := []
  inputs := []
  responses := []
  tableEpoch := 0

end Sys2Proof.Machine
end

