-- ==== Sys2Proof/Machine/Operands.lean ====
section
/-! DEFINITION. The operands of the commands, as 30_encoding.md R84 assigns ARG0 to ARG4. An fp32 operand is the
word itself, with no conversion; a u32 operand is the word as an unsigned integer; a flag operand is bit 0. -/

namespace Sys2Proof.Machine

/-- A word read as an unsigned integer (R84). -/
def asU32 (w : Word) : Nat := w.toNat

/-- A word read as a flag: bit 0, bits 31:1 ignored (R84). -/
def asFlag (w : Word) : Bool := decide (w.toNat % 2 = 1)

/-- OSC_CONFIG: ARG0 = sampleRate. -/
def oscSampleRateArg (s : State) : F32 := s.arg0

/-- OSC_CONFIG: ARG1 = length, the word OSCk_LEN takes. -/
def oscLengthArg (s : State) : Word := s.arg1

/-- OSC_CONFIG: ARG2 bit 0 = interpolationEnabled. -/
def oscInterpArg (s : State) : Bool := asFlag s.arg2

/-- OSC_SETFREQ: ARG0 = f. -/
def frequencyArg (s : State) : F32 := s.arg0

/-- SMOOTH_CONFIG: ARG0 = cutoffHz. -/
def cutoffArg (s : State) : F32 := s.arg0

/-- SMOOTH_CONFIG: ARG1 = sampleRate. -/
def smoothSampleRateArg (s : State) : F32 := s.arg1

/-- SMOOTH_PROCESS: ARG0 = x. -/
def smoothInputArg (s : State) : F32 := s.arg0

/-- SMOOTH_SETSTATE: ARG0 = s. -/
def smoothStateArg (s : State) : F32 := s.arg0

/-- SMOOTH_SETCOEF: ARG0 = c. -/
def smoothCoefArg (s : State) : F32 := s.arg0

/-- MAP: ARG0 = value. -/
def mapValueArg (s : State) : F32 := s.arg0

/-- MAP: ARG1 = inMin. -/
def mapInMinArg (s : State) : F32 := s.arg1

/-- MAP: ARG2 = inMax. -/
def mapInMaxArg (s : State) : F32 := s.arg2

/-- MAP: ARG3 = outMin. -/
def mapOutMinArg (s : State) : F32 := s.arg3

/-- MAP: ARG4 = outMax. -/
def mapOutMaxArg (s : State) : F32 := s.arg4

/-- AM: ARG0 = carrierSample. -/
def amCarrierArg (s : State) : F32 := s.arg0

/-- AM: ARG1 = modulatorSample. -/
def amModulatorArg (s : State) : F32 := s.arg1

/-- GAIN_DB: ARG0 = dB. -/
def gainDbArg (s : State) : F32 := s.arg0

/-- OUT_SCALE: ARG0 = amModulated. -/
def outAmArg (s : State) : F32 := s.arg0

/-- OUT_SCALE: ARG1 = gain. -/
def outGainArg (s : State) : F32 := s.arg1

end Sys2Proof.Machine
end

