-- ==== Sys2Proof/Syntax.lean ====
section
/-! DEFINITION. The commands of the WTAM core: one constructor per row of spec/opcode_table.json
(30_encoding.md R83). A unit command carries its UNIT field; the others have none. -/

namespace Sys2Proof

/-- The 14 commands of R83. Operands other than UNIT come from ARG0 to ARG4 when the command runs (R84). -/
inductive Instr where
  /-- 0x00 NOP (R170). -/
  | nop
  /-- 0x01 OSC_CONFIG.k (R100). -/
  | oscConfig (unit : UnitField)
  /-- 0x02 OSC_SETFREQ.k (R101). -/
  | oscSetfreq (unit : UnitField)
  /-- 0x03 OSC_PROCESS.k (R102). -/
  | oscProcess (unit : UnitField)
  /-- 0x04 SMOOTH_CONFIG.a (R120). -/
  | smoothConfig (unit : UnitField)
  /-- 0x05 SMOOTH_PROCESS.a (R121). -/
  | smoothProcess (unit : UnitField)
  /-- 0x06 SMOOTH_SETSTATE.a (R122). -/
  | smoothSetstate (unit : UnitField)
  /-- 0x07 SMOOTH_SETCOEF.a (R123). -/
  | smoothSetcoef (unit : UnitField)
  /-- 0x08 MAP (R140). -/
  | map
  /-- 0x09 AM (R150). -/
  | am
  /-- 0x0A GAIN_DB (R151). -/
  | gainDb
  /-- 0x0B OUT_SCALE (R152). -/
  | outScale
  /-- 0x0C FRAME (R171). -/
  | frame
  /-- 0x0D STEP (R172). -/
  | step
  deriving DecidableEq, Repr

/-- The UNIT field of the command word: the unit of a unit command, 0 for every other (R81). -/
def Instr.unitField : Instr → UnitField
  | .nop => 0
  | .oscConfig u => u
  | .oscSetfreq u => u
  | .oscProcess u => u
  | .smoothConfig u => u
  | .smoothProcess u => u
  | .smoothSetstate u => u
  | .smoothSetcoef u => u
  | .map => 0
  | .am => 0
  | .gainDb => 0
  | .outScale => 0
  | .frame => 0
  | .step => 0

end Sys2Proof
end

