-- ==== Sys2Proof/WellFormed.lean ====
section
/-! DEFINITION. Which command terms have an encoding: the UNIT of a unit command is 0 or 1
(30_encoding.md R83, R86). The other commands have no field to check. -/

namespace Sys2Proof

/-- The UNIT check of R82: `u > 1` is illegal on a unit command. Every command without a UNIT has field 0. -/
def WellFormed (i : Instr) : Bool := decide (i.unitField.toNat ≤ 1)

end Sys2Proof
end

