-- ==== Sys2Proof/Decode.lean ====
section
/-! DEFINITION. Decoding a command word, total and rejecting by name (30_encoding.md R82, R86), and the
encoder written from the same tables (R81, R83). -/

namespace Sys2Proof

/-- Why a word is no command: the decode checks of R82, in their order. -/
inductive DecodeError where
  /-- `c[31:12] != 0`. -/
  | reservedBits
  /-- `c[7:0] > 0x0D`. -/
  | badOpcode
  /-- A unit command with UNIT > 1, or another command with UNIT ≠ 0; it carries the UNIT field. -/
  | badUnit (unit : UnitField)
  /-- Not the four bytes of one word: a command has one fixed length (R80, R87). -/
  | notOneWord
  deriving DecidableEq, Repr

/-- The unit a decode fault records (R82): the UNIT field for a UNIT check, else 0 (R200). -/
def DecodeError.unit : DecodeError → UnitField
  | .reservedBits => 0
  | .badOpcode => 0
  | .badUnit u => u
  | .notOneWord => 0

/-- OPCODE, bits 7:0 (R81). -/
def opcodeField (c : Word) : Nat := c.toNat % 256

/-- UNIT, bits 11:8 (R81). -/
def unitFieldOf (c : Word) : UnitField := BitVec.ofNat 4 (c.toNat / 256)

/-- RSV, bits 31:12 (R81). -/
def reservedField (c : Word) : Nat := c.toNat / 4096

/-- The UNIT check of a unit command (R82, `op in UNIT_OPS and u > 1`). -/
def decodeUnitCommand (u : UnitField) (i : Instr) : Except DecodeError Instr :=
  if u.toNat ≤ 1 then .ok i else .error (.badUnit u)

/-- The UNIT check of a command outside UNIT_OPS (R82, `u != 0`). -/
def decodePlainCommand (u : UnitField) (i : Instr) : Except DecodeError Instr :=
  if u.toNat = 0 then .ok i else .error (.badUnit u)

/-- The opcode map of R83, and the opcode range check of R82. -/
def decodeOpcode (op : Nat) (u : UnitField) : Except DecodeError Instr :=
  match op with
  | 0x00 => decodePlainCommand u .nop
  | 0x01 => decodeUnitCommand u (.oscConfig u)
  | 0x02 => decodeUnitCommand u (.oscSetfreq u)
  | 0x03 => decodeUnitCommand u (.oscProcess u)
  | 0x04 => decodeUnitCommand u (.smoothConfig u)
  | 0x05 => decodeUnitCommand u (.smoothProcess u)
  | 0x06 => decodeUnitCommand u (.smoothSetstate u)
  | 0x07 => decodeUnitCommand u (.smoothSetcoef u)
  | 0x08 => decodePlainCommand u .map
  | 0x09 => decodePlainCommand u .am
  | 0x0A => decodePlainCommand u .gainDb
  | 0x0B => decodePlainCommand u .outScale
  | 0x0C => decodePlainCommand u .frame
  | 0x0D => decodePlainCommand u .step
  | _ => .error .badOpcode

/-- The decode checks of R82 in their order: reserved bits, opcode range, UNIT range. -/
def decode (c : Word) : Except DecodeError Instr :=
  if reservedField c ≠ 0 then .error .reservedBits
  else decodeOpcode (opcodeField c) (unitFieldOf c)

/-- The opcode of each command (R83). -/
def opcodeOf : Instr → Nat
  | .nop => 0x00
  | .oscConfig _ => 0x01
  | .oscSetfreq _ => 0x02
  | .oscProcess _ => 0x03
  | .smoothConfig _ => 0x04
  | .smoothProcess _ => 0x05
  | .smoothSetstate _ => 0x06
  | .smoothSetcoef _ => 0x07
  | .map => 0x08
  | .am => 0x09
  | .gainDb => 0x0A
  | .outScale => 0x0B
  | .frame => 0x0C
  | .step => 0x0D

/-- The command word `0000 0000 0000 0000 0000 uuuu oooo oooo` (R81). -/
def encode (i : Instr) : Word := BitVec.ofNat 32 (i.unitField.toNat * 256 + opcodeOf i)

/-- The word whose little-endian byte lanes are the four bytes (R65). -/
def wordOfBytes (b0 b1 b2 b3 : Byte) : Word :=
  BitVec.ofNat 32 (b0.toNat + 256 * b1.toNat + 65536 * b2.toNat + 16777216 * b3.toNat)

/-- Decoding any bytes: a command is exactly one word (R80, R87), its byte lanes little-endian (R65). -/
def decodeBytes : List Byte → Except DecodeError Instr
  | [b0, b1, b2, b3] => decode (wordOfBytes b0 b1 b2 b3)
  | _ => .error .notOneWord

/-- Byte lane `j` of a word (R65). -/
def byteLane (w : Word) (j : Nat) : Byte := BitVec.ofNat 8 (w.toNat / 256 ^ j)

/-- The four byte lanes of a word, lowest address first (R65). -/
def bytesOfWord (w : Word) : List Byte := [byteLane w 0, byteLane w 1, byteLane w 2, byteLane w 3]

/-- The word an opcode-table row of `nbits` bits gives: the bits above `nbits` are 0. -/
def tableWord (nbits w : Nat) : Word := BitVec.ofNat 32 (w % 2 ^ nbits)

/-- The command the decoder reads from a word numbered as spec/opcode_table.json numbers it. -/
def decodeTableWord (nbits w : Nat) : Option Instr :=
  match decodeBytes (bytesOfWord (tableWord nbits w)) with
  | .ok i => some i
  | .error _ => none

end Sys2Proof
end

