-- ==== Sys2Proof/Config.lean ====
section
/-! DEFINITION. What the build fixes (00_scope.md R7) and the values the spec leaves free. The constants
without a body are open: nothing can be proved of their value beyond the range their type gives. -/

namespace Sys2Proof

/-- What a negative accumulated phase does (R7, 92_eei_decisions.md D11). -/
inductive NegPhasePolicy where
  /-- The phase wraps upward into [0, N). -/
  | wrap
  /-- The operation faults NEG_PHASE. -/
  | fault
  deriving DecidableEq, Repr, Inhabited

/-- The build parameters of R7 that an operation of the block reads. `expRaw` and `pow10Raw` stand for EXP and
POW10 at the inputs where R16 says nothing; `Machine.expFn` and `Machine.pow10Fn` add the properties P1 to P4. -/
structure Params where
  /-- TABLE_CAPACITY less 1, so that the capacity lies in 1..1024. -/
  capacityLess1 : Fin 1024
  /-- NUM_CHANNELS less 1, so that the count lies in 1..255. -/
  channelsLess1 : Fin 255
  /-- BLOCK_SIZE less 1, so that the size lies in 1..65535. -/
  blockLess1 : Fin 65535
  /-- NEG_PHASE_POLICY. -/
  negPhase : NegPhasePolicy
  /-- EXP where P1 and P4 do not fix it. -/
  expRaw : F32 → F32
  /-- POW10 where P2, P3 and P4 do not fix it. -/
  pow10Raw : F32 → F32

/-- TABLE_CAPACITY, in 1..1024 (R7, D10). -/
def Params.tableCapacity (p : Params) : Nat := p.capacityLess1.val + 1

/-- NUM_CHANNELS, in 1..255 (R7, D23). -/
def Params.numChannels (p : Params) : Nat := p.channelsLess1.val + 1

/-- BLOCK_SIZE, in 1..65535 (R7, D18). -/
def Params.blockSize (p : Params) : Nat := p.blockLess1.val + 1

namespace Config

/-- TABLE_CAPACITY less 1 (R7: OPEN, integer 1..1024). -/
opaque capacityLess1 : Fin 1024

/-- NUM_CHANNELS less 1 (R7: OPEN, integer 1..255). -/
opaque channelsLess1 : Fin 255

/-- BLOCK_SIZE less 1 (R7: OPEN, integer 1..65535). -/
opaque blockLess1 : Fin 65535

/-- NEG_PHASE_POLICY (R7: WRAP or FAULT). -/
opaque negPhase : NegPhasePolicy

/-- EXP where R16 leaves it open. -/
opaque expRaw : F32 → F32

/-- POW10 where R16 leaves it open. -/
opaque pow10Raw : F32 → F32

/-- SAMPLE_RATE, the tick rate the platform delivers (R7: OPEN). No operation reads it: the block cannot check
that HOST configures the units with it (92_eei_decisions.md D36). -/
opaque sampleRate : F32

/-- What a table byte holds that nothing has written since the reset numbered `epoch`
(93_implementation_defined.md U1: any value). -/
opaque freeByte (epoch addr : Nat) : Byte

/-- The build parameters of this block. -/
def params : Params where
  capacityLess1 := capacityLess1
  channelsLess1 := channelsLess1
  blockLess1 := blockLess1
  negPhase := negPhase
  expRaw := expRaw
  pow10Raw := pow10Raw

end Config

end Sys2Proof
end

