-- ==== Sys2Proof/Machine/Flags.lean ====
section
/-! DEFINITION. The flag computation and the words whose fields are flags: PRESENCE (R50), CTRL (R23),
STATUS (R24), FAULT_CAUSE (R25, R202), PARAMS0 and PARAMS1 (R22), OSCk_FLAGS (R42). The block has no condition codes. -/

namespace Sys2Proof.Machine

/-- The touch gate, `TOUCH_SIZE > τ`, strict; a NaN does not pass (R180). It is the new PRESENCE (R50). -/
def touchGate (touchSize : F32) : Bool := Binary32.gt touchSize Binary32.tau

/-- A flag as the number 1 or 0 (R85). -/
def flagBit (b : Bool) : Nat := if b then 1 else 0

/-- CTRL as it reads: RUN in bit 0, bits 31:1 read 0 (R23). -/
def ctrlWord (s : State) : Word := BitVec.ofNat 32 (flagBit s.run)

/-- STATUS: RUN, HALTED and PRESENCE in bits 0, 1 and 2 (R24). -/
def statusWord (s : State) : Word :=
  BitVec.ofNat 32 (flagBit s.run + 2 * flagBit s.halted + 4 * flagBit s.presence)

/-- OSCk_FLAGS: INTERP in bit 0 (R42). -/
def oscFlagsWord (o : Osc) : Word := BitVec.ofNat 32 (flagBit o.interp)

/-- The cause codes of R200. -/
def causeCode : FaultCause → Nat
  | .illegalCmd => 0x01
  | .cmdWhileRun => 0x02
  | .badSampleRate => 0x03
  | .badLength => 0x04
  | .mapDivZero => 0x05
  | .negPhase => 0x06
  | .nonfinitePhase => 0x07

/-- `{16'b0, unit[3:0], 3'b0, src_tick, code[7:0]}` (R202). -/
def causeWord (srcTick : Bool) (f : BlockFault) : Word :=
  BitVec.ofNat 32 (f.unit.toNat * 2 ^ 12 + flagBit srcTick * 2 ^ 8 + causeCode f.cause)

/-- ID, ASCII "WTAM" (R22). -/
def idWord : Word := 0x5754414D#32

/-- Bit 11 of PARAMS0: 0 = WRAP, 1 = FAULT (R22, R85). -/
def policyBit : NegPhasePolicy → Nat
  | .wrap => 0
  | .fault => 1

/-- PARAMS0: TABLE_CAPACITY 10:0, NEG_PHASE_POLICY 11, NUM_CHANNELS 23:16 (R22). -/
def params0Word (p : Params) : Word :=
  BitVec.ofNat 32 (p.tableCapacity + policyBit p.negPhase * 2 ^ 11 + p.numChannels * 2 ^ 16)

/-- PARAMS1: BLOCK_SIZE 15:0 (R22). -/
def params1Word (p : Params) : Word := BitVec.ofNat 32 p.blockSize

end Sys2Proof.Machine
end

