-- ==== Sys2Proof/Machine/Memory.lean ====
section
/-! DEFINITION. The table memories as one list of written bytes (10_state.md R45, R46; 20_memory.md R63, R65).
A word stands little-endian at its bus address; a byte that nothing has written since reset reads as a free value. -/

namespace Sys2Proof.Machine

/-- The canonical form: addresses strictly rising. An unlisted address holds no written value, so no entry can
equal what it reads as, and equal lists are exactly the same written bytes. -/
abbrev Memory.wf (m : Memory) : Prop := m.Pairwise (fun a b => a.1 < b.1)

/-- The byte written at an address since reset, if any. -/
def Memory.written : Memory → Nat → Option Byte
  | [], _ => none
  | (a, b) :: m, x => if a = x then some b else Memory.written m x

/-- Write one byte, keeping the addresses rising. -/
def Memory.setByte : Memory → Nat → Byte → Memory
  | [], x, v => [(x, v)]
  | (a, b) :: m, x, v =>
    if x < a then (x, v) :: (a, b) :: m
    else if x = a then (x, v) :: m
    else (a, b) :: Memory.setByte m x v

/-- Write the four byte lanes of a word (R65). -/
def Memory.setWord (m : Memory) (addr : Nat) (v : Word) : Memory :=
  (((m.setByte addr (byteLane v 0)).setByte (addr + 1) (byteLane v 1)).setByte (addr + 2) (byteLane v 2)).setByte
    (addr + 3) (byteLane v 3)

/-- What a byte reads as: the value written, else the free power-up value of this epoch
(93_implementation_defined.md U1). -/
def Memory.byteAt (m : Memory) (epoch addr : Nat) : Byte := (m.written addr).getD (Config.freeByte epoch addr)

/-- The word at a word address. -/
def Memory.wordAt (m : Memory) (epoch addr : Nat) : Word :=
  wordOfBytes (m.byteAt epoch addr) (m.byteAt epoch (addr + 1)) (m.byteAt epoch (addr + 2)) (m.byteAt epoch (addr + 3))

/-- Store the words `f 0 … f (n - 1)` from a byte address up, in the order of the index. -/
def Memory.setWords (m : Memory) (base : Nat) (f : Nat → Word) : Nat → Memory
  | 0 => m
  | n + 1 => (Memory.setWords m base f n).setWord (base + 4 * n) (f n)

/-- The base of STG_k on the bus (R63). -/
def stgBase : UnitIx → Nat
  | .k0 => 0x1000
  | .k1 => 0x2000

/-- The base of ACT_k on the bus (R63). -/
def actBase : UnitIx → Nat
  | .k0 => 0x3000
  | .k1 => 0x4000

/-- One byte of the table memories, by its bus address. -/
def tableByte (s : State) (addr : Nat) : Byte := s.mem.byteAt s.tableEpoch addr

/-- `STG_k[i]` (R14). -/
def stgWord (s : State) (k : UnitIx) (i : Nat) : Word := s.mem.wordAt s.tableEpoch (stgBase k + 4 * i)

/-- `ACT_k[i]` (R14). -/
def actWord (s : State) (k : UnitIx) (i : Nat) : Word := s.mem.wordAt s.tableEpoch (actBase k + 4 * i)

/-- `STG_k[i] <- v` (R62). -/
def setStgWord (k : UnitIx) (i : Nat) (v : Word) (s : State) : State :=
  { s with mem := s.mem.setWord (stgBase k + 4 * i) v }

/-- `for i in 0 .. len-1: ACT_k[i] <- STG_k[i]` (R100). The two windows do not overlap, so each word copied is the
word of the state before. -/
def copyTable (k : UnitIx) (len : Nat) (s : State) : State :=
  { s with mem := s.mem.setWords (actBase k) (stgWord s k) len }

end Sys2Proof.Machine
end

