-- ==== Sys2Proof/Machine/Ops.lean ====
section
/-! DEFINITION. The shared operations over the state: unit instances, taking a fault, leaving it by reset, and
running a command with its checks. -/

namespace Sys2Proof.Machine

/-- The unit instance a checked UNIT field selects: 0 or 1 (R83). -/
def unitOf (u : UnitField) : UnitIx := if u = 0 then .k0 else .k1

/-- The UNIT a fault of unit `k` records (R200). -/
def unitNumber : UnitIx → UnitField
  | .k0 => 0
  | .k1 => 1

/-- The register set of oscillator k. -/
def State.osc (s : State) : UnitIx → Osc
  | .k0 => s.osc0
  | .k1 => s.osc1

/-- Write the register set of oscillator k. -/
def State.setOsc (s : State) (k : UnitIx) (o : Osc) : State :=
  match k with
  | .k0 => { s with osc0 := o }
  | .k1 => { s with osc1 := o }

/-- The register set of filter a. -/
def State.sm (s : State) : UnitIx → Smooth
  | .k0 => s.sm0
  | .k1 => s.sm1

/-- Write the register set of filter a. -/
def State.setSm (s : State) (a : UnitIx) (f : Smooth) : State :=
  match a with
  | .k0 => { s with sm0 := f }
  | .k1 => { s with sm1 := f }

/-- TARGETa. -/
def State.target (s : State) : UnitIx → F32
  | .k0 => s.target0
  | .k1 => s.target1

/-- INTENSITYa. -/
def State.intensity (s : State) : UnitIx → F32
  | .k0 => s.intensity0
  | .k1 => s.intensity1

/-- Write INTENSITYa. -/
def State.setIntensity (s : State) (a : UnitIx) (v : F32) : State :=
  match a with
  | .k0 => { s with intensity0 := v }
  | .k1 => { s with intensity1 := v }

/-- Write RESULT (R28). -/
def State.setResult (s : State) (v : F32) : State := { s with result := v }

/-- What an operation answers: the state it commits, or the fault it raises (R14). -/
abbrev Attempt := Except BlockFault State

/-- Taking a fault in the state BEFORE the operation (R202): nothing of the operation is committed, the two
records are written, and HALTED is set. CMD and CTRL.RUN keep their values. -/
def takeFault (srcTick : Bool) (info : Word) (f : BlockFault) (s : State) : State :=
  { s with faultCause := causeWord srcTick f, faultInfo := info, halted := true }

/-- The end of an operation that began in `s`: it commits its state, or its fault is taken in `s` (R15, R202). -/
def settle (srcTick : Bool) (info : Word) (s : State) : Attempt → State
  | .ok t => t
  | .error f => takeFault srcTick info f s

/-- Reset, the only way out of a fault (R208, R230): every piece of state at its reset value. The schedule and the
words already returned belong to the environment and stay; the table contents become unspecified anew (R51). -/
def resetBlock (s : State) : State :=
  { State.reset with inputs := s.inputs, responses := s.responses, tableEpoch := s.tableEpoch + 1 }

/-- RUN_SAFE_OPS: the commands allowed while RUN = 1 (R82, R83). -/
def runSafe : Instr → Bool
  | .nop => true
  | .oscConfig _ => false
  | .oscSetfreq _ => false
  | .oscProcess _ => false
  | .smoothConfig _ => false
  | .smoothProcess _ => false
  | .smoothSetstate _ => false
  | .smoothSetcoef _ => false
  | .map => true
  | .am => true
  | .gainDb => true
  | .outScale => true
  | .frame => false
  | .step => false

/-- The checks of R82 that stand between decoding and execution, in their order: the UNIT range (which no decoded
command fails), then CTRL.RUN. -/
def commandFault? (i : Instr) (s : State) : Option BlockFault :=
  if 1 < i.unitField.toNat then some ⟨.illegalCmd, i.unitField⟩
  else if s.run && !runSafe i then some ⟨.cmdWhileRun, i.unitField⟩
  else none

/-- Run a command: nothing while HALTED = 1 (R27, R47); else the checks of R82, then the operation. A fault records
the command word (R26). -/
def runCommand (i : Instr) (operation : State → Attempt) (s : State) : Host.Outcome State Fault Refusal :=
  if s.halted then .next s
  else
    match commandFault? i s with
    | some f => .next (takeFault false (encode i) f s)
    | none => .next (settle false (encode i) s (operation s))

end Sys2Proof.Machine
end

