-- ==== Sys2Proof/Machine/Mapper.lean ====
section
/-! DEFINITION. The linear range mapper (42_range_mapper.md): MAP. -/

namespace Sys2Proof.Machine

/-- `map_fn` where it does not fault (R140). -/
def mapFn (v inMin inMax outMin outMax : F32) : F32 := mapValue binary32 v inMin inMax outMin outMax

/-- The oscillator frequency of a smoothed control, `map_fn(s, 0, 1, 55, 880)` (R141); its bounds are distinct. -/
def controlFrequency (v : F32) : F32 :=
  mapFn v Binary32.zero Binary32.one Binary32.fiftyFive Binary32.eightEighty

/-- The indicator intensity of a smoothed control, `map_fn(s, 0, 1, 0.3, 1)` (R141); its bounds are distinct. -/
def controlIntensity (v : F32) : F32 :=
  mapFn v Binary32.zero Binary32.one Binary32.threeTenths Binary32.one

/-- `RESULT <- map_fn(ARG0, ARG1, ARG2, ARG3, ARG4)`, with the check `inMin == inMax` (R140). -/
def mapCommand (s : State) : Attempt :=
  if Binary32.eq (mapInMinArg s) (mapInMaxArg s) then .error ⟨.mapDivZero, 0⟩
  else .ok (s.setResult (mapFn (mapValueArg s) (mapInMinArg s) (mapInMaxArg s) (mapOutMinArg s) (mapOutMaxArg s)))

/-- MAP (R140). -/
def execMap (s : State) : Host.Outcome State Fault Refusal := runCommand .map mapCommand s

end Sys2Proof.Machine
end

