-- ==== Sys2Proof/Machine/Oscillator.lean ====
section
/-! DEFINITION. The wavetable oscillator (40_oscillator.md): OSC_CONFIG, OSC_SETFREQ, OSC_PROCESS. -/

namespace Sys2Proof.Machine

/-- The registers OSC_CONFIG leaves: inverse rate, length, flag, phase +0.0; OSCk_FREQ kept (R100, D48).
DESIGN CHOICE (notes/assumptions/21): for a subnormal sample rate R100's pseudocode `1.0 / sr` and its corner case
(`OSCk_INVSR = +inf`) differ where the quotient is finite; the pseudocode is followed. -/
def configuredOsc (s : State) (o : Osc) : Osc :=
  { o with
    invSr := Binary32.div Binary32.one (oscSampleRateArg s)
    len := oscLengthArg s
    interp := oscInterpArg s
    phase := Binary32.zero }

/-- OSC_CONFIG on oscillator k (R100): the sample-rate check, then the length check (R204), then the stores. -/
def oscConfigure (p : Params) (k : UnitIx) (s : State) : Attempt :=
  if !Binary32.gt (oscSampleRateArg s) Binary32.zero then .error ⟨.badSampleRate, unitNumber k⟩
  else if p.tableCapacity < asU32 (oscLengthArg s) then .error ⟨.badLength, unitNumber k⟩
  else .ok ((copyTable k (asU32 (oscLengthArg s)) s).setOsc k (configuredOsc s (s.osc k)))

/-- OSC_SETFREQ on oscillator k (R101). -/
def oscSetFrequency (k : UnitIx) (s : State) : State :=
  s.setOsc k { s.osc k with freq := frequencyArg s }

/-- The accumulated phase `p = OSCk_PHASE + (N * OSCk_FREQ) * OSCk_INVSR` of R102, before normalisation. -/
def accumulatedPhase (o : Osc) : F32 :=
  binary32.add o.phase (phaseIncrement binary32 (Binary32.ofNat (asU32 o.len)) o.freq o.invSr)

/-- Phase normalisation `normalize(p, N)` for finite p and N = f32(n), n ≥ 1 (R103). -/
def normalizePhase (p : F32) (n : Nat) : F32 :=
  if Binary32.le Binary32.zero p && Binary32.lt p (Binary32.ofNat n) then p
  else
    let q := Binary32.modRounded p n
    if Binary32.eq q (Binary32.ofNat n) then Binary32.zero else q

/-- Table lookup `lookup(k, p, n)` (R104).
DESIGN CHOICE (notes/assumptions/22): at an integer phase R104's pseudocode and its corner case (a -0.0 entry comes
back as +0.0) differ where the next entry is negative or -0.0; the pseudocode is followed. -/
def tableLookup (s : State) (k : UnitIx) (p : F32) (n : Nat) : F32 :=
  let i0 := (Binary32.floorInt p).toNat
  if (s.osc k).interp then
    let i1 := (i0 + 1) % n
    let frac := binary32.sub p (Binary32.ofNat i0)
    interpolate binary32 Binary32.one frac (actWord s k i0) (actWord s k i1)
  else actWord s k i0

/-- `osc_process(k)` (R102): the sample it returns and the state it leaves, or its fault. -/
def oscProcess (p : Params) (k : UnitIx) (s : State) : Except BlockFault (F32 × State) :=
  let n := asU32 (s.osc k).len
  if n = 0 then .ok (Binary32.zero, s)
  else
    let acc := accumulatedPhase (s.osc k)
    if Binary32.isNaN acc || Binary32.isInf acc then .error ⟨.nonfinitePhase, unitNumber k⟩
    else if Binary32.lt acc Binary32.zero && decide (p.negPhase = .fault) then .error ⟨.negPhase, unitNumber k⟩
    else
      let ph := normalizePhase acc n
      .ok (tableLookup s k ph n, s.setOsc k { s.osc k with phase := ph })

/-- `RESULT <- osc_process(k)` (R102). -/
def oscProcessCommand (p : Params) (k : UnitIx) (s : State) : Attempt :=
  match oscProcess p k s with
  | .ok (v, t) => .ok (t.setResult v)
  | .error f => .error f

/-- OSC_CONFIG (R100). -/
def execOscConfig (u : UnitField) (s : State) : Host.Outcome State Fault Refusal :=
  runCommand (.oscConfig u) (oscConfigure Config.params (unitOf u)) s

/-- OSC_SETFREQ (R101). -/
def execOscSetfreq (u : UnitField) (s : State) : Host.Outcome State Fault Refusal :=
  runCommand (.oscSetfreq u) (fun s => .ok (oscSetFrequency (unitOf u) s)) s

/-- OSC_PROCESS (R102). -/
def execOscProcess (u : UnitField) (s : State) : Host.Outcome State Fault Refusal :=
  runCommand (.oscProcess u) (oscProcessCommand Config.params (unitOf u)) s

end Sys2Proof.Machine
end

