-- ==== Sys2Proof/Machine/Output.lean ====
section
/-! DEFINITION. Amplitude modulation, level gain and output scaling (43_am_gain_output.md): AM, GAIN_DB, OUT_SCALE. -/

namespace Sys2Proof.Machine

/-- `am_fn(c, m)` (R150).
DESIGN CHOICE (notes/assumptions/25): each operation rounds, so m just above 1 gives an envelope of 1. -/
def amFn (carrier modulator : F32) : F32 := amValue binary32 Binary32.half carrier modulator

/-- POW10 (R16): 1 at a zero (P2), 10, 100 and 1000 at 1, 2 and 3 (P3), the canonical NaN at a NaN (P4), open
elsewhere.
DESIGN CHOICE (notes/assumptions/24): R16 is followed where R151's corner cases and U12 say more of POW10 (a negative dB
gives a gain below 1, a large one +inf): the value there is free. -/
def pow10Fn (p : Params) (x : F32) : F32 :=
  if Binary32.isNaN x then Binary32.qnan
  else if Binary32.isZero x then Binary32.one
  else if x = Binary32.one then Binary32.ten
  else if x = Binary32.two then Binary32.hundred
  else if x = Binary32.three then Binary32.thousand
  else p.pow10Raw x

/-- `gain_fn(db) = POW10(db / 20)` (R151). -/
def gainFn (p : Params) (db : F32) : F32 := pow10Fn p (binary32.div db Binary32.twenty)

/-- `out_fn(am, g)` (R152).
DESIGN CHOICE (notes/assumptions/25): each operation rounds, so half of a least normal value may too. -/
def outFn (am gain : F32) : F32 := outValue binary32 Binary32.half am gain

/-- `RESULT <- am_fn(ARG0, ARG1)` (R150). -/
def amCommand (s : State) : State := s.setResult (amFn (amCarrierArg s) (amModulatorArg s))

/-- `RESULT <- gain_fn(ARG0)`; GAIN is not written (R151). -/
def gainCommand (p : Params) (s : State) : State := s.setResult (gainFn p (gainDbArg s))

/-- `RESULT <- out_fn(ARG0, ARG1)` (R152). -/
def outCommand (s : State) : State := s.setResult (outFn (outAmArg s) (outGainArg s))

/-- AM (R150). -/
def execAm (s : State) : Host.Outcome State Fault Refusal := runCommand .am (fun s => .ok (amCommand s)) s

/-- GAIN_DB (R151). -/
def execGainDb (s : State) : Host.Outcome State Fault Refusal :=
  runCommand .gainDb (fun s => .ok (gainCommand Config.params s)) s

/-- OUT_SCALE (R152). -/
def execOutScale (s : State) : Host.Outcome State Fault Refusal :=
  runCommand .outScale (fun s => .ok (outCommand s)) s

end Sys2Proof.Machine
end

