-- ==== Sys2Proof/Machine/Smoothing.lean ====
section
/-! DEFINITION. The single-pole exponential smoothing filter (41_smoothing.md): SMOOTH_CONFIG, SMOOTH_PROCESS,
SMOOTH_SETSTATE, SMOOTH_SETCOEF. -/

namespace Sys2Proof.Machine

/-- EXP (R16): 1 at a zero (P1), the canonical NaN at a NaN (P4), open elsewhere.
DESIGN CHOICE (notes/assumptions/24): R16 is followed where R120's corner cases say more of EXP. -/
def expFn (p : Params) (x : F32) : F32 :=
  if Binary32.isNaN x then Binary32.qnan
  else if Binary32.isZero x then Binary32.one
  else p.expRaw x

/-- `1.0 - EXP(-((2π * cutoffHz) / sampleRate))` (R120). -/
def smoothCoefficient (p : Params) (cutoff sampleRate : F32) : F32 :=
  binary32.sub Binary32.one (expFn p (Binary32.negate (cutoffRatio binary32 Binary32.twoPi cutoff sampleRate)))

/-- SMOOTH_CONFIG on filter a (R120): only SMa_COEF is written. -/
def smoothConfigure (p : Params) (a : UnitIx) (s : State) : Attempt :=
  if !Binary32.gt (smoothSampleRateArg s) Binary32.zero then .error ⟨.badSampleRate, unitNumber a⟩
  else .ok (s.setSm a { s.sm a with coef := smoothCoefficient p (cutoffArg s) (smoothSampleRateArg s) })

/-- The new SMa_STATE of `smooth_process(a, x)`, which is also its value (R121).
DESIGN CHOICE (notes/assumptions/23): R121's pseudocode is followed where its corner cases differ from it: COEF = 0 or 1
with a zero of the other sign or a non-finite `x - state`; and an infinite x, "an infinite state", which gives NaN with a
COEF of 0 or NaN, a NaN state, an infinite state of x's sign, or COEF > 0 and an infinite state of the other sign. -/
def smoothOutput (f : Smooth) (x : F32) : F32 := smoothNext binary32 f.coef f.state x

/-- The state `smooth_process(a, x)` leaves (R121). -/
def smoothProcess (a : UnitIx) (x : F32) (s : State) : State :=
  s.setSm a { s.sm a with state := smoothOutput (s.sm a) x }

/-- `RESULT <- smooth_process(a, ARG0)` (R121). -/
def smoothProcessCommand (a : UnitIx) (s : State) : State :=
  (smoothProcess a (smoothInputArg s) s).setResult (smoothOutput (s.sm a) (smoothInputArg s))

/-- `SMa_STATE <- ARG0` (R122). -/
def smoothSetState (a : UnitIx) (s : State) : State :=
  s.setSm a { s.sm a with state := smoothStateArg s }

/-- `SMa_COEF <- ARG0` (R123). -/
def smoothSetCoef (a : UnitIx) (s : State) : State :=
  s.setSm a { s.sm a with coef := smoothCoefArg s }

/-- SMOOTH_CONFIG (R120). -/
def execSmoothConfig (u : UnitField) (s : State) : Host.Outcome State Fault Refusal :=
  runCommand (.smoothConfig u) (smoothConfigure Config.params (unitOf u)) s

/-- SMOOTH_PROCESS (R121). -/
def execSmoothProcess (u : UnitField) (s : State) : Host.Outcome State Fault Refusal :=
  runCommand (.smoothProcess u) (fun s => .ok (smoothProcessCommand (unitOf u) s)) s

/-- SMOOTH_SETSTATE (R122). -/
def execSmoothSetstate (u : UnitField) (s : State) : Host.Outcome State Fault Refusal :=
  runCommand (.smoothSetstate u) (fun s => .ok (smoothSetState (unitOf u) s)) s

/-- SMOOTH_SETCOEF (R123). -/
def execSmoothSetcoef (u : UnitField) (s : State) : Host.Outcome State Fault Refusal :=
  runCommand (.smoothSetcoef u) (fun s => .ok (smoothSetCoef (unitOf u) s)) s

end Sys2Proof.Machine
end

