-- ==== Sys2Proof/Machine/Engine.lean ====
section
/-! DEFINITION. The engine sequencer and the sample streamer (44_engine_stream.md): NOP, FRAME, STEP, the DAC tick. -/

namespace Sys2Proof.Machine

/-- The frame step (R180): the touch gate, sticky hold, PRESENCE, and the frame's gain, all from one snapshot. -/
def frameStep (p : Params) (s : State) : State :=
  { s with
    target0 := if touchGate s.touchSize then s.touchX else s.target0
    target1 := if touchGate s.touchSize then s.touchY else s.target1
    presence := touchGate s.touchSize
    gain := gainFn p s.levelDb }

/-- Step 2 of the sample step for axis a (R181): smooth the target, set the frequency and the intensity. -/
def axisStep (a : UnitIx) (s : State) : State :=
  let v := smoothOutput (s.sm a) (s.target a)
  ((smoothProcess a (s.target a) s).setOsc a { s.osc a with freq := controlFrequency v }).setIntensity a
    (controlIntensity v)

/-- Step 2 for both axes, axis 0 first (R181). -/
def axesStep (s : State) : State := axisStep .k1 (axisStep .k0 s)

/-- `LAST_OUT <- out`, `emit DAC(out)`, `emit SCOPE(out, TARGET0, TARGET1)` (R181, steps 7 and 8). -/
def emitSample (out : F32) (s : State) : State :=
  { s with
    lastOut := out
    dacStream := s.dacStream ++ [out]
    scopeStream := s.scopeStream ++ [⟨out, s.target0, s.target1⟩] }

/-- The sample step (R181): both axes, the carrier, the modulator, then the output. -/
def sampleStep (p : Params) (s : State) : Attempt :=
  match oscProcess p .k0 (axesStep s) with
  | .error f => .error f
  | .ok (c, t) =>
    match oscProcess p .k1 t with
    | .error f => .error f
    | .ok (m, r) => .ok (emitSample (outFn (amFn c m) r.gain) r)

/-- The frame test: a stream step at FRAME_POS = 0 performs the frame step first (R182). -/
def frameGate (p : Params) (s : State) : State := if s.framePos = 0 then frameStep p s else s

/-- FRAME_POS and SAMPLE_COUNT advance (R36, R37, R182). -/
def advanceCounters (p : Params) (s : State) : State :=
  { s with
    framePos := BitVec.ofNat 32 ((s.framePos.toNat + 1) % p.blockSize)
    sampleCount := s.sampleCount + 1 }

/-- `stream_step` (R182). -/
def streamStep (p : Params) (s : State) : Attempt :=
  match sampleStep p (frameGate p s) with
  | .error f => .error f
  | .ok t => .ok (advanceCounters p t)

/-- FAULT_INFO of a fault in a tick's stream step: the STEP opcode with unit 0 (R26). -/
def tickFaultInfo : Word := 0x0000000D#32

/-- The DAC tick (R182): dropped unless RUN = 1 and HALTED = 0. -/
def dacTick (p : Params) (s : State) : State :=
  if s.run && !s.halted then settle true tickFaultInfo s (streamStep p s) else s

/-- NOP (R170). -/
def execNop (s : State) : Host.Outcome State Fault Refusal := runCommand .nop (fun s => .ok s) s

/-- FRAME (R171): the frame step on its own. -/
def execFrame (s : State) : Host.Outcome State Fault Refusal :=
  runCommand .frame (fun s => .ok (frameStep Config.params s)) s

/-- STEP (R172): one stream step from the host. -/
def execStep (s : State) : Host.Outcome State Fault Refusal := runCommand .step (streamStep Config.params) s

end Sys2Proof.Machine
end

