-- ==== Sys2Proof/Machine/Dispatch.lean ====
section
/-! DEFINITION. One arm per command (30_encoding.md R83). -/

namespace Sys2Proof.Machine

def exec (i : Instr) (s : State) : Host.Outcome State Fault Refusal :=
  match i with
  | .nop => Sys2Proof.Machine.execNop s
  | .oscConfig u => Sys2Proof.Machine.execOscConfig u s
  | .oscSetfreq u => Sys2Proof.Machine.execOscSetfreq u s
  | .oscProcess u => Sys2Proof.Machine.execOscProcess u s
  | .smoothConfig u => Sys2Proof.Machine.execSmoothConfig u s
  | .smoothProcess u => Sys2Proof.Machine.execSmoothProcess u s
  | .smoothSetstate u => Sys2Proof.Machine.execSmoothSetstate u s
  | .smoothSetcoef u => Sys2Proof.Machine.execSmoothSetcoef u s
  | .map => Sys2Proof.Machine.execMap s
  | .am => Sys2Proof.Machine.execAm s
  | .gainDb => Sys2Proof.Machine.execGainDb s
  | .outScale => Sys2Proof.Machine.execOutScale s
  | .frame => Sys2Proof.Machine.execFrame s
  | .step => Sys2Proof.Machine.execStep s

end Sys2Proof.Machine
end

