-- ==== Sys2Proof/Machine/Registers.lean ====
section
/-! DEFINITION. The register file of the bus (10_state.md R21) and the address map (20_memory.md R62, R63, R69):
the one place where a register is read or written by HOST. -/

namespace Sys2Proof.Machine

/-- The registers of R21. -/
inductive Reg where
  | id | params0 | params1 | ctrl | status | faultCause | faultInfo | cmd | result
  | arg0 | arg1 | arg2 | arg3 | arg4
  | touchSize | touchX | touchY | levelDb
  | target0 | target1 | gain | intensity0 | intensity1 | lastOut | framePos | sampleCount
  | oscLen (k : UnitIx) | oscInvSr (k : UnitIx) | oscFreq (k : UnitIx) | oscPhase (k : UnitIx) | oscFlags (k : UnitIx)
  | smState (a : UnitIx) | smCoef (a : UnitIx)
  deriving DecidableEq, Repr

/-- The byte offsets of the host-interface, control-input and engine registers (R21). -/
def hostRegMap : List (Nat × Reg) :=
  [(0x000, .id), (0x004, .params0), (0x008, .params1), (0x00C, .ctrl), (0x010, .status), (0x014, .faultCause),
   (0x018, .faultInfo), (0x01C, .cmd), (0x020, .result), (0x024, .arg0), (0x028, .arg1), (0x02C, .arg2),
   (0x030, .arg3), (0x034, .arg4), (0x040, .touchSize), (0x044, .touchX), (0x048, .touchY), (0x04C, .levelDb),
   (0x050, .target0), (0x054, .target1), (0x058, .gain), (0x05C, .intensity0), (0x060, .intensity1),
   (0x064, .lastOut), (0x068, .framePos), (0x06C, .sampleCount)]

/-- The byte offsets of the oscillator and filter registers (R21). -/
def unitRegMap : List (Nat × Reg) :=
  [(0x100, .oscLen .k0), (0x104, .oscInvSr .k0), (0x108, .oscFreq .k0), (0x10C, .oscPhase .k0), (0x110, .oscFlags .k0),
   (0x120, .oscLen .k1), (0x124, .oscInvSr .k1), (0x128, .oscFreq .k1), (0x12C, .oscPhase .k1), (0x130, .oscFlags .k1),
   (0x180, .smState .k0), (0x184, .smCoef .k0), (0x190, .smState .k1), (0x194, .smCoef .k1)]

/-- All register offsets (R21). -/
def regMap : List (Nat × Reg) := hostRegMap ++ unitRegMap

/-- The register word of a bus read (R21 to R44); reserved bits read 0. -/
def readReg (p : Params) (s : State) : Reg → Word
  | .id => idWord
  | .params0 => params0Word p
  | .params1 => params1Word p
  | .ctrl => ctrlWord s
  | .status => statusWord s
  | .faultCause => s.faultCause
  | .faultInfo => s.faultInfo
  | .cmd => s.cmd
  | .result => s.result
  | .arg0 => s.arg0
  | .arg1 => s.arg1
  | .arg2 => s.arg2
  | .arg3 => s.arg3
  | .arg4 => s.arg4
  | .touchSize => s.touchSize
  | .touchX => s.touchX
  | .touchY => s.touchY
  | .levelDb => s.levelDb
  | .target0 => s.target0
  | .target1 => s.target1
  | .gain => s.gain
  | .intensity0 => s.intensity0
  | .intensity1 => s.intensity1
  | .lastOut => s.lastOut
  | .framePos => s.framePos
  | .sampleCount => s.sampleCount
  | .oscLen k => (s.osc k).len
  | .oscInvSr k => (s.osc k).invSr
  | .oscFreq k => (s.osc k).freq
  | .oscPhase k => (s.osc k).phase
  | .oscFlags k => oscFlagsWord (s.osc k)
  | .smState a => (s.sm a).state
  | .smCoef a => (s.sm a).coef

/-- A bus write to CTRL (R23): ignored while HALTED = 1; else RUN takes bit 0, and a change from 0 to 1 sets
FRAME_POS to 0 (R183). -/
def writeCtrl (v : Word) (s : State) : State :=
  if s.halted then s
  else
    let run := decide (v.toNat % 2 = 1)
    { s with run := run, framePos := if !s.run && run then 0 else s.framePos }

/-- Latch the word written to CMD (R27); running the command is `Machine.writeCmd`. -/
def latchCmd (v : Word) (s : State) : State := { s with cmd := v }

/-- The register's own write rule: an RW register stores the word, an RO register ignores it (R21, R64). -/
def writeReg (r : Reg) (v : Word) (s : State) : State :=
  match r with
  | .ctrl => writeCtrl v s
  | .cmd => latchCmd v s
  | .arg0 => { s with arg0 := v }
  | .arg1 => { s with arg1 := v }
  | .arg2 => { s with arg2 := v }
  | .arg3 => { s with arg3 := v }
  | .arg4 => { s with arg4 := v }
  | .touchSize => { s with touchSize := v }
  | .touchX => { s with touchX := v }
  | .touchY => { s with touchY := v }
  | .levelDb => { s with levelDb := v }
  | .id => s
  | .params0 => s
  | .params1 => s
  | .status => s
  | .faultCause => s
  | .faultInfo => s
  | .result => s
  | .target0 => s
  | .target1 => s
  | .gain => s
  | .intensity0 => s
  | .intensity1 => s
  | .lastOut => s
  | .framePos => s
  | .sampleCount => s
  | .oscLen _ => s
  | .oscInvSr _ => s
  | .oscFreq _ => s
  | .oscPhase _ => s
  | .oscFlags _ => s
  | .smState _ => s
  | .smCoef _ => s

/-- What a word address reaches (R62). -/
inductive Place where
  | reg (r : Reg)
  /-- `STG_k[i]`, i < TABLE_CAPACITY. -/
  | stg (k : UnitIx) (i : Nat)
  /-- Word i of the active window of oscillator k. -/
  | act (k : UnitIx) (i : Nat)
  | unmapped
  deriving DecidableEq, Repr

/-- `addr & 0xFFFC`: address bits 1:0 are ignored (R61). -/
def wordAddr (addr : BusAddr) : Nat := addr.toNat / 4 * 4

/-- The window of a word address, with the index `(w & 0xFFF) >> 2`; a staging index at or beyond TABLE_CAPACITY is
unmapped (R62, R63). -/
def windowOf (p : Params) (w : Nat) : Place :=
  let i := w % 0x1000 / 4
  if 0x1000 ≤ w ∧ w < 0x2000 then (if i < p.tableCapacity then .stg .k0 i else .unmapped)
  else if 0x2000 ≤ w ∧ w < 0x3000 then (if i < p.tableCapacity then .stg .k1 i else .unmapped)
  else if 0x3000 ≤ w ∧ w < 0x4000 then .act .k0 i
  else if 0x4000 ≤ w ∧ w < 0x5000 then .act .k1 i
  else .unmapped

/-- The decode order of R62: a register offset, else a window, else unmapped. -/
def placeOf (p : Params) (addr : BusAddr) : Place :=
  match regMap.lookup (wordAddr addr) with
  | some r => .reg r
  | none => windowOf p (wordAddr addr)

/-- The word of a bus read at a place; an active index at or beyond OSCk_LEN, and an unmapped word, read 0
(R62, R64). -/
def readPlace (p : Params) (s : State) : Place → Word
  | .reg r => readReg p s r
  | .stg k i => stgWord s k i
  | .act k i => if i < (s.osc k).len.toNat then actWord s k i else 0
  | .unmapped => 0

/-- `MemRead(addr, 4)` (R62). -/
def memRead (p : Params) (addr : BusAddr) (s : State) : Word := readPlace p s (placeOf p addr)

/-- The state a bus write leaves, apart from running a command: the active window and unmapped words ignore it
(R62, R64). -/
def writePlace (place : Place) (v : Word) (s : State) : State :=
  match place with
  | .reg r => writeReg r v s
  | .stg k i => setStgWord k i v s
  | .act _ _ => s
  | .unmapped => s

/-- One byte of the bus as a little-endian bridge sees it (R65). -/
def busByte (p : Params) (addr : BusAddr) (s : State) : Byte := byteLane (memRead p addr s) (addr.toNat % 4)

end Sys2Proof.Machine
end

