-- ==== Sys2Proof/Machine/Bus.lean ====
section
/-! DEFINITION. The effect of one input on the block: a bus read or write (20_memory.md R60), the command a CMD write
runs (10_state.md R27, 30_encoding.md R82), the DAC tick (R182), reset (R230). -/

namespace Sys2Proof.Machine

/-- A bus write to CMD (R27): the word is stored; while HALTED = 1 nothing else happens; else the command runs, or an
illegal word is taken as ILLEGAL_CMD (R82, R86). -/
def writeCmd (v : Word) (s : State) : Host.Outcome State Fault Refusal :=
  if s.halted then .next (latchCmd v s)
  else
    match decode v with
    | .ok i => exec i (latchCmd v s)
    | .error e => .next (takeFault false v ⟨.illegalCmd, e.unit⟩ (latchCmd v s))

/-- `MemWrite(addr, 4, v)` (R60, R62): a write to CMD includes the whole command it starts. -/
def memWrite (p : Params) (addr : BusAddr) (v : Word) (s : State) : Host.Outcome State Fault Refusal :=
  if placeOf p addr = .reg .cmd then writeCmd v s else .next (writePlace (placeOf p addr) v s)

/-- A bus read: the word goes to HOST, and nothing else changes (R68). -/
def busRead (p : Params) (addr : BusAddr) (s : State) : State :=
  { s with responses := s.responses ++ [memRead p addr s] }

/-- One input, as one atomic step (R15, R60, R182, R230). -/
def applyInput (p : Params) (i : Input) (s : State) : Host.Outcome State Fault Refusal :=
  match i with
  | .busRead addr => .next (busRead p addr s)
  | .busWrite addr v => memWrite p addr v s
  | .tick => .next (dacTick p s)
  | .reset => .next (resetBlock s)

/-- The byte address of CMD (R21). -/
def cmdAddr : BusAddr := 0x01C#16

/-- Put a bus write of a command word in front of the schedule: the next step runs it. -/
def pendCommand (w : Word) (s : State) : State := { s with inputs := .busWrite cmdAddr w :: s.inputs }

end Sys2Proof.Machine
end

