-- ==== Sys2Proof/Machine/Step.lean ====
section
/-! DEFINITION. One step of the machine: the next input of the schedule (20_memory.md R71, 00_scope.md R17). -/

namespace Sys2Proof.Machine

/-- One step: the oldest pending input takes effect; with none pending the block waits and all state is kept
(R215, R231). -/
def step (s : State) : Host.Outcome State Fault Refusal :=
  match s.inputs with
  | [] => .next s
  | i :: rest => applyInput Config.params i { s with inputs := rest }

/-- The command word given by an opcode-table word, written to CMD by the very next step. -/
def State.withFetchWord (s : State) (nbits w : Nat) : State := pendCommand (tableWord nbits w) s

end Sys2Proof.Machine
end

