-- ==== Sys2Proof/Machine/Ideal.lean ====
section
/-! DEFINITION. The idealised reading of the rules (00_scope.md R12): the same operations in exact arithmetic, the
source's own semantics, written over any ordered field with a floor; `exactReal` gives ℝ its exact functions. No step of
the machine uses this file: the hardware is the binary32 reading (notes/assumptions/18). -/

namespace Sys2Proof.Machine.Ideal

/-- The constants and functions R12 reads as exact: 2π, EXP and POW10 (R16). -/
structure Functions (α : Type) where
  twoPi : α
  exp : α → α
  pow10 : α → α

/-- The exact functions over the reals (R12). -/
noncomputable def exactReal : Functions ℝ where
  twoPi := 2 * Real.pi
  exp := Real.exp
  pow10 := fun x => (10 : ℝ) ^ x

/-- An oscillator of the idealised reading; N is the length of its table (R19). -/
structure Osc (α : Type) where
  table : List α
  invSr : α
  freq : α
  phase : α
  interp : Bool
  deriving DecidableEq, Repr

/-- A smoothing filter of the idealised reading. -/
structure Smooth (α : Type) where
  state : α
  coef : α
  deriving DecidableEq, Repr

/-- The datapath state of the idealised reading (R30 to R44, R48, R50). -/
structure Block (α : Type) where
  touchSize : α
  touchX : α
  touchY : α
  levelDb : α
  target0 : α
  target1 : α
  gain : α
  intensity0 : α
  intensity1 : α
  lastOut : α
  presence : Bool
  framePos : Nat
  sampleCount : Nat
  osc0 : Osc α
  osc1 : Osc α
  sm0 : Smooth α
  sm1 : Smooth α
  dacStream : List α
  scopeStream : List (α × α × α)
  deriving DecidableEq, Repr

variable {α : Type} [Field α] [LinearOrder α] [FloorRing α]

/-- The real a finite binary32 pattern stands for (R9). -/
def value (α : Type) [Field α] (x : F32) : α := (Binary32.toUnits x : α) / 2 ^ 149

/-! ## Oscillator (R100 to R104) -/

/-- `configure` (R100): `stg` is the staging table; its first `len` words are copied. -/
def oscConfigure (p : Params) (k : UnitIx) (sr : α) (stg : List α) (len : Nat) (interp : Bool) (o : Osc α) :
    Except BlockFault (Osc α) :=
  if ¬ 0 < sr then .error ⟨.badSampleRate, unitNumber k⟩
  else if p.tableCapacity < len then .error ⟨.badLength, unitNumber k⟩
  else .ok { o with invSr := (exact α).div 1 sr, table := stg.take len, interp := interp, phase := 0 }

/-- `setFrequency` (R101). -/
def oscSetFrequency (f : α) (o : Osc α) : Osc α := { o with freq := f }

/-- `mod_exact(p, n)`, the whole of `normalize` without rounding (R14, R103). -/
def normalize (p : α) (n : Nat) : α := p - n * ⌊p / n⌋

/-- `lookup` (R104). -/
def lookup (o : Osc α) (p : α) : α :=
  let i0 := ⌊p⌋.toNat
  let i1 := (i0 + 1) % o.table.length
  if o.interp then interpolate (exact α) 1 (p - i0) (o.table.getD i0 0) (o.table.getD i1 0)
  else o.table.getD i0 0

/-- The accumulated phase of `osc_process` (R102). -/
def accumulatedPhase (o : Osc α) : α :=
  (exact α).add o.phase (phaseIncrement (exact α) (o.table.length : α) o.freq o.invSr)

/-- `osc_process` (R102); no exact phase is NaN or infinite, so only NEG_PHASE can be raised. -/
def oscProcess (p : Params) (k : UnitIx) (o : Osc α) : Except BlockFault (α × Osc α) :=
  if o.table.length = 0 then .ok (0, o)
  else if accumulatedPhase o < 0 ∧ p.negPhase = .fault then .error ⟨.negPhase, unitNumber k⟩
  else
    let q := normalize (accumulatedPhase o) o.table.length
    .ok (lookup o q, { o with phase := q })

/-! ## Smoothing filter (R120 to R123) -/

/-- `1 - exp(-2π·cutoffHz / sampleRate)` (R120). -/
def smoothCoefficient (F : Functions α) (cutoff sampleRate : α) : α :=
  (exact α).sub 1 (F.exp (-cutoffRatio (exact α) F.twoPi cutoff sampleRate))

/-- `configure` (R120). -/
def smoothConfigure (F : Functions α) (a : UnitIx) (cutoff sampleRate : α) (f : Smooth α) : Except BlockFault (Smooth α) :=
  if ¬ 0 < sampleRate then .error ⟨.badSampleRate, unitNumber a⟩
  else .ok { f with coef := smoothCoefficient F cutoff sampleRate }

/-- `process(x)` (R121): the new state is also the value. -/
def smoothProcess (x : α) (f : Smooth α) : Smooth α := { f with state := smoothNext (exact α) f.coef f.state x }

/-- SMOOTH_SETSTATE (R122). -/
def smoothSetState (s : α) (f : Smooth α) : Smooth α := { f with state := s }

/-- SMOOTH_SETCOEF (R123). -/
def smoothSetCoef (c : α) (f : Smooth α) : Smooth α := { f with coef := c }

/-! ## Mapper, AM, gain, output (R140 to R152) -/

/-- `map` (R140). -/
def mapFn (v inMin inMax outMin outMax : α) : Except BlockFault α :=
  if inMin = inMax then .error ⟨.mapDivZero, 0⟩ else .ok (mapValue (exact α) v inMin inMax outMin outMax)

/-- The frequency of a smoothed control (R141). -/
def controlFrequency (v : α) : α := mapValue (exact α) v 0 1 55 880

/-- The intensity of a smoothed control (R141). -/
def controlIntensity (v : α) : α := mapValue (exact α) v 0 1 (3 / 10) 1

/-- `am_fn` (R150). -/
def amFn (carrier modulator : α) : α := amValue (exact α) (1 / 2) carrier modulator

/-- `gain_fn` (R151). -/
def gainFn (F : Functions α) (db : α) : α := F.pow10 ((exact α).div db 20)

/-- `out_fn` (R152). -/
def outFn (am gain : α) : α := outValue (exact α) (1 / 2) am gain

/-! ## Engine (R180 to R182) -/

/-- The touch gate, `touchSize > τ` with τ = 0.05 (R180). -/
def touchGate (size : α) : Bool := decide (1 / 20 < size)

/-- The frame step (R180). -/
def frameStep (F : Functions α) (b : Block α) : Block α :=
  { b with
    target0 := if touchGate b.touchSize then b.touchX else b.target0
    target1 := if touchGate b.touchSize then b.touchY else b.target1
    presence := touchGate b.touchSize
    gain := gainFn F b.levelDb }

/-- Step 2 of the sample step, both axes (R181). -/
def axesStep (b : Block α) : Block α :=
  let f0 := smoothProcess b.target0 b.sm0
  let f1 := smoothProcess b.target1 b.sm1
  { b with
    sm0 := f0
    sm1 := f1
    osc0 := oscSetFrequency (controlFrequency f0.state) b.osc0
    osc1 := oscSetFrequency (controlFrequency f1.state) b.osc1
    intensity0 := controlIntensity f0.state
    intensity1 := controlIntensity f1.state }

/-- Steps 3 to 8 of the sample step after the axes (R181): `out` goes to LAST_OUT and both streams. -/
def emitSample (out : α) (b : Block α) : Block α :=
  { b with
    lastOut := out
    dacStream := b.dacStream ++ [out]
    scopeStream := b.scopeStream ++ [(out, b.target0, b.target1)] }

/-- The sample step (R181). -/
def sampleStep (p : Params) (b : Block α) : Except BlockFault (Block α) :=
  let a := axesStep b
  match oscProcess p .k0 a.osc0 with
  | .error f => .error f
  | .ok (c, o0) =>
    match oscProcess p .k1 a.osc1 with
    | .error f => .error f
    | .ok (m, o1) => .ok (emitSample (outFn (amFn c m) a.gain) { a with osc0 := o0, osc1 := o1 })

/-- `stream_step` (R182). -/
def streamStep (F : Functions α) (p : Params) (b : Block α) : Except BlockFault (Block α) :=
  match sampleStep p (if b.framePos = 0 then frameStep F b else b) with
  | .error f => .error f
  | .ok t => .ok { t with
      framePos := (b.framePos + 1) % p.blockSize
      sampleCount := (b.sampleCount + 1) % 2 ^ 32 }

end Sys2Proof.Machine.Ideal
end

