-- ==== Sys2Proof/Machine/Ports.lean ====
section
/-! DEFINITION. The output ports, as views of the state (10_state.md R48; 44_engine_stream.md R184 to R187). -/

namespace Sys2Proof.Machine

/-- `presence_o` (R48, R186). -/
def presenceO (s : State) : Bool := s.presence

/-- `intensity_o[a]` (R48, R186). -/
def intensityO (s : State) (a : UnitIx) : F32 := s.intensity a

/-- `fault_o` (R48, R207). -/
def faultO (s : State) : Bool := s.halted

/-- `dac_data_o[ch]` for ch in 0..NUM_CHANNELS-1: LAST_OUT on every channel (R184, R187). -/
def dacDataO (p : Params) (s : State) : List F32 := List.replicate p.numChannels s.lastOut

/-- The samples one element of DAC_STREAM stands for: the same value on every channel (R48). -/
def channelSamples (p : Params) (out : F32) : List F32 := List.replicate p.numChannels out

/-- `scope_data_o[0..2]`: the three words of the newest tuple of SCOPE_STREAM (R185); 0 before the first one (R48). -/
def scopeDataO (s : State) : List F32 :=
  match s.scopeStream.getLast? with
  | some q => [q.output, q.control0, q.control1]
  | none => [0, 0, 0]

/-- Whether `dac_valid_o` pulses on a step from `s` to `t`: a new element of DAC_STREAM (R184). -/
def dacValidO (s t : State) : Bool := decide (t.dacStream.length = s.dacStream.length + 1)

/-- Whether `scope_valid_o` pulses on a step from `s` to `t`: a new element of SCOPE_STREAM (R185). -/
def scopeValidO (s t : State) : Bool := decide (t.scopeStream.length = s.scopeStream.length + 1)

end Sys2Proof.Machine
end

