-- ==== Sys2Proof/Safety.lean ====
section
/-! DEFINITION. What a safe run of the block is, in the terms claims use: not faulted, and the invariant of the
state that every step keeps. -/

namespace Sys2Proof.Machine

/-- A faulted state, never a correct final state (44_engine_stream.md R189). -/
abbrev Faulted (s : State) : Prop := s.halted = true

/-- A command may run: the block is not halted, and it is stopped or the command is one of RUN_SAFE_OPS
(30_encoding.md R82, 10_state.md R47). -/
abbrev MayRun (i : Instr) (s : State) : Prop :=
  s.halted = false ∧ (s.run = false ∨ runSafe i = true) ∧ WellFormed i = true

/-- A byte address inside the TABLE_CAPACITY words of one of the four table memories (20_memory.md R63). -/
def InTables (p : Params) (a : Nat) : Prop :=
  ∃ k : UnitIx, (stgBase k ≤ a ∧ a < stgBase k + 4 * p.tableCapacity) ∨
    (actBase k ≤ a ∧ a < actBase k + 4 * p.tableCapacity)

/-- A phase of a table of `n` words: finite, not negative and not -0.0, and below n (10_state.md R41). -/
abbrev PhaseInTable (phase : F32) (n : Nat) : Prop :=
  Binary32.isFinite phase = true ∧ Binary32.neg? phase = false ∧
    Binary32.toUnits phase < ((n * Binary32.unitsPerOne : Nat) : Int)

/-- The invariant of the block's state. -/
structure Inv (p : Params) (s : State) : Prop where
  /-- The table memories are in canonical form. -/
  memory_canonical : Memory.wf s.mem
  /-- Only words of the tables are ever written (R62). -/
  memory_in_tables : ∀ c ∈ s.mem, InTables p c.1
  /-- OSCk_LEN lies in [0, TABLE_CAPACITY] (R38). -/
  length_bounded : ∀ k, (s.osc k).len.toNat ≤ p.tableCapacity
  /-- 0 ≤ OSCk_PHASE < OSCk_LEN whenever OSCk_LEN > 0 (R41). -/
  phase_in_table : ∀ k, 0 < (s.osc k).len.toNat → PhaseInTable (s.osc k).phase (s.osc k).len.toNat
  /-- OSCk_PHASE is never -0.0 and never negative (R102). -/
  phase_not_negative : ∀ k, Binary32.neg? (s.osc k).phase = false
  /-- FRAME_POS lies in [0, BLOCK_SIZE - 1] (R36). -/
  frame_pos_bounded : s.framePos.toNat < p.blockSize
  /-- The j-th elements of the two streams come from the same stream step (R77). -/
  streams_paired : s.scopeStream.map ScopeTuple.output = s.dacStream
  /-- SAMPLE_COUNT counts the completed stream steps modulo 2^32 (R37). -/
  count_is_length : s.sampleCount = BitVec.ofNat 32 s.dacStream.length
  /-- LAST_OUT is the output of the last sample step, +0.0 before the first (R35). -/
  last_out : s.lastOut = s.dacStream.getLast?.getD 0
  /-- While no fault has occurred the fault records hold 0 (R25, R26). -/
  no_fault_recorded : s.halted = false → s.faultCause = 0 ∧ s.faultInfo = 0
  /-- A halted block holds the record of a fault (R25, R202). -/
  fault_recorded : s.halted = true → ∃ src f, s.faultCause = causeWord src f

/-- Oscillator k can process: its table is empty, or its accumulated phase is finite and not a negative phase that
NEG_PHASE_POLICY makes a fault (40_oscillator.md R102). -/
def OscReady (p : Params) (o : Osc) : Prop :=
  o.len = 0 ∨ (Binary32.isFinite (accumulatedPhase o) = true ∧
    (Binary32.lt (accumulatedPhase o) Binary32.zero = false ∨ p.negPhase = .wrap))

/-- Oscillator k as `osc_process` leaves it when it does not fault (R102). -/
def processedOsc (o : Osc) : Osc :=
  if o.len = 0 then o else { o with phase := normalizePhase (accumulatedPhase o) o.len.toNat }

/-- The sample `osc_process(k)` returns when it does not fault (R102). -/
def processedSample (s : State) (k : UnitIx) : F32 :=
  if (s.osc k).len = 0 then Binary32.zero
  else tableLookup s k (normalizePhase (accumulatedPhase (s.osc k)) (s.osc k).len.toNat) (s.osc k).len.toNat

/-- `r` is the exact value `a / b` (in units of 2^-149, b ≠ 0) rounded to nearest, ties to even (00_scope.md R9, R10):
below the overflow threshold `(2 - 2^-24) * 2^127` a finite pattern such that no finite value is closer, an even one
where another value is as close; from the threshold on the infinity of the exact sign. -/
def Rounded (r : F32) (a b : Int) : Prop :=
  (|a| < (2 ^ 25 - 1) * 2 ^ 252 * |b| →
    Binary32.isFinite r = true ∧
    ∀ z, Binary32.isFinite z = true →
      |Binary32.toUnits r * b - a| ≤ |Binary32.toUnits z * b - a| ∧
      (|Binary32.toUnits r * b - a| = |Binary32.toUnits z * b - a| →
        Binary32.toUnits z = Binary32.toUnits r ∨ r.getLsbD 0 = false)) ∧
  ((2 ^ 25 - 1) * 2 ^ 252 * |b| ≤ |a| → r = if a * b < 0 then 0xFF800000#32 else 0x7F800000#32)

/-- The engine registers that only the engine and, for FRAME_POS, a CTRL write change, FRAME_POS apart
(20_memory.md R74, 10_state.md R32 to R37, R48, R50). -/
def SameEngineButFramePos (s t : State) : Prop :=
  t.target0 = s.target0 ∧ t.target1 = s.target1 ∧ t.gain = s.gain ∧ t.presence = s.presence ∧
  t.intensity0 = s.intensity0 ∧ t.intensity1 = s.intensity1 ∧ t.lastOut = s.lastOut ∧
  t.sampleCount = s.sampleCount ∧ t.dacStream = s.dacStream ∧ t.scopeStream = s.scopeStream

/-- Two states that agree on everything but the bytes of the staging tables (20_memory.md R75). -/
structure SameButStaging (s t : State) : Prop where
  /-- Every field but the table memories is the same. -/
  fields : { s with mem := t.mem } = t
  /-- Every byte from the active windows up reads the same. -/
  active : ∀ a, 0x3000 ≤ a → tableByte s a = tableByte t a

/-- The operand and control-input registers: RW registers whose write only stores the word (R29, R30, R31). -/
def PlainRwReg (r : Reg) : Prop :=
  r ∈ [Reg.arg0, .arg1, .arg2, .arg3, .arg4, .touchSize, .touchX, .touchY, .levelDb]

/-- What one stream step from `s` leaves in `t`, given the state `a` after the frame test and the two axis updates
(R180, R181, R182): every register it writes, and the frame. The filter states are R121's expression and the samples
R104's, the model's choice where their corner cases differ (notes/assumptions/23, 22). -/
def StreamStepEffect (p : Params) (s t : State) : Prop :=
  let a := axesStep (frameGate p s)
  let c := processedSample a .k0
  let m := processedSample a .k1
  let out := Binary32.mul (Binary32.mul
    (Binary32.mul c (Binary32.add (Binary32.mul m 0x3F000000#32) 0x3F000000#32)) t.gain) 0x3F000000#32
  (t.target0 = if s.framePos = 0 ∧ Binary32.gt s.touchSize 0x3D4CCCCD#32 = true then s.touchX else s.target0) ∧
  (t.target1 = if s.framePos = 0 ∧ Binary32.gt s.touchSize 0x3D4CCCCD#32 = true then s.touchY else s.target1) ∧
  (t.presence = if s.framePos = 0 then Binary32.gt s.touchSize 0x3D4CCCCD#32 else s.presence) ∧
  (t.gain = if s.framePos = 0 then pow10Fn p (Binary32.div s.levelDb 0x41A00000#32) else s.gain) ∧
  (∀ k, (t.sm k).coef = (s.sm k).coef ∧
    (t.sm k).state = Binary32.add (s.sm k).state (Binary32.mul (s.sm k).coef (Binary32.sub (t.target k) (s.sm k).state)) ∧
    t.intensity k = controlIntensity (t.sm k).state ∧
    (t.osc k).freq = controlFrequency (t.sm k).state ∧
    (t.osc k).len = (s.osc k).len ∧ (t.osc k).invSr = (s.osc k).invSr ∧ (t.osc k).interp = (s.osc k).interp ∧
    (t.osc k).phase = (processedOsc { s.osc k with freq := controlFrequency (t.sm k).state }).phase) ∧
  t.lastOut = out ∧ t.dacStream = s.dacStream ++ [out] ∧
  t.scopeStream = s.scopeStream ++ [⟨out, t.target0, t.target1⟩] ∧
  t.framePos.toNat = (s.framePos.toNat + 1) % p.blockSize ∧
  t.sampleCount = s.sampleCount + 1 ∧
  t.run = s.run ∧ t.halted = s.halted ∧ t.faultCause = s.faultCause ∧ t.faultInfo = s.faultInfo ∧ t.cmd = s.cmd ∧
  t.result = s.result ∧ t.arg0 = s.arg0 ∧ t.arg1 = s.arg1 ∧ t.arg2 = s.arg2 ∧ t.arg3 = s.arg3 ∧ t.arg4 = s.arg4 ∧
  t.touchSize = s.touchSize ∧ t.touchX = s.touchX ∧ t.touchY = s.touchY ∧ t.levelDb = s.levelDb ∧
  (∀ x, tableByte t x = tableByte s x) ∧ t.inputs = s.inputs ∧ t.responses = s.responses ∧ t.tableEpoch = s.tableEpoch

/-- Both oscillators of a stream step from `s` can process (R102, R181). -/
def StreamReady (p : Params) (s : State) : Prop :=
  ∀ k, OscReady p ((axesStep (frameGate p s)).osc k)

end Sys2Proof.Machine
end

