-- ==== Sys2Proof/Certificates/Slice0/Obligations.lean ====
section
/-! DEFINITION. The statements for the provers, from the numbered rules of spec/. Each is a proposition about the
machine; none rests on the value of a free value or of a build parameter. -/

open Sys2Proof Sys2Proof.Machine

/-! ## Encoding (30_encoding.md) -/

/-- R81, R83: decoding the encoding of a well-formed command gives it back, for every command and every unit. -/
def Obligations.DecodeOfEncodeIsTheCommand : Prop :=
  ∀ i : Instr, WellFormed i = true → decode (encode i) = .ok i

/-- R81, R82, R83: every word that decodes is the encoding of the command it decodes to, which is well formed: each
legal word has one meaning. -/
def Obligations.DecodedWordIsItsEncoding : Prop :=
  ∀ (c : Word) (i : Instr), decode c = .ok i → encode i = c ∧ WellFormed i = true

/-- R86: exactly the words of the four kinds are illegal; the decoder is total. -/
def Obligations.IllegalWordsAreTheFourKinds : Prop :=
  ∀ c : Word, (∃ e, decode c = .error e) ↔
    (c.toNat / 4096 ≠ 0 ∨ 0x0E ≤ c.toNat % 256
      ∨ ((1 ≤ c.toNat % 256 ∧ c.toNat % 256 ≤ 7) ∧ 1 < c.toNat / 256 % 16)
      ∨ ((c.toNat % 256 = 0 ∨ (8 ≤ c.toNat % 256 ∧ c.toNat % 256 ≤ 0x0D)) ∧ c.toNat / 256 % 16 ≠ 0))

/-- R83: words written out from the table decode to the commands they stand for (bits as R81 lays them out), and UNIT 0
and 1 select unit 0 and 1. -/
def Obligations.WrittenWordsDecode : Prop :=
  decode 0x00000000#32 = .ok .nop ∧
  decode 0x00000001#32 = .ok (.oscConfig 0) ∧
  decode 0x00000103#32 = .ok (.oscProcess 1) ∧
  decode 0x00000104#32 = .ok (.smoothConfig 1) ∧
  decode 0x00000007#32 = .ok (.smoothSetcoef 0) ∧
  decode 0x00000008#32 = .ok .map ∧
  decode 0x0000000B#32 = .ok .outScale ∧
  decode 0x0000000D#32 = .ok .step ∧
  unitOf 0 = .k0 ∧ unitOf 1 = .k1

/-! ## Steps, the bus and the registers (20_memory.md, 10_state.md) -/

/-- R27, R82: when the next input writes a word to CMD, the block is not halted and the word decodes to a command,
the step stores the word in CMD and is that command's `exec`. -/
def Obligations.StepRunsTheDecodedCommand : Prop :=
  ∀ (s : State) (c : Word) (i : Instr) (rest : List Input),
    s.inputs = .busWrite 0x01C c :: rest → s.halted = false → decode c = .ok i →
    step s = exec i { s with inputs := rest, cmd := c }

/-- R82, R86, R202: an illegal word written to CMD while not halted is stored in CMD and takes ILLEGAL_CMD, recording
the UNIT field for a UNIT check and 0 for the other checks, whether or not RUN = 1. -/
def Obligations.IllegalWordTakesIllegalCmd : Prop :=
  ∀ (s : State) (c : Word) (rest : List Input),
    s.inputs = .busWrite 0x01C c :: rest → s.halted = false → (∃ e, decode c = .error e) →
    step s = .next { s with
      inputs := rest, cmd := c, faultInfo := c, halted := true
      faultCause := causeWord false ⟨.illegalCmd,
        if c.toNat / 4096 ≠ 0 ∨ 0x0E ≤ c.toNat % 256 then 0 else BitVec.ofNat 4 (c.toNat / 256)⟩ }

/-- R27, R47: while HALTED = 1 a write to CMD stores the word and has no other effect, whatever the word, and no
command runs: `exec` changes nothing. -/
def Obligations.HaltedCmdWriteOnlyStoresTheWord : Prop :=
  (∀ (s : State) (c : Word) (rest : List Input),
    s.inputs = .busWrite 0x01C c :: rest → s.halted = true →
    step s = .next { s with inputs := rest, cmd := c }) ∧
  (∀ (i : Instr) (s : State), s.halted = true → exec i s = .next s)

/-- R60, R201: no input faults or is refused by the model: every step of every state answers a next state. -/
def Obligations.EveryStepAnswersANextState : Prop :=
  ∀ s : State, ∃ t, step s = .next t

/-- R68: a bus read gives HOST the addressed word and changes nothing else. -/
def Obligations.BusReadHasNoSideEffect : Prop :=
  ∀ (s : State) (addr : BusAddr) (rest : List Input), s.inputs = .busRead addr :: rest →
    step s = .next { s with
      inputs := rest, responses := s.responses ++ [memRead Config.params addr s] }

/-- R61: address bits 1:0 are ignored by reads and by writes, commands included. -/
def Obligations.AddressLowBitsAreIgnored : Prop :=
  ∀ (p : Params) (addr : BusAddr) (v : Word) (s : State),
    memRead p addr s = memRead p (addr &&& 0xFFFC#16) s ∧
    memWrite p addr v s = memWrite p (addr &&& 0xFFFC#16) v s

/-- R22: ID, PARAMS0 and PARAMS1 read as the constants of the build, field by field and each in its range, and a write
to them is ignored. -/
def Obligations.IdentificationRegistersAreConstant : Prop :=
  ∀ (p : Params) (s : State),
    memRead p 0x000 s = 0x5754414D#32 ∧
    (memRead p 0x004 s).toNat % 2 ^ 11 = p.tableCapacity ∧
    (memRead p 0x004 s).toNat / 2 ^ 11 % 2 = (if p.negPhase = .fault then 1 else 0) ∧
    (memRead p 0x004 s).toNat / 2 ^ 12 % 2 ^ 4 = 0 ∧
    (memRead p 0x004 s).toNat / 2 ^ 16 % 2 ^ 8 = p.numChannels ∧
    (memRead p 0x004 s).toNat / 2 ^ 24 = 0 ∧
    (memRead p 0x008 s).toNat % 2 ^ 16 = p.blockSize ∧
    (memRead p 0x008 s).toNat / 2 ^ 16 = 0 ∧
    (1 ≤ p.tableCapacity ∧ p.tableCapacity ≤ 1024) ∧ (1 ≤ p.numChannels ∧ p.numChannels ≤ 255) ∧
    (1 ≤ p.blockSize ∧ p.blockSize ≤ 65535) ∧
    (∀ v, memWrite p 0x000 v s = .next s ∧ memWrite p 0x004 v s = .next s ∧ memWrite p 0x008 v s = .next s)

/-- R23: a CTRL write is ignored while HALTED = 1; otherwise RUN takes bit 0, FRAME_POS goes to 0 exactly when RUN
changes from 0 to 1, and nothing else changes; CTRL reads RUN in bit 0 and 0 above it. -/
def Obligations.CtrlWriteSetsRunAndRestartsTheFrame : Prop :=
  ∀ (p : Params) (s : State) (v : Word),
    (s.halted = true → memWrite p 0x00C v s = .next s) ∧
    (s.halted = false → memWrite p 0x00C v s = .next { s with
      run := v.getLsbD 0
      framePos := if s.run = false ∧ v.getLsbD 0 = true then 0 else s.framePos }) ∧
    (memRead p 0x00C s = if s.run = true then 1 else 0)

/-- R24: STATUS mirrors RUN, HALTED and PRESENCE in bits 0, 1 and 2, its other bits read 0, a write to it is ignored, and
it reads 0 after reset. -/
def Obligations.StatusMirrorsRunHaltedPresence : Prop :=
  ∀ (p : Params) (s : State),
    (memRead p 0x010 s).getLsbD 0 = s.run ∧
    (memRead p 0x010 s).getLsbD 1 = s.halted ∧
    (memRead p 0x010 s).getLsbD 2 = s.presence ∧
    (∀ n, 3 ≤ n → (memRead p 0x010 s).getLsbD n = false) ∧
    (∀ v, memWrite p 0x010 v s = .next s) ∧ memRead p 0x010 State.reset = 0

/-- R21, R29, R30, R31, R47, R68: a bus read at each offset of R21 gives that register's word (ID and the parameters:
IdentificationRegistersAreConstant; CTRL and STATUS: their own statements). A write at the offset of an ARG, TOUCH or
LEVEL_DB register stores the word in that register and changes nothing else, whether or not the block is halted or
running; and so at whatever address the register is reached. A write at the offset of an RO register changes nothing. -/
def Obligations.RegistersAreReachedAtTheirOffsets : Prop :=
  ∀ (p : Params) (s : State),
    (memRead p 0x014 s = s.faultCause ∧ memRead p 0x018 s = s.faultInfo ∧ memRead p 0x01C s = s.cmd ∧
      memRead p 0x020 s = s.result ∧ memRead p 0x024 s = s.arg0 ∧ memRead p 0x028 s = s.arg1 ∧
      memRead p 0x02C s = s.arg2 ∧ memRead p 0x030 s = s.arg3 ∧ memRead p 0x034 s = s.arg4) ∧
    (memRead p 0x040 s = s.touchSize ∧ memRead p 0x044 s = s.touchX ∧ memRead p 0x048 s = s.touchY ∧
      memRead p 0x04C s = s.levelDb) ∧
    (memRead p 0x050 s = s.target0 ∧ memRead p 0x054 s = s.target1 ∧ memRead p 0x058 s = s.gain ∧
      memRead p 0x05C s = s.intensity0 ∧ memRead p 0x060 s = s.intensity1 ∧ memRead p 0x064 s = s.lastOut ∧
      memRead p 0x068 s = s.framePos ∧ memRead p 0x06C s = s.sampleCount) ∧
    (memRead p 0x100 s = s.osc0.len ∧ memRead p 0x104 s = s.osc0.invSr ∧ memRead p 0x108 s = s.osc0.freq ∧
      memRead p 0x10C s = s.osc0.phase ∧ memRead p 0x110 s = if s.osc0.interp = true then 1 else 0) ∧
    (memRead p 0x120 s = s.osc1.len ∧ memRead p 0x124 s = s.osc1.invSr ∧ memRead p 0x128 s = s.osc1.freq ∧
      memRead p 0x12C s = s.osc1.phase ∧ memRead p 0x130 s = if s.osc1.interp = true then 1 else 0) ∧
    (memRead p 0x180 s = s.sm0.state ∧ memRead p 0x184 s = s.sm0.coef ∧
      memRead p 0x190 s = s.sm1.state ∧ memRead p 0x194 s = s.sm1.coef) ∧
    (∀ v, memWrite p 0x024 v s = .next { s with arg0 := v } ∧ memWrite p 0x028 v s = .next { s with arg1 := v } ∧
      memWrite p 0x02C v s = .next { s with arg2 := v } ∧ memWrite p 0x030 v s = .next { s with arg3 := v } ∧
      memWrite p 0x034 v s = .next { s with arg4 := v } ∧ memWrite p 0x040 v s = .next { s with touchSize := v } ∧
      memWrite p 0x044 v s = .next { s with touchX := v } ∧ memWrite p 0x048 v s = .next { s with touchY := v } ∧
      memWrite p 0x04C v s = .next { s with levelDb := v }) ∧
    (∀ v, ∀ a ∈ [0x000#16, 0x004, 0x008, 0x010, 0x014, 0x018, 0x020, 0x050, 0x054, 0x058, 0x05C, 0x060, 0x064, 0x068, 0x06C,
        0x100, 0x104, 0x108, 0x10C, 0x110, 0x120, 0x124, 0x128, 0x12C, 0x130, 0x180, 0x184, 0x190, 0x194],
      memWrite p a v s = .next s) ∧
    (∀ addr r v, placeOf p addr = .reg r → PlainRwReg r →
      ∃ t, memWrite p addr v s = .next t ∧ readReg p t r = v ∧
        (∀ r', r' ≠ r → readReg p t r' = readReg p s r') ∧
        (∀ a, tableByte t a = tableByte s a) ∧
        t.dacStream = s.dacStream ∧ t.scopeStream = s.scopeStream ∧ t.run = s.run ∧ t.halted = s.halted ∧
        t.inputs = s.inputs ∧ t.responses = s.responses)

/-- R62, R63, R64: a read of word i < OSCk_LEN of the active window gives ACT_k[i]; a read of an active
index at or beyond OSCk_LEN, of a staging index at or beyond TABLE_CAPACITY and of every other word outside the register
offsets and the windows gives 0; a write to any of these, or to an RO register, changes nothing. -/
def Obligations.ActiveWordsReadAndOtherAccessesAreAbsorbed : Prop :=
  ∀ (p : Params) (addr : BusAddr) (v : Word) (s : State),
    (∀ i, i < 1024 →
      (memRead p (BitVec.ofNat 16 (0x3000 + 4 * i)) s = if i < s.osc0.len.toNat then actWord s .k0 i else 0) ∧
      (memRead p (BitVec.ofNat 16 (0x4000 + 4 * i)) s = if i < s.osc1.len.toNat then actWord s .k1 i else 0) ∧
      memWrite p (BitVec.ofNat 16 (0x3000 + 4 * i)) v s = .next s ∧
      memWrite p (BitVec.ofNat 16 (0x4000 + 4 * i)) v s = .next s) ∧
    (∀ i, p.tableCapacity ≤ i → i < 1024 →
      memRead p (BitVec.ofNat 16 (0x1000 + 4 * i)) s = 0 ∧ memRead p (BitVec.ofNat 16 (0x2000 + 4 * i)) s = 0 ∧
      memWrite p (BitVec.ofNat 16 (0x1000 + 4 * i)) v s = .next s ∧
      memWrite p (BitVec.ofNat 16 (0x2000 + 4 * i)) v s = .next s) ∧
    ((0x038 ≤ addr.toNat ∧ addr.toNat < 0x040 ∨ 0x070 ≤ addr.toNat ∧ addr.toNat < 0x100 ∨
      0x114 ≤ addr.toNat ∧ addr.toNat < 0x120 ∨ 0x134 ≤ addr.toNat ∧ addr.toNat < 0x180 ∨
      0x188 ≤ addr.toNat ∧ addr.toNat < 0x190 ∨ 0x198 ≤ addr.toNat ∧ addr.toNat < 0x1000 ∨ 0x5000 ≤ addr.toNat) →
      memRead p addr s = 0 ∧ memWrite p addr v s = .next s) ∧
    (∀ k i, placeOf p addr = .act k i →
      ((s.osc k).len.toNat ≤ i → memRead p addr s = 0) ∧ memWrite p addr v s = .next s) ∧
    (placeOf p addr = .unmapped → memRead p addr s = 0 ∧ memWrite p addr v s = .next s) ∧
    (∀ r, placeOf p addr = .reg r → r ≠ .cmd → r ≠ .ctrl → ¬ PlainRwReg r →
      memWrite p addr v s = .next s)

/-- R62, R63: a write to word i < TABLE_CAPACITY of a staging window (0x1000 and 0x2000 + 4·i) is read back and is
STG_k[i], and every table byte outside its four bytes, and everything else of the state, is unchanged. -/
def Obligations.StagingWordIsStoredAndReadBack : Prop :=
  ∀ (p : Params) (k : UnitIx) (i : Nat) (v : Word) (s : State), i < p.tableCapacity →
    let a := (match k with | .k0 => 0x1000 | .k1 => 0x2000) + 4 * i
    ∃ t, memWrite p (BitVec.ofNat 16 a) v s = .next t ∧
      memRead p (BitVec.ofNat 16 a) t = v ∧ stgWord t k i = v ∧
      (∀ x, ¬ (a ≤ x ∧ x < a + 4) → tableByte t x = tableByte s x) ∧
      { t with mem := s.mem } = s

/-! ## Faults and reset (60_exceptions.md, 70_reset_and_hazards.md) -/

/-- R25, R200, R202: the cause codes 0x01 to 0x07, and the fields of FAULT_CAUSE: CODE 7:0, SRC_TICK 8, bits 11:9 zero,
UNIT 15:12, bits 31:16 zero. -/
def Obligations.FaultCauseFields : Prop :=
  (causeCode .illegalCmd = 0x01 ∧ causeCode .cmdWhileRun = 0x02 ∧ causeCode .badSampleRate = 0x03 ∧
    causeCode .badLength = 0x04 ∧ causeCode .mapDivZero = 0x05 ∧ causeCode .negPhase = 0x06 ∧
    causeCode .nonfinitePhase = 0x07) ∧
  ∀ (src : Bool) (f : BlockFault),
    (causeWord src f).toNat % 256 = causeCode f.cause ∧
    (causeWord src f).toNat / 256 % 2 = (if src = true then 1 else 0) ∧
    (causeWord src f).toNat / 512 % 8 = 0 ∧
    (causeWord src f).toNat / 4096 % 16 = f.unit.toNat ∧
    (causeWord src f).toNat / 65536 = 0

/-- R202: faults are precise. A command that leaves a running block halted, or a tick that does, changes nothing but
FAULT_CAUSE, FAULT_INFO and HALTED; FAULT_INFO is the command word, or 0x0000000D for a tick. -/
def Obligations.FaultsArePrecise : Prop :=
  (∀ (i : Instr) (s t : State), exec i s = .next t → s.halted = false → t.halted = true →
    ∃ f, t = { s with faultCause := causeWord false f, faultInfo := encode i, halted := true }) ∧
  (∀ (p : Params) (s : State), s.halted = false → (dacTick p s).halted = true →
    ∃ f, dacTick p s = { s with faultCause := causeWord true f, faultInfo := 0x0000000D#32, halted := true })

/-- R82, R200, R243: the checks of a command that is not halted, in their order: a UNIT above 1 takes ILLEGAL_CMD with
that UNIT, whether or not RUN = 1; then, while RUN = 1, a command outside RUN_SAFE_OPS takes CMD_WHILE_RUN with its UNIT
field. Neither has another effect. -/
def Obligations.CommandChecksFaultInOrder : Prop :=
  ∀ (i : Instr) (s : State), s.halted = false →
    (WellFormed i = false →
      exec i s = .next { s with
        faultCause := causeWord false ⟨.illegalCmd, i.unitField⟩, faultInfo := encode i, halted := true }) ∧
    (WellFormed i = true → s.run = true → i ∉ [Instr.nop, .map, .am, .gainDb, .outScale] →
      exec i s = .next { s with
        faultCause := causeWord false ⟨.cmdWhileRun, i.unitField⟩, faultInfo := encode i, halted := true })

/-- R47, R203, R208: from a halted state only a reset input clears HALTED; every other step keeps HALTED, the fault
records, CTRL.RUN, the streams and every oscillator, filter and engine register. -/
def Obligations.HaltedIsStickyUntilReset : Prop :=
  ∀ s t : State, s.halted = true → step s = .next t → (∀ rest, s.inputs ≠ .reset :: rest) →
    t.halted = true ∧ t.faultCause = s.faultCause ∧ t.faultInfo = s.faultInfo ∧ t.run = s.run ∧
    t.result = s.result ∧ t.dacStream = s.dacStream ∧ t.scopeStream = s.scopeStream ∧
    t.osc0 = s.osc0 ∧ t.osc1 = s.osc1 ∧ t.sm0 = s.sm0 ∧ t.sm1 = s.sm1 ∧
    t.target0 = s.target0 ∧ t.target1 = s.target1 ∧ t.gain = s.gain ∧
    t.intensity0 = s.intensity0 ∧ t.intensity1 = s.intensity1 ∧ t.lastOut = s.lastOut ∧
    t.framePos = s.framePos ∧ t.sampleCount = s.sampleCount ∧ t.presence = s.presence ∧
    (∀ a, 0x3000 ≤ a → tableByte t a = tableByte s a)

/-- R230: a reset input clears HALTED, the fault records and CTRL, empties the streams and gives every register its
reset value, from every state. What it keeps of the environment's schedule and answers is the model's own
(notes/assumptions/12). -/
def Obligations.ResetInputRestoresTheResetState : Prop :=
  ∀ (p : Params) (s : State) (rest : List Input), s.inputs = .reset :: rest →
    ∃ t, step s = .next t ∧ t.halted = false ∧ t.run = false ∧ t.dacStream = [] ∧ t.scopeStream = [] ∧
      (∀ r, readReg p t r = readReg p State.reset r) ∧ t.mem = [] ∧ t.inputs = rest

/-- R51: after reset ID, PARAMS0 and PARAMS1 read their constants (R22) and every other register reads 0; PRESENCE,
HALTED and the level ports are 0; the streams are empty. The clause on the table bytes is the model's form of
"unspecified" (notes/assumptions/4): each byte reads as the free value of epoch 0. -/
def Obligations.ResetValues : Prop :=
  (∀ (p : Params) (r : Reg), readReg p State.reset r = match r with
    | .id => 0x5754414D#32
    | .params0 => params0Word p
    | .params1 => params1Word p
    | _ => 0) ∧
  State.reset.presence = false ∧ State.reset.halted = false ∧
  State.reset.dacStream = [] ∧ State.reset.scopeStream = [] ∧
  (∀ a, tableByte State.reset a = Config.freeByte 0 a) ∧
  presenceO State.reset = false ∧ (∀ a, intensityO State.reset a = 0) ∧ faultO State.reset = false

/-! ## Oscillator (40_oscillator.md) -/

/-- R100: OSC_CONFIG with a sample rate > 0 and a length within TABLE_CAPACITY completes: the inverse rate, length,
flag and phase are written, OSCk_FREQ is kept, word i of the active table takes word i of the staging table, every
table byte outside the copied words is unchanged, and nothing else changes. The inverse rate is the pseudocode's 1.0 / sr,
of a subnormal rate too (the model's choice, notes/assumptions/21). -/
def Obligations.OscConfigCompletes : Prop :=
  ∀ (u : UnitField) (s : State), MayRun (.oscConfig u) s →
    Binary32.gt s.arg0 0x00000000#32 = true → s.arg1.toNat ≤ Config.params.tableCapacity →
    ∃ t, exec (.oscConfig u) s = .next t ∧
      t.osc (unitOf u) = ⟨s.arg1, Binary32.div 0x3F800000#32 s.arg0, (s.osc (unitOf u)).freq, 0x00000000#32, s.arg2.getLsbD 0⟩ ∧
      (∀ i, i < s.arg1.toNat → actWord t (unitOf u) i = stgWord s (unitOf u) i) ∧
      (∀ a, ¬ (actBase (unitOf u) ≤ a ∧ a < actBase (unitOf u) + 4 * s.arg1.toNat) → tableByte t a = tableByte s a) ∧
      { t with mem := s.mem } = s.setOsc (unitOf u) (t.osc (unitOf u))

/-- R100, R204: OSC_CONFIG takes BAD_SAMPLE_RATE when ARG0 is not > 0 (zeros, negative values and NaN among them), and
otherwise BAD_LENGTH when ARG1 exceeds TABLE_CAPACITY. -/
def Obligations.OscConfigFaultsInOrder : Prop :=
  ∀ (u : UnitField) (s : State), MayRun (.oscConfig u) s →
    (Binary32.gt s.arg0 0x00000000#32 = false →
      exec (.oscConfig u) s = .next { s with
        faultCause := causeWord false ⟨.badSampleRate, u⟩, faultInfo := encode (.oscConfig u), halted := true }) ∧
    (Binary32.gt s.arg0 0x00000000#32 = true → Config.params.tableCapacity < s.arg1.toNat →
      exec (.oscConfig u) s = .next { s with
        faultCause := causeWord false ⟨.badLength, u⟩, faultInfo := encode (.oscConfig u), halted := true })

/-- R101: OSC_SETFREQ, word 0x00000002 or 0x00000102, stores ARG0 in OSCk_FREQ, whatever the value, and writes nothing
else. -/
def Obligations.OscSetfreqStoresTheFrequency : Prop :=
  decode 0x00000002#32 = .ok (.oscSetfreq 0) ∧ decode 0x00000102#32 = .ok (.oscSetfreq 1) ∧
  ∀ (u : UnitField) (s : State), MayRun (.oscSetfreq u) s →
    exec (.oscSetfreq u) s = .next (s.setOsc (unitOf u) { s.osc (unitOf u) with freq := s.arg0 })

/-- R102: OSC_PROCESS on an empty table returns +0.0 whatever the frequency, and writes only RESULT. -/
def Obligations.OscProcessOfAnEmptyTableIsSilent : Prop :=
  ∀ (u : UnitField) (s : State), MayRun (.oscProcess u) s → (s.osc (unitOf u)).len = 0 →
    exec (.oscProcess u) s = .next { s with result := 0x00000000#32 }

/-- R102, R103, R104: OSC_PROCESS on a table of n ≥ 1 words, with an accumulated phase
p = PHASE + (f32(n) * FREQ) * INVSR that is finite and, under the FAULT policy, not negative, writes the normalised
phase q and the sample: ACT_k[i0] for i0 = floor(q), or with INTERP = 1 ((1 - frac)·x) + (frac·y), x and y the entries
i0 and (i0 + 1) mod n and frac = q - i0; and nothing else. (For a -0.0 entry at an integer phase the expression is the
model's choice over R104's corner case, notes/assumptions/22.) -/
def Obligations.OscProcessAdvancesThePhaseAndReads : Prop :=
  ∀ (u : UnitField) (s : State), MayRun (.oscProcess u) s →
    let o := s.osc (unitOf u)
    let n := o.len.toNat
    let p := Binary32.add o.phase (Binary32.mul (Binary32.mul (Binary32.ofNat n) o.freq) o.invSr)
    n ≠ 0 → Binary32.isFinite p = true →
    (Binary32.lt p 0x00000000#32 = false ∨ Config.params.negPhase = .wrap) →
    let q := normalizePhase p n
    let i0 := (Binary32.toUnits q / (2 ^ 149 : Int)).toNat
    let frac := Binary32.sub q (Binary32.ofNat i0)
    let x := actWord s (unitOf u) i0
    let y := actWord s (unitOf u) ((i0 + 1) % n)
    exec (.oscProcess u) s = .next { s.setOsc (unitOf u) { o with phase := q } with
      result := if o.interp = true then
          Binary32.add (Binary32.mul (Binary32.sub 0x3F800000#32 frac) x) (Binary32.mul frac y)
        else x }

/-- R102, R204: OSC_PROCESS on a non-empty table takes NONFINITE_PHASE when the accumulated phase is NaN or infinite,
and otherwise NEG_PHASE when it is negative under the FAULT policy; under WRAP a finite phase never faults. The command
records that fault and has no other effect. -/
def Obligations.OscProcessFaultsInOrder : Prop :=
  ∀ (p : Params) (k : UnitIx) (s : State), (s.osc k).len.toNat ≠ 0 →
    let o := s.osc k
    let acc := Binary32.add o.phase (Binary32.mul (Binary32.mul (Binary32.ofNat o.len.toNat) o.freq) o.invSr)
    (Binary32.isFinite acc = false → oscProcess p k s = .error ⟨.nonfinitePhase, unitNumber k⟩) ∧
    (Binary32.isFinite acc = true → Binary32.lt acc 0x00000000#32 = true → p.negPhase = .fault →
      oscProcess p k s = .error ⟨.negPhase, unitNumber k⟩) ∧
    (Binary32.isFinite acc = true → p.negPhase = .wrap → ∃ v t, oscProcess p k s = .ok (v, t)) ∧
    (∀ u f, MayRun (.oscProcess u) s → unitOf u = k → oscProcess Config.params k s = .error f →
      exec (.oscProcess u) s = .next { s with
        faultCause := causeWord false f, faultInfo := encode (.oscProcess u), halted := true })

/-- R103: the normalised phase of a finite p and a table of N = 1 to 1024 words lies in [0, N). A p already there is
returned; else, with r the exact remainder of p by N in [0, N), it is w = rnd(r), ties to even, or +0.0 where w = N; and
for p ≥ N it is r itself. (That the last holds of binary32, R103 marks as derived and from general knowledge.) -/
def Obligations.NormalizedPhaseIsTheRoundedRemainder : Prop :=
  ∀ (p : F32) (n : Nat), Binary32.isFinite p = true → 1 ≤ n → n ≤ 1024 →
    let q := normalizePhase p n
    let N : Int := ((n * 2 ^ 149 : Nat) : Int)
    let r := Binary32.toUnits p % N
    (Binary32.isFinite q = true ∧ Binary32.le 0x00000000#32 q = true ∧ Binary32.lt q (Binary32.ofNat n) = true) ∧
    (Binary32.le 0x00000000#32 p = true → Binary32.lt p (Binary32.ofNat n) = true → q = p) ∧
    (Binary32.le (Binary32.ofNat n) p = true → Binary32.toUnits q = r) ∧
    (Binary32.lt p 0x00000000#32 = true ∨ Binary32.le (Binary32.ofNat n) p = true →
      ∃ w, Rounded w r 1 ∧ Binary32.neg? w = false ∧
        q = if Binary32.toUnits w = N then 0x00000000#32 else w)

/-- R104: the lookup index lies in the table, and the fraction p - f32(floor(p)) is exact and in [0, 1). -/
def Obligations.LookupIndexInRangeAndFractionExact : Prop :=
  ∀ (p : F32) (n : Nat), Binary32.isFinite p = true → Binary32.le 0x00000000#32 p = true →
    Binary32.lt p (Binary32.ofNat n) = true → n ≤ 1024 →
    let i0 := (Binary32.floorInt p).toNat
    i0 < n ∧
    Binary32.toUnits (Binary32.sub p (Binary32.ofNat i0)) = Binary32.toUnits p - ((i0 * 2 ^ 149 : Nat) : Int) ∧
    0 ≤ Binary32.toUnits (Binary32.sub p (Binary32.ofNat i0)) ∧
    Binary32.toUnits (Binary32.sub p (Binary32.ofNat i0)) < ((2 ^ 149 : Nat) : Int)

/-- R104, R105 (c): at an integer phase i < n the lookup returns ACT_k[i]: always with INTERP = 0, and with INTERP = 1
when ACT_k[i] is no NaN and not -0.0 and the next entry is finite. -/
def Obligations.IntegerPhaseReturnsTheTableWord : Prop :=
  ∀ (s : State) (k : UnitIx) (i n : Nat), i < n → n ≤ 1024 →
    ((s.osc k).interp = false → tableLookup s k (Binary32.ofNat i) n = actWord s k i) ∧
    ((s.osc k).interp = true → Binary32.isNaN (actWord s k i) = false → actWord s k i ≠ 0x80000000#32 →
      Binary32.isFinite (actWord s k ((i + 1) % n)) = true →
      tableLookup s k (Binary32.ofNat i) n = actWord s k i)

/-- R103, R104, R105, in the idealised reading of R12 (notes/assumptions/18): for a table of n ≥ 1 words the normalised phase
lies in [0, n) and differs from p by a whole number of tables, for p ≥ 0 by as many as the source's loop subtracts; m
calls, each of the same increment, leave the phase of one call with m increments; the interpolated sample lies
between the two entries; and for p ≥ 0 the binary32 phase is the idealised one, with no rounding. -/
def Obligations.IdealOscillatorReadsItsTable : Prop :=
  (∀ (p : ℝ) (n : Nat), 1 ≤ n →
    0 ≤ Ideal.normalize p n ∧ Ideal.normalize p n < n ∧
    (∃ j : ℤ, p = Ideal.normalize p n + j * n) ∧
    (0 ≤ p → ∃ m : Nat, Ideal.normalize p n = (fun x : ℝ => if (n : ℝ) ≤ x then x - n else x)^[m] p)) ∧
  (∀ (x inc : ℝ) (n m : Nat), 1 ≤ n → 0 ≤ x → x < n →
    (fun y => Ideal.normalize (y + inc) n)^[m] x = Ideal.normalize (x + m * inc) n) ∧
  (∀ (o : Ideal.Osc ℝ) (p : ℝ), o.interp = true → 0 ≤ p → p < o.table.length →
    let i := ⌊p⌋.toNat
    let x := o.table.getD i 0
    let y := o.table.getD ((i + 1) % o.table.length) 0
    Ideal.lookup o p = (1 - (p - i)) * x + (p - i) * y ∧
    min x y ≤ Ideal.lookup o p ∧ Ideal.lookup o p ≤ max x y) ∧
  (∀ (p : F32) (n : Nat), Binary32.isFinite p = true → Binary32.le 0x00000000#32 p = true → 1 ≤ n → n ≤ 1024 →
    Ideal.value ℝ (normalizePhase p n) = Ideal.normalize (Ideal.value ℝ p) n)

/-! ## Smoothing filter (41_smoothing.md) -/

/-- R120: SMOOTH_CONFIG, word 0x00000004 or 0x00000104, with a sample rate > 0 writes SMa_COEF = 1 - EXP(-((2π·fc)/sr))
and nothing else; otherwise it takes BAD_SAMPLE_RATE. (EXP has R16's properties and no more, the model's choice where R120's
corner cases say more, notes/assumptions/24.) -/
def Obligations.SmoothConfigWritesTheCoefficientOrFaults : Prop :=
  decode 0x00000004#32 = .ok (.smoothConfig 0) ∧ decode 0x00000104#32 = .ok (.smoothConfig 1) ∧
  ∀ (u : UnitField) (s : State), MayRun (.smoothConfig u) s →
    (Binary32.gt s.arg1 0x00000000#32 = true →
      exec (.smoothConfig u) s = .next (s.setSm (unitOf u)
        ⟨(s.sm (unitOf u)).state, Binary32.sub 0x3F800000#32
          (expFn Config.params (Binary32.negate (Binary32.div (Binary32.mul 0x40C90FDB#32 s.arg0) s.arg1)))⟩)) ∧
    (Binary32.gt s.arg1 0x00000000#32 = false →
      exec (.smoothConfig u) s = .next { s with
        faultCause := causeWord false ⟨.badSampleRate, u⟩, faultInfo := encode (.smoothConfig u), halted := true })

/-- R120 with R16 (P1): a cutoff of ±0 gives the coefficient +0.0 exactly, for every sample rate > 0 and every EXP. -/
def Obligations.ZeroCutoffGivesCoefficientZero : Prop :=
  ∀ (p : Params) (fc sr : F32), Binary32.isZero fc = true → Binary32.gt sr 0x00000000#32 = true →
    smoothCoefficient p fc sr = 0x00000000#32

/-- R121: SMOOTH_PROCESS, word 0x00000005 or 0x00000105, computes state + coef·(x - state), each operation rounded,
writes it to SMa_STATE and to RESULT, and writes nothing else, for every operand. (The expression is the model's
choice where R121's corner cases differ from it, notes/assumptions/23.) -/
def Obligations.SmoothProcessUpdatesStateAndResult : Prop :=
  decode 0x00000005#32 = .ok (.smoothProcess 0) ∧ decode 0x00000105#32 = .ok (.smoothProcess 1) ∧
  ∀ (u : UnitField) (s : State), MayRun (.smoothProcess u) s →
    let f := s.sm (unitOf u)
    let y := Binary32.add f.state (Binary32.mul f.coef (Binary32.sub s.arg0 f.state))
    exec (.smoothProcess u) s = .next { s.setSm (unitOf u) ⟨y, f.coef⟩ with result := y }

/-- R122, R123: SMOOTH_SETSTATE, word 0x00000006 or 0x00000106, stores ARG0 in SMa_STATE and SMOOTH_SETCOEF, word
0x00000007 or 0x00000107, stores it in SMa_COEF, unchanged, and neither writes anything else. -/
def Obligations.SmoothLoadsStoreTheOperand : Prop :=
  (decode 0x00000006#32 = .ok (.smoothSetstate 0) ∧ decode 0x00000106#32 = .ok (.smoothSetstate 1) ∧
    decode 0x00000007#32 = .ok (.smoothSetcoef 0) ∧ decode 0x00000107#32 = .ok (.smoothSetcoef 1)) ∧
  ∀ (u : UnitField) (s : State),
    (MayRun (.smoothSetstate u) s →
      exec (.smoothSetstate u) s = .next (s.setSm (unitOf u) ⟨s.arg0, (s.sm (unitOf u)).coef⟩)) ∧
    (MayRun (.smoothSetcoef u) s →
      exec (.smoothSetcoef u) s = .next (s.setSm (unitOf u) ⟨(s.sm (unitOf u)).state, s.arg0⟩))

/-- R124, which the spec derives from R121: in the idealised reading of R12 (exact real arithmetic; the model's form of it is
notes/assumptions/18), for 0 < c ≤ 1 and s0 ≠ x, after m calls with input x the state is
x + (1 - c)^m·(s0 - x); the distance to x strictly decreases for c < 1 and is 0 after one call for c = 1; the state
never crosses x; and it converges to x. In binary32 none of the three is guaranteed: a filter with c = 2^-30 holds its
state 1 under the input 2, and one with c = 1 and state 1 steps to +0.0, past the input 0x322BCC77. -/
def Obligations.IdealSmoothingApproachesTheInput : Prop :=
  (∀ c x s0 : ℝ, 0 < c → c ≤ 1 → s0 ≠ x →
    let state := fun m : Nat => (fun s => smoothNext (exact ℝ) c s x)^[m] s0
    (∀ m, state m = x + (1 - c) ^ m * (s0 - x)) ∧
    (c < 1 → ∀ m, |state (m + 1) - x| < |state m - x|) ∧
    (c = 1 → state 1 = x) ∧
    (∀ m, 0 ≤ (state m - x) * (s0 - x)) ∧
    (∀ ε, 0 < ε → ∃ m0, ∀ m, m0 ≤ m → |state m - x| < ε)) ∧
  smoothOutput ⟨0x3F800000#32, 0x30800000#32⟩ 0x40000000#32 = 0x3F800000#32 ∧
  smoothOutput ⟨0x3F800000#32, 0x3F800000#32⟩ 0x322BCC77#32 = 0x00000000#32

/-! ## Range mapper (42_range_mapper.md) -/

/-- R140: MAP, word 0x00000008, with inMin ≠ inMax computes outMin + (((v - inMin)·(outMax - outMin)) / (inMax - inMin)),
each operation rounded, into RESULT, and writes nothing else; with inMin == inMax (+0 and -0 being equal, a NaN never) it takes
MAP_DIV_ZERO; whether or not RUN = 1. -/
def Obligations.MapComputesTheLinearMapOrFaults : Prop :=
  decode 0x00000008#32 = .ok .map ∧
  ∀ s : State, s.halted = false →
    (Binary32.eq s.arg1 s.arg2 = false →
      exec .map s = .next { s with
        result := Binary32.add s.arg3 (Binary32.div
          (Binary32.mul (Binary32.sub s.arg0 s.arg1) (Binary32.sub s.arg4 s.arg3)) (Binary32.sub s.arg2 s.arg1)) }) ∧
    (Binary32.eq s.arg1 s.arg2 = true →
      exec .map s = .next { s with
        faultCause := 0x00000005#32, faultInfo := 0x00000008#32, halted := true })

/-- R141, which the spec derives from R140 and R9: the engine's fixed ranges. The frequency is 55.0 + (s·825.0) and the
intensity 0.3 + (s·0.7), rounded twice, for every control value; the intensity is exactly 1.0 at s = 1 and 0.3 at s = 0; 825.0 is 880.0 - 55.0 and 0.7 is
1.0 - 0.3; s - 0.0 is s for every s that is no NaN (a NaN comes back as the canonical one, R10);
and the bounds 0 and 1 are not equal, so neither call can fault. -/
def Obligations.FixedRangesOfTheEngine : Prop :=
  (controlIntensity 0x3F800000#32 = 0x3F800000#32 ∧ controlIntensity 0x00000000#32 = 0x3E99999A#32 ∧
    Binary32.sub 0x445C0000#32 0x425C0000#32 = 0x444E4000#32 ∧ Binary32.sub 0x3F800000#32 0x3E99999A#32 = 0x3F333333#32 ∧
    Binary32.eq 0x00000000#32 0x3F800000#32 = false) ∧
  ∀ v : F32, (Binary32.isNaN v = false → Binary32.sub v 0x00000000#32 = v) ∧
    controlFrequency v = Binary32.add 0x425C0000#32 (Binary32.mul v 0x444E4000#32) ∧
    controlIntensity v = Binary32.add 0x3E99999A#32 (Binary32.mul v 0x3F333333#32)

/-- R142, in the idealised reading of R12 (notes/assumptions/18): the map sends inMin to outMin, inMax to outMax
and the middle to the middle, and it is the straight line through them. -/
def Obligations.IdealMapIsTheLineThroughItsBounds : Prop :=
  ∀ a b c d : ℝ, a ≠ b →
    mapValue (exact ℝ) a a b c d = c ∧ mapValue (exact ℝ) b a b c d = d ∧
    mapValue (exact ℝ) ((a + b) / 2) a b c d = (c + d) / 2 ∧
    (∀ v w, mapValue (exact ℝ) v a b c d - mapValue (exact ℝ) w a b c d = (v - w) * ((d - c) / (b - a)))

/-! ## Amplitude modulation, gain, output scaling (43_am_gain_output.md) -/

/-- R150, R151, R152: AM, word 0x00000009, writes RESULT = carrier·((modulator·0.5) + 0.5); GAIN_DB, word 0x0000000A,
writes RESULT = POW10(dB / 20) and not GAIN; OUT_SCALE, word 0x0000000B, writes RESULT = (am·gain)·0.5; each operation is
rounded, and none writes anything else, whether or not RUN = 1. (POW10 has R16's properties and no more, and every
operation rounds: the model's choice where a corner case differs, notes/assumptions/24 and 25.) -/
def Obligations.AmGainDbAndOutScaleWriteResult : Prop :=
  (decode 0x00000009#32 = .ok .am ∧ decode 0x0000000A#32 = .ok .gainDb ∧ decode 0x0000000B#32 = .ok .outScale) ∧
  ∀ s : State, s.halted = false →
    exec .am s = .next { s with
      result := Binary32.mul s.arg0 (Binary32.add (Binary32.mul s.arg1 0x3F000000#32) 0x3F000000#32) } ∧
    exec .gainDb s = .next { s with result := pow10Fn Config.params (Binary32.div s.arg0 0x41A00000#32) } ∧
    exec .outScale s = .next { s with
      result := Binary32.mul (Binary32.mul s.arg0 s.arg1) 0x3F000000#32 }

/-- R151 with R16 (P2, P3, P4): the gain of ±0, 20, 40 and 60 dB is exactly 1, 10, 100 and 1000, and of a NaN the
canonical NaN, for every POW10. -/
def Obligations.GainOfTheExactDecibels : Prop :=
  ∀ p : Params,
    gainFn p 0x00000000#32 = 0x3F800000#32 ∧ gainFn p 0x80000000#32 = 0x3F800000#32 ∧
    gainFn p 0x41A00000#32 = 0x41200000#32 ∧ gainFn p 0x42200000#32 = 0x42C80000#32 ∧
    gainFn p 0x42700000#32 = 0x447A0000#32 ∧
    (∀ db, Binary32.isNaN db = true → gainFn p db = 0x7FC00000#32)

/-- R153: at a modulator output of 1 the AM output is the carrier sample, and at -1 it is a zero of the carrier's
sign, for every carrier sample that is finite (for 1: that is no NaN). -/
def Obligations.AmAtPeakAndTrough : Prop :=
  ∀ c : F32,
    (Binary32.isNaN c = false → amFn c 0x3F800000#32 = c) ∧
    (Binary32.isFinite c = true → amFn c 0xBF800000#32 = Binary32.withSign (Binary32.neg? c) 0)

/-! ## Engine (44_engine_stream.md) -/

/-- R170: NOP, word 0x00000000, changes nothing but the CMD register its write has stored, whether or not RUN = 1; a
NOP word with a UNIT or a reserved bit set is illegal. -/
def Obligations.NopChangesNothing : Prop :=
  decode 0x00000000#32 = .ok .nop ∧
  (∀ c : Word, c.toNat % 256 = 0 → c ≠ 0 → ∃ e, decode c = .error e) ∧
  ∀ s : State, s.halted = false →
    exec .nop s = .next s ∧ memWrite Config.params 0x01C 0x00000000#32 s = .next { s with cmd := 0x00000000#32 }

/-- R171, R180, R151: FRAME, word 0x0000000C, takes the touch location into the targets exactly when TOUCH_SIZE > τ and else
holds them, sets PRESENCE to that comparison, computes GAIN from LEVEL_DB, and changes nothing else.
(POW10 has R16's properties and no more, the model's choice where R151's corner cases say more, notes/assumptions/24.) -/
def Obligations.FrameGatesTheTouch : Prop :=
  decode 0x0000000C#32 = .ok .frame ∧
  ∀ s : State, MayRun .frame s →
    exec .frame s = .next { s with
      target0 := if Binary32.gt s.touchSize 0x3D4CCCCD#32 = true then s.touchX else s.target0
      target1 := if Binary32.gt s.touchSize 0x3D4CCCCD#32 = true then s.touchY else s.target1
      presence := Binary32.gt s.touchSize 0x3D4CCCCD#32
      gain := pow10Fn Config.params (Binary32.div s.levelDb 0x41A00000#32) }

/-- R172, R181, R182: STEP while stopped, with both oscillators ready, completes one stream step. The effect's filter
states and samples are R121's and R104's expressions for every operand: where a corner case of those rules differs from
its expression, what is stated is the model's choice (filter: notes/assumptions/23; -0.0 entry: notes/assumptions/22);
so are POW10's properties (24) and the rounding of the output (25). -/
def Obligations.StepCommandCompletesAStreamStep : Prop :=
  ∀ s : State, MayRun .step s → StreamReady Config.params s →
    ∃ t, exec .step s = .next t ∧ StreamStepEffect Config.params s t

/-- R181, R182: a tick while RUN = 1 and HALTED = 0, with both oscillators ready, completes one stream step. The
effect's filter states and samples are R121's and R104's expressions for every operand: where a corner case of those
rules differs from its expression, what is stated is the model's choice (filter: notes/assumptions/23; -0.0 entry:
notes/assumptions/22); so are POW10's properties (24) and the rounding of the output (25). -/
def Obligations.TickCompletesAStreamStep : Prop :=
  ∀ (s : State) (rest : List Input), s.inputs = .tick :: rest → s.run = true → s.halted = false →
    StreamReady Config.params s →
    ∃ t, step s = .next t ∧ StreamStepEffect Config.params { s with inputs := rest } t

/-- R182, R201: a tick while RUN = 0 or HALTED = 1 is dropped: no state changes, nothing is emitted. -/
def Obligations.TickIsDroppedWhenStoppedOrHalted : Prop :=
  ∀ (s : State) (rest : List Input), s.inputs = .tick :: rest → (s.run = false ∨ s.halted = true) →
    step s = .next { s with inputs := rest }

/-- R202, R205: in a stream step oscillator 0's checks come before oscillator 1's; the first fault is taken, by STEP
and by the tick, and nothing of the step is committed. -/
def Obligations.StreamStepFaultOrder : Prop :=
  ∀ (s : State) (f : BlockFault),
    let a := axesStep (frameGate Config.params s)
    (oscProcess Config.params .k0 a = .error f ∨
      (OscReady Config.params (a.osc .k0) ∧ oscProcess Config.params .k1 a = .error f)) →
    (MayRun .step s → exec .step s = .next { s with
      faultCause := causeWord false f, faultInfo := 0x0000000D#32, halted := true }) ∧
    (s.run = true → s.halted = false → dacTick Config.params s = { s with
      faultCause := causeWord true f, faultInfo := 0x0000000D#32, halted := true })

/-- R172: STEP does what a DAC tick would do while running, apart from CTRL.RUN and, on a fault, SRC_TICK. -/
def Obligations.StepCommandAgreesWithTheTick : Prop :=
  ∀ s : State, MayRun .step s →
    ∃ t, exec .step s = .next t ∧
      dacTick Config.params { s with run := true } =
        { t with run := true, faultCause := if t.halted = true then t.faultCause ||| 0x100#32 else t.faultCause }

/-! ## Whole-machine rules -/

/-- The state right after reset meets the invariant, for every build. -/
def Obligations.ResetMeetsTheInvariant : Prop := ∀ p : Params, Inv p State.reset

/-- R36, R37, R38, R41, R77, R202: every step from a state that meets the invariant gives a state that meets it: the
table memories stay canonical and inside the tables, lengths and FRAME_POS stay bounded, 0 ≤ PHASE < LEN, the two
streams stay paired, SAMPLE_COUNT counts them, and a halted block holds the record of its fault. -/
def Obligations.EveryStepKeepsTheInvariant : Prop :=
  ∀ s t : State, Inv Config.params s → step s = .next t → Inv Config.params t

/-- R29, R30, R31, R74: the block never writes the operand and control-input registers: no command and no tick
changes ARG0 to ARG4, TOUCH_SIZE, TOUCH_X, TOUCH_Y or LEVEL_DB. -/
def Obligations.TheBlockNeverWritesItsInputs : Prop :=
  ∀ (s t : State), ((∃ i, exec i s = .next t) ∨ ∃ p, t = dacTick p s) →
    t.arg0 = s.arg0 ∧ t.arg1 = s.arg1 ∧ t.arg2 = s.arg2 ∧ t.arg3 = s.arg3 ∧ t.arg4 = s.arg4 ∧
    t.touchSize = s.touchSize ∧ t.touchX = s.touchX ∧ t.touchY = s.touchY ∧ t.levelDb = s.levelDb

/-- R28: no command but OSC_PROCESS, SMOOTH_PROCESS, MAP, AM, GAIN_DB and OUT_SCALE when they do not fault, and no tick,
writes RESULT: every other command, every faulting command and every tick leaves it unchanged. -/
def Obligations.ResultIsWrittenOnlyByValueCommands : Prop :=
  (∀ (i : Instr) (s t : State), exec i s = .next t →
    (t.halted = true ∨ ((∀ u, i ≠ .oscProcess u) ∧ (∀ u, i ≠ .smoothProcess u) ∧
      i ∉ [Instr.map, .am, .gainDb, .outScale])) → t.result = s.result) ∧
  (∀ (p : Params) (s : State), (dacTick p s).result = s.result)

/-- R38, R39, R42, R46: no command but OSC_CONFIG, and no tick, writes OSCk_LEN, OSCk_INVSR, OSCk_FLAGS or a byte of the
table memories. (HOST writes the staging tables over the bus: StagingWordIsStoredAndReadBack.) -/
def Obligations.NoCommandButOscConfigAndNoTickWritesTheTables : Prop :=
  ∀ (s t : State), ((∃ i, (∀ u, i ≠ .oscConfig u) ∧ exec i s = .next t) ∨ ∃ p, t = dacTick p s) →
    (∀ k, (t.osc k).len = (s.osc k).len ∧ (t.osc k).invSr = (s.osc k).invSr ∧ (t.osc k).interp = (s.osc k).interp) ∧
    (∀ a, tableByte t a = tableByte s a)

/-- R23, R32 to R37, R48, R50, R74, R171, R181, R182: no command but FRAME and STEP writes TARGETa, GAIN or PRESENCE, and
no command but STEP writes INTENSITYa, LAST_OUT, FRAME_POS, SAMPLE_COUNT or a stream. And in a step whose input is no reset,
no tick taken while running, and no CMD write of FRAME or STEP, none of these changes, but for FRAME_POS, which a CTRL
write that turns RUN from 0 to 1 sets to 0 and nothing else changes. -/
def Obligations.EngineRegistersAreWrittenOnlyByTheEngine : Prop :=
  (∀ (i : Instr) (s t : State), exec i s = .next t → i ≠ .step →
    (t.intensity0 = s.intensity0 ∧ t.intensity1 = s.intensity1 ∧ t.lastOut = s.lastOut ∧
      t.framePos = s.framePos ∧ t.sampleCount = s.sampleCount ∧
      t.dacStream = s.dacStream ∧ t.scopeStream = s.scopeStream) ∧
    (i ≠ .frame → t.target0 = s.target0 ∧ t.target1 = s.target1 ∧ t.gain = s.gain ∧ t.presence = s.presence)) ∧
  (∀ s t : State, step s = .next t →
    (∀ rest, s.inputs ≠ .reset :: rest) →
    (∀ rest, s.inputs = .tick :: rest → s.run = false ∨ s.halted = true) →
    (∀ a c rest, s.inputs = .busWrite a c :: rest → a &&& 0xFFFC#16 = 0x01C#16 →
      decode c ≠ .ok .frame ∧ decode c ≠ .ok .step) →
    SameEngineButFramePos s t ∧
    (t.framePos = s.framePos ∨
      (t.framePos = 0 ∧ s.run = false ∧ t.run = true ∧
        ∃ a v rest, s.inputs = .busWrite a v :: rest ∧ a &&& 0xFFFC#16 = 0x00C#16)))

/-- R77, R185: every step but a reset only appends to the streams, at most one element to each, both from the same
stream step, and SAMPLE_COUNT advances exactly with them. -/
def Obligations.StreamsOnlyGrowTogether : Prop :=
  ∀ s t : State, step s = .next t → (∀ rest, s.inputs ≠ .reset :: rest) →
    (t.dacStream = s.dacStream ∧ t.scopeStream = s.scopeStream ∧ t.sampleCount = s.sampleCount) ∨
    (∃ q : ScopeTuple, t.dacStream = s.dacStream ++ [q.output] ∧ t.scopeStream = s.scopeStream ++ [q] ∧
      q.control0 = t.target0 ∧ q.control1 = t.target1 ∧ t.lastOut = q.output ∧ t.sampleCount = s.sampleCount + 1)

/-- R75, R244: staging words never reach the datapath except through OSC_CONFIG: two states that differ only in
staging bytes still differ only there after any tick, for every build, after any command but OSC_CONFIG, and after any
step whose input is no read of a staging window and no CMD write of OSC_CONFIG. -/
def Obligations.StagingIsInvisibleUntilConfigured : Prop :=
  ∀ s t : State, SameButStaging s t →
    (∀ p, SameButStaging (dacTick p s) (dacTick p t)) ∧
    (∀ (i : Instr) (s' t' : State), (∀ u, i ≠ .oscConfig u) → exec i s = .next s' → exec i t = .next t' →
      SameButStaging s' t') ∧
    (∀ s' t' : State, step s = .next s' → step t = .next t' →
      (∀ a rest, s.inputs = .busRead a :: rest → ¬ (0x1000 ≤ a.toNat ∧ a.toNat < 0x3000)) →
      (∀ a c rest u, s.inputs = .busWrite a c :: rest → a &&& 0xFFFC#16 = 0x01C#16 → decode c ≠ .ok (.oscConfig u)) →
      SameButStaging s' t')

/-! ## Arithmetic (00_scope.md) -/

/-- R9, R10: each primitive operation on finite operands delivers the exact result rounded to nearest, ties to even: a
nearest binary32 value below the overflow threshold, the infinity of the exact sign from it on (`Rounded`). A zero
sum is +0 unless both addends are -0, a zero difference is +0 unless it is -0 less +0, and a product or a quotient
has the sign of its operands' signs together, a zero included. -/
def Obligations.OperationsRoundToNearestEven : Prop :=
  ∀ x y : F32, Binary32.isFinite x = true → Binary32.isFinite y = true →
    let X := Binary32.toUnits x
    let Y := Binary32.toUnits y
    let U : Int := 2 ^ 149
    Rounded (Binary32.add x y) (X + Y) 1 ∧
    Rounded (Binary32.sub x y) (X - Y) 1 ∧
    Rounded (Binary32.mul x y) (X * Y) U ∧
    (Y ≠ 0 → Rounded (Binary32.div x y) (X * U) Y) ∧
    (X + Y = 0 → Binary32.add x y = if x = 0x80000000#32 ∧ y = 0x80000000#32 then 0x80000000#32 else 0x00000000#32) ∧
    (X - Y = 0 → Binary32.sub x y = if x = 0x80000000#32 ∧ y = 0x00000000#32 then 0x80000000#32 else 0x00000000#32) ∧
    Binary32.neg? (Binary32.mul x y) = (Binary32.neg? x != Binary32.neg? y) ∧
    (Y ≠ 0 → Binary32.neg? (Binary32.div x y) = (Binary32.neg? x != Binary32.neg? y))

/-- R9, R10: the operands OperationsRoundToNearestEven leaves out, and the comparisons. A NaN result is the canonical quiet
NaN, and a NaN operand gives it; inf - inf, 0·inf, inf/inf and 0/0 are NaN; every other operation with an infinity, and a
division by zero, gives the signed infinity or zero of IEEE 754. A comparison with a NaN is false; the others compare
values, infinities beyond every finite value, +0 == -0. -/
def Obligations.SpecialOperandsAndComparisons : Prop :=
  (∀ x y r : F32, r ∈ [Binary32.add x y, Binary32.sub x y, Binary32.mul x y, Binary32.div x y] →
    (Binary32.isNaN r = true → r = 0x7FC00000#32) ∧
    (Binary32.isNaN x = true ∨ Binary32.isNaN y = true → r = 0x7FC00000#32)) ∧
  (∀ x, Binary32.isInf x = true ↔ x = 0x7F800000#32 ∨ x = 0xFF800000#32) ∧
  (∀ x y : F32, Binary32.isNaN x = false → Binary32.isNaN y = false →
    let inf := if Binary32.neg? x = Binary32.neg? y then 0x7F800000#32 else 0xFF800000#32
    let zero := if Binary32.neg? x = Binary32.neg? y then 0x00000000#32 else 0x80000000#32
    (Binary32.isInf x = true → Binary32.add x y =
      if Binary32.isInf y = true ∧ Binary32.neg? x ≠ Binary32.neg? y then 0x7FC00000#32 else x) ∧
    (Binary32.isFinite x = true → Binary32.isInf y = true → Binary32.add x y = y) ∧
    (Binary32.isInf x = true → Binary32.sub x y =
      if Binary32.isInf y = true ∧ Binary32.neg? x = Binary32.neg? y then 0x7FC00000#32 else x) ∧
    (Binary32.isFinite x = true → Binary32.isInf y = true → Binary32.sub x y = Binary32.negate y) ∧
    (Binary32.isInf x = true ∨ Binary32.isInf y = true → Binary32.mul x y =
      if Binary32.isZero x = true ∨ Binary32.isZero y = true then 0x7FC00000#32 else inf) ∧
    (Binary32.isInf x = true → Binary32.div x y = if Binary32.isInf y = true then 0x7FC00000#32 else inf) ∧
    (Binary32.isFinite x = true → Binary32.isInf y = true → Binary32.div x y = zero) ∧
    (Binary32.isFinite x = true → Binary32.isZero y = true → Binary32.div x y =
      if Binary32.isZero x = true then 0x7FC00000#32 else inf)) ∧
  (∀ x y : F32, Binary32.isNaN x = true ∨ Binary32.isNaN y = true →
    Binary32.lt x y = false ∧ Binary32.le x y = false ∧ Binary32.gt x y = false ∧ Binary32.ge x y = false ∧
    Binary32.eq x y = false) ∧
  (∀ x y : F32, Binary32.isNaN x = false → Binary32.isNaN y = false →
    Binary32.gt x y = Binary32.lt y x ∧ Binary32.ge x y = Binary32.le y x ∧
    Binary32.le x y = (Binary32.lt x y || Binary32.eq x y) ∧
    Binary32.eq x y = decide (x = y ∨ (Binary32.isZero x = true ∧ Binary32.isZero y = true)) ∧
    (Binary32.isFinite x = true → Binary32.isFinite y = true →
      Binary32.lt x y = decide (Binary32.toUnits x < Binary32.toUnits y)) ∧
    (y = 0x7F800000#32 → Binary32.lt x y = decide (x ≠ y)) ∧ (x = 0xFF800000#32 → Binary32.lt x y = decide (x ≠ y)) ∧
    (x = 0x7F800000#32 → Binary32.lt x y = false) ∧ (y = 0xFF800000#32 → Binary32.lt x y = false))
end

