-- ==== Sys2Proof/Laws/Binary32.lean ====
section
/-! SUPPORT. The laws of the binary32 arithmetic: patterns and their values, rounding of exact values, and that
rounding is monotone and nearest. Values are counted in units of 2^-149. -/

namespace Sys2Proof.Machine.Binary32

/-! Patterns. -/

theorem neg?_withSign (b : Bool) {m : Nat} (h : m < 2 ^ 31) : neg? (withSign b m) = b := by
  cases b <;> simp [neg?, withSign, BitVec.toNat_ofNat] <;> omega

theorem magBits_withSign (b : Bool) {m : Nat} (h : m < 2 ^ 31) : magBits (withSign b m) = m := by
  cases b <;> simp [magBits, withSign, BitVec.toNat_ofNat] <;> omega

theorem withSign_self (x : F32) : withSign (neg? x) (magBits x) = x := by
  apply BitVec.eq_of_toNat_eq
  have := x.isLt
  simp only [neg?, magBits, withSign, BitVec.toNat_ofNat, decide_eq_true_eq]
  split <;> omega

theorem magBits_lt (x : F32) : magBits x < 2 ^ 31 := Nat.mod_lt _ (by norm_num)

@[simp] theorem neg?_negate (x : F32) : neg? (negate x) = !neg? x := neg?_withSign _ (magBits_lt x)

@[simp] theorem magBits_negate (x : F32) : magBits (negate x) = magBits x := magBits_withSign _ (magBits_lt x)

theorem roundMag_le_inf (num den : Nat) : roundMag num den ≤ infMag := Nat.min_le_right _ _

theorem roundMag_lt (num den : Nat) : roundMag num den < 2 ^ 31 :=
  Nat.lt_of_le_of_lt (roundMag_le_inf _ _) (by norm_num [infMag])

@[simp] theorem magBits_roundSigned (b : Bool) (num den : Nat) :
    magBits (roundSigned b num den) = roundMag num den := magBits_withSign _ (roundMag_lt _ _)

@[simp] theorem neg?_roundSigned (b : Bool) (num den : Nat) : neg? (roundSigned b num den) = b :=
  neg?_withSign _ (roundMag_lt _ _)

/-- No rounding makes a NaN. -/
@[simp] theorem isNaN_roundSigned (b : Bool) (num den : Nat) : isNaN (roundSigned b num den) = false := by
  have := roundMag_le_inf num den
  simp [isNaN]; omega

theorem isFinite_iff (x : F32) : isFinite x = true ↔ isNaN x = false ∧ isInf x = false := by
  simp [isFinite, isNaN, isInf]; omega

theorem isNaN_of_isFinite {x : F32} (h : isFinite x = true) : isNaN x = false := ((isFinite_iff x).1 h).1

theorem isInf_of_isFinite {x : F32} (h : isFinite x = true) : isInf x = false := ((isFinite_iff x).1 h).2

/-! Values of patterns. -/

/-- A pattern with exponent step `e` and significand `q` stands for `q * 2^e` units; a significand of 2^24 carries. -/
theorem unitsOfMag_step {e q : Nat} (h : e = 0 ∨ 2 ^ 23 ≤ q) (hq : q ≤ 2 ^ 24) :
    unitsOfMag (e * 2 ^ 23 + q) = q * 2 ^ e := by
  unfold unitsOfMag
  split
  · have : e = 0 := by omega
    subst this; simp
  · rcases Nat.lt_or_ge q (2 ^ 23) with hlt | hge
    · omega
    · rcases Nat.lt_or_eq_of_le hq with hlt | rfl
      · have h1 : (e * 2 ^ 23 + q) % 2 ^ 23 = q - 2 ^ 23 := by omega
        have h2 : (e * 2 ^ 23 + q) / 2 ^ 23 - 1 = e := by omega
        rw [h1, h2, show 2 ^ 23 + (q - 2 ^ 23) = q by omega]
      · have h1 : (e * 2 ^ 23 + 2 ^ 24) % 2 ^ 23 = 0 := by omega
        have h2 : (e * 2 ^ 23 + 2 ^ 24) / 2 ^ 23 - 1 = e + 1 := by omega
        rw [h1, h2, Nat.pow_succ]; ring

/-- Every pattern is a step and a significand below 2^24. -/
theorem exists_step (m : Nat) :
    ∃ e q, m = e * 2 ^ 23 + q ∧ (e = 0 ∨ 2 ^ 23 ≤ q) ∧ q < 2 ^ 24 := by
  by_cases h : m < 2 ^ 23
  · exact ⟨0, m, by omega, .inl rfl, by omega⟩
  · exact ⟨m / 2 ^ 23 - 1, 2 ^ 23 + m % 2 ^ 23, by omega, .inr (by omega), by omega⟩

theorem unitsOfMag_succ (m : Nat) : unitsOfMag m < unitsOfMag (m + 1) := by
  obtain ⟨e, q, rfl, h, hq⟩ := exists_step m
  rw [unitsOfMag_step h (by omega), Nat.add_assoc, unitsOfMag_step (h.imp id (by omega)) hq]
  exact Nat.mul_lt_mul_of_pos_right (by omega) (by positivity)

/-- Magnitudes are ordered as their patterns are. -/
theorem unitsOfMag_strictMono : StrictMono unitsOfMag := strictMono_nat_of_lt_succ unitsOfMag_succ

theorem unitsOfMag_zero : unitsOfMag 0 = 0 := by decide

theorem unitsOfMag_eq_zero {m : Nat} : unitsOfMag m = 0 ↔ m = 0 := by
  constructor
  · intro h; exact unitsOfMag_strictMono.injective (h.trans unitsOfMag_zero.symm)
  · rintro rfl; exact unitsOfMag_zero

/-- From 2^(23 + e) units on, every value is a multiple of 2^e. -/
theorem dvd_unitsOfMag {m e : Nat} (h : 2 ^ (e + 23) ≤ unitsOfMag m) : 2 ^ e ∣ unitsOfMag m := by
  obtain ⟨e', q, rfl, h', hq⟩ := exists_step m
  rw [unitsOfMag_step h' (by omega)] at *
  have : e ≤ e' := by
    by_contra hlt
    have h1 : q * 2 ^ e' < 2 ^ 24 * 2 ^ e' := Nat.mul_lt_mul_of_pos_right hq (by positivity)
    have h2 : 2 ^ 24 * 2 ^ e' ≤ 2 ^ (e + 23) := by
      rw [← Nat.pow_add]; exact Nat.pow_le_pow_right (by norm_num) (by omega)
    omega
  exact Dvd.dvd.mul_left (Nat.pow_dvd_pow 2 this) q

/-! Rounding a quotient to an integer. -/

/-- The rounded quotient is within half a unit. -/
theorem roundDiv_near (a : Nat) {b : Nat} (hb : 0 < b) :
    2 * (roundDiv a b * b) ≤ 2 * a + b ∧ 2 * a ≤ 2 * (roundDiv a b * b) + b := by
  have h := Nat.div_add_mod a b
  have h' := Nat.mod_lt a hb
  unfold roundDiv
  rw [Nat.mul_comm] at h
  split
  · constructor <;> omega
  · split
    · rw [Nat.add_mul]; constructor <;> omega
    · rcases Nat.mod_two_eq_zero_or_one (a / b) with e | e <;> rw [e]
      · rw [Nat.add_zero]; constructor <;> omega
      · rw [Nat.add_mul]; constructor <;> omega

/-- At a tie the rounded quotient is even. -/
theorem roundDiv_tie {a b : Nat} (hb : 0 < b)
    (h : 2 * (roundDiv a b * b) = 2 * a + b ∨ 2 * a = 2 * (roundDiv a b * b) + b) : roundDiv a b % 2 = 0 := by
  have h1 := Nat.div_add_mod a b
  have h' := Nat.mod_lt a hb
  unfold roundDiv at *
  rw [Nat.mul_comm] at h1
  split at h
  · omega
  · split at h
    · rw [Nat.add_mul] at h; omega
    · next h2 h3 => rw [if_neg h2, if_neg h3]; omega

theorem roundDiv_mul (q : Nat) {b : Nat} (hb : 0 < b) : roundDiv (q * b) b = q := by
  simp [roundDiv, Nat.mul_mod_left, Nat.mul_div_cancel _ hb, hb]

theorem roundDiv_ge {a b q : Nat} (hb : 0 < b) (h : q * b ≤ a) : q ≤ roundDiv a b := by
  have : q ≤ a / b := (Nat.le_div_iff_mul_le hb).2 h
  unfold roundDiv; split
  · exact this
  · split <;> omega

theorem roundDiv_le {a b q : Nat} (hb : 0 < b) (h : a ≤ q * b) : roundDiv a b ≤ q := by
  have hn := (roundDiv_near a hb).1
  by_contra hlt
  have : (q + 1) * b ≤ roundDiv a b * b := Nat.mul_le_mul_right _ (by omega)
  rw [Nat.add_mul] at this
  have hab : a = q * b := by omega
  rw [hab, roundDiv_mul q hb] at hlt
  omega

/-! Rounding an exact value to a pattern. -/

theorem spacing_bounds (n : Nat) :
    n < 2 ^ (spacing n + 24) ∧ (spacing n = 0 ∨ 2 ^ (spacing n + 23) ≤ n) := by
  unfold spacing
  split
  · simpa
  · next h =>
    have h0 : n ≠ 0 := by omega
    have hl : 24 ≤ Nat.log2 n := (Nat.le_log2 h0).2 (by omega)
    have e1 : Nat.log2 n - 23 + 24 = Nat.log2 n + 1 := by omega
    have e2 : Nat.log2 n - 23 + 23 = Nat.log2 n := by omega
    rw [e1, e2]
    exact ⟨(Nat.log2_lt h0).1 (by omega), .inr (Nat.log2_self_le h0)⟩

/-- The significand chosen lies in its binade, or one step above it. -/
theorem significand_bounds (num : Nat) {den : Nat} (hd : 0 < den) :
    (spacing (num / den) = 0 ∨ 2 ^ 23 ≤ roundDiv num (den * 2 ^ spacing (num / den))) ∧
      roundDiv num (den * 2 ^ spacing (num / den)) ≤ 2 ^ 24 := by
  obtain ⟨hu, hl⟩ := spacing_bounds (num / den)
  have hb : 0 < den * 2 ^ spacing (num / den) := by positivity
  constructor
  · rcases hl with h | h
    · exact .inl h
    · refine .inr (roundDiv_ge hb ?_)
      rw [Nat.le_div_iff_mul_le hd, Nat.pow_add] at h
      calc 2 ^ 23 * (den * 2 ^ spacing (num / den)) = 2 ^ spacing (num / den) * 2 ^ 23 * den := by ring
        _ ≤ num := h
  · refine roundDiv_le hb ?_
    rw [Nat.div_lt_iff_lt_mul hd, Nat.pow_add] at hu
    calc num ≤ 2 ^ spacing (num / den) * 2 ^ 24 * den := hu.le
      _ = 2 ^ 24 * (den * 2 ^ spacing (num / den)) := by ring

/-- A finite rounded pattern stands for its significand times its spacing. -/
theorem unitsOfMag_roundMag (num : Nat) {den : Nat} (hd : 0 < den) (h : roundMag num den < infMag) :
    unitsOfMag (roundMag num den) =
      roundDiv num (den * 2 ^ spacing (num / den)) * 2 ^ spacing (num / den) := by
  obtain ⟨h1, h2⟩ := significand_bounds num hd
  have : roundMag num den =
      spacing (num / den) * 2 ^ 23 + roundDiv num (den * 2 ^ spacing (num / den)) := by
    unfold roundMag at *; simp only at *; omega
  rw [this, unitsOfMag_step h1 h2]

/-- A value of the format rounds to itself. -/
theorem roundMag_exact {m den : Nat} (hd : 0 < den) (hm : m ≤ infMag) :
    roundMag (unitsOfMag m * den) den = m := by
  obtain ⟨e, q, rfl, h, hq⟩ := exists_step m
  rw [unitsOfMag_step h hq.le]
  have hn : q * 2 ^ e * den / den = q * 2 ^ e := Nat.mul_div_cancel _ hd
  have hs : spacing (q * 2 ^ e) = e := by
    obtain ⟨hu, hl⟩ := spacing_bounds (q * 2 ^ e)
    rcases h with rfl | h
    · unfold spacing; rw [if_pos (by simpa using hq)]
    · have a1 : 2 ^ (e + 23) ≤ q * 2 ^ e := by
        rw [Nat.pow_add, Nat.mul_comm]; exact Nat.mul_le_mul_right _ h
      have a2 : q * 2 ^ e < 2 ^ (e + 24) := by
        rw [Nat.pow_add, Nat.mul_comm (2 ^ e)]; exact Nat.mul_lt_mul_of_pos_right hq (by positivity)
      have b1 : e + 23 < spacing (q * 2 ^ e) + 24 :=
        (Nat.pow_lt_pow_iff_right (by norm_num)).1 (Nat.lt_of_le_of_lt a1 hu)
      rcases hl with hl | hl
      · omega
      · have b2 : spacing (q * 2 ^ e) + 23 < e + 24 :=
          (Nat.pow_lt_pow_iff_right (by norm_num)).1 (Nat.lt_of_le_of_lt hl a2)
        omega
  unfold roundMag
  simp only [hn, hs]
  have : q * 2 ^ e * den = q * (den * 2 ^ e) := by ring
  rw [this, roundDiv_mul q (by positivity)]
  omega

theorem roundMag_unitsOfMag {m : Nat} (hm : m ≤ infMag) : roundMag (unitsOfMag m) 1 = m := by
  simpa using roundMag_exact (den := 1) (by norm_num) hm

/-- The rounded pattern is nearest: no value of the format is closer to `num / den`, and one as close is the same
or the rounded pattern is even. -/
theorem roundMag_nearest (num : Nat) {den : Nat} (hd : 0 < den) (h : roundMag num den < infMag) (m : Nat) :
    |(unitsOfMag (roundMag num den) * den : ℤ) - num| ≤ |(unitsOfMag m * den : ℤ) - num| ∧
    (|(unitsOfMag (roundMag num den) * den : ℤ) - num| = |(unitsOfMag m * den : ℤ) - num| →
      m = roundMag num den ∨ roundMag num den % 2 = 0) := by
  obtain ⟨hu, hl⟩ := spacing_bounds (num / den)
  have hv := unitsOfMag_roundMag num hd h
  have hr : roundMag num den =
      spacing (num / den) * 2 ^ 23 + roundDiv num (den * 2 ^ spacing (num / den)) := by
    unfold roundMag at *; simp only at *; omega
  generalize spacing (num / den) = e at *
  set b := den * 2 ^ e with hbdef
  have hb : 0 < b := by positivity
  obtain ⟨n1, n2⟩ := roundDiv_near num hb
  have htie := roundDiv_tie (a := num) hb
  generalize roundDiv num b = q at *
  have hvq : (unitsOfMag (roundMag num den) * den : ℤ) = q * b := by
    rw [hv, hbdef]; push_cast; ring
  have key : |(q * b : ℤ) - num| * 2 ≤ b := by
    have n1' : (2 * (q * b) : ℤ) ≤ 2 * num + b := by exact_mod_cast n1
    have n2' : (2 * num : ℤ) ≤ 2 * (q * b) + b := by exact_mod_cast n2
    rcases abs_cases ((q * b : ℤ) - num) with ⟨e, _⟩ | ⟨e, _⟩ <;> rw [e] <;> linarith
  rw [hvq]
  -- a multiple of the spacing
  have multiple : ∀ z : Nat, |(q * b : ℤ) - num| ≤ |(z * b : ℤ) - num| ∧
      (|(q * b : ℤ) - num| = |(z * b : ℤ) - num| → z = q ∨ q % 2 = 0) := by
    intro z
    by_cases hz : z = q
    · subst hz; simp
    have hsep : (b : ℤ) ≤ |(z * b : ℤ) - q * b| := by
      have : (1 : ℤ) ≤ |(z : ℤ) - q| := Int.one_le_abs (by omega)
      calc (b : ℤ) = 1 * b := by ring
        _ ≤ |(z : ℤ) - q| * b := by gcongr
        _ = |(z * b : ℤ) - q * b| := by
          rw [← sub_mul, abs_mul, abs_of_nonneg (a := (b : ℤ)) (by positivity)]
    have htri : |(z * b : ℤ) - q * b| ≤ |(z * b : ℤ) - num| + |(q * b : ℤ) - num| := by
      rw [abs_sub_comm (q * b : ℤ) num]; exact abs_sub_le _ _ _
    refine ⟨by linarith, fun heq => .inr (htie ?_)⟩
    have h2 : |(q * b : ℤ) - num| * 2 = b := by linarith
    rcases abs_cases ((q * b : ℤ) - num) with ⟨e1, _⟩ | ⟨e1, _⟩ <;> rw [e1] at h2
    · left; zify; linarith
    · right; zify; linarith
  by_cases hm : 2 ^ e ∣ unitsOfMag m
  · obtain ⟨z, hz⟩ := hm
    have hz' : (unitsOfMag m * den : ℤ) = z * b := by rw [hz, hbdef]; push_cast; ring
    rw [hz']
    refine ⟨(multiple z).1, fun heq => ?_⟩
    rcases (multiple z).2 heq with e1 | e1
    · left
      apply unitsOfMag_strictMono.injective
      rw [hz, hv, e1]; ring
    · right; omega
  · have hlt : unitsOfMag m < 2 ^ (e + 23) := by
      by_contra hge; exact hm (dvd_unitsOfMag (by omega))
    have he : e ≠ 0 := by rintro rfl; simp at hm
    have hl' : 2 ^ (e + 23) * den ≤ num := (Nat.le_div_iff_mul_le hd).1 (hl.resolve_left he)
    have hb23 : 2 ^ (e + 23) * den = 2 ^ 23 * b := by rw [hbdef, Nat.pow_add]; ring
    have hstrict : |((2 ^ 23 : Nat) * b : ℤ) - num| < |(unitsOfMag m * den : ℤ) - num| := by
      have h1 : ((2 ^ 23 : Nat) * b : ℤ) ≤ num := by exact_mod_cast hb23 ▸ hl'
      have h2 : (unitsOfMag m * den : ℤ) < (2 ^ 23 : Nat) * b := by
        have : unitsOfMag m * den < 2 ^ 23 * b := hb23 ▸ Nat.mul_lt_mul_of_pos_right hlt hd
        exact_mod_cast this
      rw [abs_of_nonpos (by linarith), abs_of_nonpos (by linarith)]; linarith
    have := (multiple (2 ^ 23)).1
    exact ⟨by linarith, fun heq => by linarith⟩

/-- Rounding is monotone against a value of the format: what is at most a value of the format rounds to at most it. -/
theorem roundMag_le_of_le {num den m : Nat} (hd : 0 < den) (h : num ≤ unitsOfMag m * den) (hm : m ≤ infMag) :
    roundMag num den ≤ m := by
  by_cases hfin : roundMag num den < infMag
  · by_contra hlt
    have hlt : m < roundMag num den := by omega
    have hV := unitsOfMag_strictMono hlt
    obtain ⟨h1, h2⟩ := roundMag_nearest num hd hfin m
    have a1 : (num : ℤ) ≤ unitsOfMag m * den := by exact_mod_cast h
    have a2 : (unitsOfMag m * den : ℤ) < unitsOfMag (roundMag num den) * den := by
      have : unitsOfMag m * den < unitsOfMag (roundMag num den) * den := Nat.mul_lt_mul_of_pos_right hV hd
      exact_mod_cast this
    rw [abs_of_nonneg (by linarith), abs_of_nonneg (by linarith)] at h1
    linarith
  · have he : roundMag num den = infMag := by have := roundMag_le_inf num den; omega
    -- the saturated pattern is reached only from the overflow threshold on
    obtain ⟨s1, s2⟩ := significand_bounds num hd
    obtain ⟨hu, hl⟩ := spacing_bounds (num / den)
    have hge : infMag ≤ spacing (num / den) * 2 ^ 23 + roundDiv num (den * 2 ^ spacing (num / den)) := by
      unfold roundMag at he; simp only at he; omega
    by_contra hlt
    have hm' : m < infMag := by omega
    have hexact := roundMag_exact (den := den) hd hm
    obtain ⟨t1, t2⟩ := significand_bounds (unitsOfMag m * den) hd
    have hmon : num / den ≤ unitsOfMag m * den / den := Nat.div_le_div_right h
    rw [Nat.mul_div_cancel _ hd] at hmon
    obtain ⟨e, q, rfl, h', hq⟩ := exists_step m
    rw [unitsOfMag_step h' hq.le] at hmon h
    have hes : spacing (num / den) ≤ e := by
      by_contra hc
      rcases hl with hl | hl
      · omega
      · have : q * 2 ^ e < 2 ^ 24 * 2 ^ e := Nat.mul_lt_mul_of_pos_right hq (by positivity)
        have h3 : 2 ^ 24 * 2 ^ e ≤ 2 ^ (spacing (num / den) + 23) := by
          rw [← Nat.pow_add]; exact Nat.pow_le_pow_right (by norm_num) (by omega)
        omega
    rcases Nat.lt_or_eq_of_le hes with hlt2 | heq
    · have hstep : (spacing (num / den) + 1) * 2 ^ 23 ≤ e * 2 ^ 23 := Nat.mul_le_mul_right _ hlt2
      have hq' : 2 ^ 23 ≤ q := h'.resolve_left (by omega)
      generalize roundDiv num (den * 2 ^ spacing (num / den)) = r at s2 hge
      generalize spacing (num / den) = s at hstep hge
      clear hexact t1 t2 hmon h he hl hu s1 hes hlt2 hlt
      omega
    · have : roundDiv num (den * 2 ^ spacing (num / den)) ≤ q := by
        refine roundDiv_le (by positivity) ?_
        rw [heq]; calc num ≤ q * 2 ^ e * den := h
          _ = q * (den * 2 ^ e) := by ring
      rw [heq] at this hge
      omega

/-! Values of the operations. -/

/-- Every `q * 2^e` units with q below 2^24 and in the exponent range is a value of the format. -/
theorem exists_mag {q e : Nat} (hq : q < 2 ^ 24) (he : e ≤ 253) : ∃ m, m < infMag ∧ unitsOfMag m = q * 2 ^ e := by
  induction e generalizing q with
  | zero => exact ⟨q, by simp [infMag]; omega, by simpa using unitsOfMag_step (e := 0) (.inl rfl) hq.le⟩
  | succ e ih =>
    by_cases h : 2 ^ 23 ≤ q
    · refine ⟨(e + 1) * 2 ^ 23 + q, by simp [infMag]; omega, unitsOfMag_step (.inr h) hq.le⟩
    · obtain ⟨m, hm, hv⟩ := ih (q := 2 * q) (by omega) (by omega)
      exact ⟨m, hm, by rw [hv, Nat.pow_succ]; ring⟩

/-- An exact value of the format is rounded to itself. -/
theorem unitsOfMag_roundMag_of_value {m : Nat} (h : m < infMag) : unitsOfMag (roundMag (unitsOfMag m) 1) = unitsOfMag m := by
  rw [roundMag_unitsOfMag h.le]

theorem magnitude_roundSigned (b : Bool) (num den : Nat) :
    magnitude (roundSigned b num den) = unitsOfMag (roundMag num den) := by
  rw [magnitude, magBits_roundSigned]

theorem toUnits_roundSigned (b : Bool) (num den : Nat) :
    toUnits (roundSigned b num den) =
      if b then -(unitsOfMag (roundMag num den) : Int) else (unitsOfMag (roundMag num den) : Int) := by
  rw [toUnits, neg?_roundSigned, magnitude_roundSigned]

/-- `f32(n)` is exact (R14). -/
theorem ofNat_exact {n : Nat} (h : n < 2 ^ 24) :
    isFinite (ofNat n) = true ∧ neg? (ofNat n) = false ∧ toUnits (ofNat n) = ((n * unitsPerOne : Nat) : Int) := by
  obtain ⟨m, hm, hv⟩ := exists_mag (e := 149) h (by norm_num)
  have hr : roundMag (n * unitsPerOne) 1 = m := by
    rw [unitsPerOne, ← hv]; exact roundMag_unitsOfMag hm.le
  refine ⟨?_, neg?_roundSigned _ _ _, ?_⟩
  · simp [isFinite, ofNat, hr, hm]
  · rw [ofNat, toUnits_roundSigned, hr, hv, unitsPerOne]; simp

theorem toUnits_negate (x : F32) : toUnits (negate x) = -toUnits x := by
  simp only [toUnits, magnitude, neg?_negate, magBits_negate]
  cases neg? x <;> simp

theorem isFinite_negate (x : F32) : isFinite (negate x) = isFinite x := by simp [isFinite]

theorem isZero_iff (x : F32) : isZero x = true ↔ toUnits x = 0 := by
  simp only [isZero, toUnits, magnitude, decide_eq_true_eq]
  split <;> simp [unitsOfMag_eq_zero]

/-- The value of a finite pattern rounds back to it, up to the sign of a zero. -/
theorem roundSigned_magnitude {x : F32} (h : isFinite x = true) (b : Bool) :
    roundSigned b (magnitude x) 1 = withSign b (magBits x) := by
  have : magBits x < infMag := by simpa [isFinite] using h
  rw [roundSigned, magnitude, roundMag_unitsOfMag this.le]

/-- A finite sum is the rounded exact sum. -/
theorem add_finite {x y : F32} (hx : isFinite x = true) (hy : isFinite y = true) (h : toUnits x + toUnits y ≠ 0) :
    add x y = roundSigned (decide (toUnits x + toUnits y < 0)) (toUnits x + toUnits y).natAbs 1 := by
  simp [add, isNaN_of_isFinite hx, isNaN_of_isFinite hy, isInf_of_isFinite hx, isInf_of_isFinite hy, h]

/-- An exact zero sum (R102, 93_implementation_defined.md G3). -/
theorem add_zero_sum {x y : F32} (hx : isFinite x = true) (hy : isFinite y = true) (h : toUnits x + toUnits y = 0) :
    add x y = withSign (neg? x && neg? y) 0 := by
  simp [add, isNaN_of_isFinite hx, isNaN_of_isFinite hy, isInf_of_isFinite hx, isInf_of_isFinite hy, h]

/-- When the exact sum is a value of the format, the sum is exact. -/
theorem toUnits_add_exact {x y : F32} (hx : isFinite x = true) (hy : isFinite y = true) {m : Nat} (hm : m < infMag)
    (h : (toUnits x + toUnits y).natAbs = unitsOfMag m) : toUnits (add x y) = toUnits x + toUnits y := by
  by_cases h0 : toUnits x + toUnits y = 0
  · rw [add_zero_sum hx hy h0, h0, ← isZero_iff]
    simp [isZero, magBits_withSign]
  · rw [add_finite hx hy h0, toUnits_roundSigned, h, unitsOfMag_roundMag_of_value hm, ← h]
    by_cases hneg : toUnits x + toUnits y < 0 <;> simp only [hneg, decide_true, decide_false, if_true, Bool.false_eq_true, if_false] <;> omega

/-- A finite product is the rounded exact product. -/
theorem mul_finite {x y : F32} (hx : isFinite x = true) (hy : isFinite y = true) :
    mul x y = roundSigned (neg? x != neg? y) (magnitude x * magnitude y) unitsPerOne := by
  simp [mul, isNaN_of_isFinite hx, isNaN_of_isFinite hy, isInf_of_isFinite hx, isInf_of_isFinite hy]

/-- Multiplying by one is exact. -/
theorem mul_one_right {x : F32} (h : isNaN x = false) : mul x one = x := by
  have h1 : isNaN one = false := by decide
  have h2 : isInf one = false := by decide
  have h3 : isZero one = false := by decide
  have h4 : neg? one = false := by decide
  have h5 : magnitude one = unitsPerOne := by decide
  by_cases hi : isInf x = true
  · have : magBits x = infMag := by simpa [isInf] using hi
    simp only [mul, h, h1, hi, h2, h3, h4]
    simp [← this, withSign_self]
  · have hi : isInf x = false := by simpa using hi
    have hf : isFinite x = true := (isFinite_iff x).2 ⟨h, hi⟩
    have : magBits x < infMag := by simpa [isFinite] using hf
    rw [mul_finite hf (by decide), h4, h5, roundSigned, magnitude,
      roundMag_exact (by decide) this.le]
    simp [withSign_self]

/-- Dividing by one is exact. -/
theorem div_one_right {x : F32} (h : isNaN x = false) : div x one = x := by
  have h1 : isNaN one = false := by decide
  have h2 : isInf one = false := by decide
  have h3 : isZero one = false := by decide
  have h4 : neg? one = false := by decide
  have h5 : magnitude one = unitsPerOne := by decide
  by_cases hi : isInf x = true
  · have : magBits x = infMag := by simpa [isInf] using hi
    simp only [div, h, h1, hi, h2, h3, h4]
    simp [← this, withSign_self]
  · have hi : isInf x = false := by simpa using hi
    have hf : isFinite x = true := (isFinite_iff x).2 ⟨h, hi⟩
    have : magBits x < infMag := by simpa [isFinite] using hf
    simp only [div, h, h1, hi, h2, h3, h4, h5]
    simp only [Bool.or_self, Bool.and_false, Bool.false_eq_true, ↓reduceIte, roundSigned, magnitude,
      roundMag_exact (den := unitsPerOne) (by decide) this.le]
    simp [withSign_self]

/-- A NaN operand gives the canonical NaN (R10). -/
theorem mul_nan_left {x : F32} (y : F32) (h : isNaN x = true) : mul x y = qnan := by simp [mul, h]

theorem add_nan_right (x : F32) {y : F32} (h : isNaN y = true) : add x y = qnan := by simp [add, h]

theorem add_nan_left {x : F32} (y : F32) (h : isNaN x = true) : add x y = qnan := by simp [add, h]

theorem isNaN_qnan : isNaN qnan = true := by decide

/-- Adding a zero to a value other than a zero, or a +0 to anything but -0, changes nothing. -/
theorem add_zero_right {x y : F32} (hx : isNaN x = false) (hy : isZero y = true) (h : x = 0x80000000#32 → neg? y = true) :
    add x y = x := by
  have hym : magBits y = 0 := by simpa [isZero] using hy
  have hyf : isFinite y = true := by simp [isFinite, hym, infMag]
  have hy0 := (isZero_iff y).1 hy
  by_cases hi : isInf x = true
  · simp [add, hx, hi, isNaN_of_isFinite hyf, isInf_of_isFinite hyf]
  · have hi : isInf x = false := by simpa using hi
    have hf : isFinite x = true := (isFinite_iff x).2 ⟨hx, hi⟩
    by_cases h0 : toUnits x = 0
    · rw [add_zero_sum hf hyf (by omega)]
      have hm : magBits x = 0 := by simpa [isZero] using (isZero_iff x).2 h0
      have hxs := withSign_self x
      rw [hm] at hxs
      cases hs : neg? x
      · rw [hs] at hxs; simpa using hxs
      · rw [hs] at hxs; rw [h (by rw [← hxs]; decide)]; simpa using hxs
    · rw [add_finite hf hyf (by omega)]
      have e : toUnits x + toUnits y = toUnits x := by omega
      have hneg : decide (toUnits x < 0) = neg? x := by
        unfold toUnits at h0 ⊢
        cases neg? x <;> simp at h0 ⊢; omega
      have habs : (toUnits x).natAbs = magnitude x := by unfold toUnits; split <;> simp
      rw [e, hneg, habs, roundSigned_magnitude hf, withSign_self]

/-! Overflow. -/

/-- The exact values of the last binade round to a carry exactly from half a spacing below it on. -/
theorem roundDiv_carries {num b : Nat} (hb : 0 < b) : 16777216 ≤ roundDiv num b ↔ 33554431 * b ≤ 2 * num := by
  obtain ⟨h1, h2⟩ := roundDiv_near num hb
  constructor
  · intro h
    have := Nat.mul_le_mul_right b h
    omega
  · intro h
    by_contra hc
    have hle := Nat.mul_le_mul_right b (show roundDiv num b ≤ 16777215 by omega)
    have htie := roundDiv_tie hb (a := num) (.inr (by omega))
    have hle := Nat.mul_le_mul_right b (show roundDiv num b ≤ 16777214 by omega)
    omega

/-- Rounding overflows exactly from the threshold on, halfway between the greatest finite value and the next power of
two (R10). -/
theorem roundMag_overflow (num : Nat) {den : Nat} (hd : 0 < den) :
    roundMag num den = infMag ↔ 33554431 * 2 ^ 252 * den ≤ num := by
  obtain ⟨hlo, hhi⟩ := significand_bounds num hd
  obtain ⟨hu, hl⟩ := spacing_bounds (num / den)
  have hc := roundDiv_carries (num := num) (b := den * 2 ^ 253) (by positivity)
  rw [show 33554431 * (den * 2 ^ 253) = 2 * (33554431 * 2 ^ 252 * den) by ring,
    Nat.mul_le_mul_left_iff (by norm_num)] at hc
  have hthr : 33554431 * 2 ^ 252 * den ≤ num ↔ 33554431 * 2 ^ 252 ≤ num / den := (Nat.le_div_iff_mul_le hd).symm
  rw [← hc] at hthr ⊢
  have hinf : infMag = 2139095040 := rfl
  have hmag : roundMag num den =
      min (spacing (num / den) * 8388608 + roundDiv num (den * 2 ^ spacing (num / den))) infMag := rfl
  rcases Nat.lt_trichotomy (spacing (num / den)) 253 with he | he | he
  · have hle : (2 : Nat) ^ (spacing (num / den) + 24) ≤ 2 ^ 252 * 16777216 := by
      rw [Nat.pow_add]; exact Nat.mul_le_mul (Nat.pow_le_pow_right (by norm_num) (by omega)) (by norm_num)
    have hno : ¬ 33554431 * 2 ^ 252 ≤ num / den := fun h =>
      absurd (h.trans_lt (hu.trans_le hle)) (by norm_num)
    rw [hthr, iff_false_right hno, hmag, hinf]
    clear hthr hno hle hu hl hc hlo hmag hinf
    omega
  · rw [hmag, he, hinf]
    clear hthr hc hlo hhi hmag hinf hu hl
    generalize roundDiv num _ = r
    omega
  · have hge := hl.resolve_left (by omega)
    have hle : 2 ^ 254 * 8388608 ≤ 2 ^ (spacing (num / den) + 23) := by
      rw [Nat.pow_add]; exact Nat.mul_le_mul (Nat.pow_le_pow_right (by norm_num) (by omega)) (by norm_num)
    have hyes : 33554431 * 2 ^ 252 ≤ num / den := le_trans (by norm_num) (hle.trans hge)
    have hbig := hlo.resolve_left (by omega)
    rw [hthr, iff_true_right hyes, hmag, hinf]
    clear hthr hyes hle hge hl hu hc hhi hmag hinf hlo
    omega

/-! Special patterns. -/

theorem isInf_iff {x : F32} : isInf x = true ↔ x = 0x7F800000#32 ∨ x = 0xFF800000#32 := by
  constructor
  · intro h
    have h := of_decide_eq_true h
    unfold magBits infMag at h
    have h2 := x.isLt
    rcases (by omega : x.toNat = 0x7F800000 ∨ x.toNat = 0xFF800000) with h | h
    · left; exact BitVec.eq_of_toNat_eq h
    · right; exact BitVec.eq_of_toNat_eq h
  · rintro (rfl | rfl) <;> decide

theorem isZero_iff_pattern {x : F32} : isZero x = true ↔ x = 0x00000000#32 ∨ x = 0x80000000#32 := by
  constructor
  · intro h
    have h := of_decide_eq_true h
    unfold magBits at h
    have h2 := x.isLt
    rcases (by omega : x.toNat = 0 ∨ x.toNat = 0x80000000) with h | h
    · left; exact BitVec.eq_of_toNat_eq h
    · right; exact BitVec.eq_of_toNat_eq h
  · rintro (rfl | rfl) <;> decide

@[simp] theorem isNaN_negate (x : F32) : isNaN (negate x) = isNaN x := by simp [isNaN]

@[simp] theorem isInf_negate (x : F32) : isInf (negate x) = isInf x := by simp [isInf]

/-- A pattern is known by its value, up to the sign of a zero. -/
theorem toUnits_inj {x y : F32} : toUnits x = toUnits y ↔ x = y ∨ (isZero x = true ∧ isZero y = true) := by
  constructor
  · intro h
    by_cases h0 : toUnits x = 0
    · exact .inr ⟨(isZero_iff x).2 h0, (isZero_iff y).2 (h ▸ h0)⟩
    · have hs : neg? x = neg? y ∧ magnitude x = magnitude y := by
        unfold Binary32.toUnits at h h0
        cases a : neg? x <;> cases b : neg? y <;> simp [a, b] at h h0 ⊢ <;> omega
      rw [← withSign_self x, ← withSign_self y, hs.1, unitsOfMag_strictMono.injective hs.2]
      exact .inl rfl
  · rintro (rfl | ⟨h, h'⟩)
    · rfl
    · rw [(isZero_iff x).1 h, (isZero_iff y).1 h']

end Sys2Proof.Machine.Binary32
end

