-- ==== Sys2Proof/Laws/State.lean ====
section
/-! SUPPORT. One lemma per field per update of the state, so that no proof unfolds a record update. -/

namespace Sys2Proof.Machine

/-! setOsc -/

@[simp] theorem setOsc_run (s : State) (k : UnitIx) (o : Osc) : (s.setOsc k o).run = s.run := by cases k <;> rfl
@[simp] theorem setOsc_faultCause (s : State) (k : UnitIx) (o : Osc) : (s.setOsc k o).faultCause = s.faultCause := by cases k <;> rfl
@[simp] theorem setOsc_faultInfo (s : State) (k : UnitIx) (o : Osc) : (s.setOsc k o).faultInfo = s.faultInfo := by cases k <;> rfl
@[simp] theorem setOsc_cmd (s : State) (k : UnitIx) (o : Osc) : (s.setOsc k o).cmd = s.cmd := by cases k <;> rfl
@[simp] theorem setOsc_result (s : State) (k : UnitIx) (o : Osc) : (s.setOsc k o).result = s.result := by cases k <;> rfl
@[simp] theorem setOsc_arg0 (s : State) (k : UnitIx) (o : Osc) : (s.setOsc k o).arg0 = s.arg0 := by cases k <;> rfl
@[simp] theorem setOsc_arg1 (s : State) (k : UnitIx) (o : Osc) : (s.setOsc k o).arg1 = s.arg1 := by cases k <;> rfl
@[simp] theorem setOsc_arg2 (s : State) (k : UnitIx) (o : Osc) : (s.setOsc k o).arg2 = s.arg2 := by cases k <;> rfl
@[simp] theorem setOsc_arg3 (s : State) (k : UnitIx) (o : Osc) : (s.setOsc k o).arg3 = s.arg3 := by cases k <;> rfl
@[simp] theorem setOsc_arg4 (s : State) (k : UnitIx) (o : Osc) : (s.setOsc k o).arg4 = s.arg4 := by cases k <;> rfl
@[simp] theorem setOsc_touchSize (s : State) (k : UnitIx) (o : Osc) : (s.setOsc k o).touchSize = s.touchSize := by cases k <;> rfl
@[simp] theorem setOsc_touchX (s : State) (k : UnitIx) (o : Osc) : (s.setOsc k o).touchX = s.touchX := by cases k <;> rfl
@[simp] theorem setOsc_touchY (s : State) (k : UnitIx) (o : Osc) : (s.setOsc k o).touchY = s.touchY := by cases k <;> rfl
@[simp] theorem setOsc_levelDb (s : State) (k : UnitIx) (o : Osc) : (s.setOsc k o).levelDb = s.levelDb := by cases k <;> rfl
@[simp] theorem setOsc_target0 (s : State) (k : UnitIx) (o : Osc) : (s.setOsc k o).target0 = s.target0 := by cases k <;> rfl
@[simp] theorem setOsc_target1 (s : State) (k : UnitIx) (o : Osc) : (s.setOsc k o).target1 = s.target1 := by cases k <;> rfl
@[simp] theorem setOsc_gain (s : State) (k : UnitIx) (o : Osc) : (s.setOsc k o).gain = s.gain := by cases k <;> rfl
@[simp] theorem setOsc_intensity0 (s : State) (k : UnitIx) (o : Osc) : (s.setOsc k o).intensity0 = s.intensity0 := by cases k <;> rfl
@[simp] theorem setOsc_intensity1 (s : State) (k : UnitIx) (o : Osc) : (s.setOsc k o).intensity1 = s.intensity1 := by cases k <;> rfl
@[simp] theorem setOsc_lastOut (s : State) (k : UnitIx) (o : Osc) : (s.setOsc k o).lastOut = s.lastOut := by cases k <;> rfl
@[simp] theorem setOsc_framePos (s : State) (k : UnitIx) (o : Osc) : (s.setOsc k o).framePos = s.framePos := by cases k <;> rfl
@[simp] theorem setOsc_sampleCount (s : State) (k : UnitIx) (o : Osc) : (s.setOsc k o).sampleCount = s.sampleCount := by cases k <;> rfl
@[simp] theorem setOsc_presence (s : State) (k : UnitIx) (o : Osc) : (s.setOsc k o).presence = s.presence := by cases k <;> rfl
@[simp] theorem setOsc_halted (s : State) (k : UnitIx) (o : Osc) : (s.setOsc k o).halted = s.halted := by cases k <;> rfl
@[simp] theorem setOsc_sm0 (s : State) (k : UnitIx) (o : Osc) : (s.setOsc k o).sm0 = s.sm0 := by cases k <;> rfl
@[simp] theorem setOsc_sm1 (s : State) (k : UnitIx) (o : Osc) : (s.setOsc k o).sm1 = s.sm1 := by cases k <;> rfl
@[simp] theorem setOsc_mem (s : State) (k : UnitIx) (o : Osc) : (s.setOsc k o).mem = s.mem := by cases k <;> rfl
@[simp] theorem setOsc_dacStream (s : State) (k : UnitIx) (o : Osc) : (s.setOsc k o).dacStream = s.dacStream := by cases k <;> rfl
@[simp] theorem setOsc_scopeStream (s : State) (k : UnitIx) (o : Osc) : (s.setOsc k o).scopeStream = s.scopeStream := by cases k <;> rfl
@[simp] theorem setOsc_inputs (s : State) (k : UnitIx) (o : Osc) : (s.setOsc k o).inputs = s.inputs := by cases k <;> rfl
@[simp] theorem setOsc_responses (s : State) (k : UnitIx) (o : Osc) : (s.setOsc k o).responses = s.responses := by cases k <;> rfl
@[simp] theorem setOsc_tableEpoch (s : State) (k : UnitIx) (o : Osc) : (s.setOsc k o).tableEpoch = s.tableEpoch := by cases k <;> rfl

/-! setSm -/

@[simp] theorem setSm_run (s : State) (a : UnitIx) (f : Smooth) : (s.setSm a f).run = s.run := by cases a <;> rfl
@[simp] theorem setSm_faultCause (s : State) (a : UnitIx) (f : Smooth) : (s.setSm a f).faultCause = s.faultCause := by cases a <;> rfl
@[simp] theorem setSm_faultInfo (s : State) (a : UnitIx) (f : Smooth) : (s.setSm a f).faultInfo = s.faultInfo := by cases a <;> rfl
@[simp] theorem setSm_cmd (s : State) (a : UnitIx) (f : Smooth) : (s.setSm a f).cmd = s.cmd := by cases a <;> rfl
@[simp] theorem setSm_result (s : State) (a : UnitIx) (f : Smooth) : (s.setSm a f).result = s.result := by cases a <;> rfl
@[simp] theorem setSm_arg0 (s : State) (a : UnitIx) (f : Smooth) : (s.setSm a f).arg0 = s.arg0 := by cases a <;> rfl
@[simp] theorem setSm_arg1 (s : State) (a : UnitIx) (f : Smooth) : (s.setSm a f).arg1 = s.arg1 := by cases a <;> rfl
@[simp] theorem setSm_arg2 (s : State) (a : UnitIx) (f : Smooth) : (s.setSm a f).arg2 = s.arg2 := by cases a <;> rfl
@[simp] theorem setSm_arg3 (s : State) (a : UnitIx) (f : Smooth) : (s.setSm a f).arg3 = s.arg3 := by cases a <;> rfl
@[simp] theorem setSm_arg4 (s : State) (a : UnitIx) (f : Smooth) : (s.setSm a f).arg4 = s.arg4 := by cases a <;> rfl
@[simp] theorem setSm_touchSize (s : State) (a : UnitIx) (f : Smooth) : (s.setSm a f).touchSize = s.touchSize := by cases a <;> rfl
@[simp] theorem setSm_touchX (s : State) (a : UnitIx) (f : Smooth) : (s.setSm a f).touchX = s.touchX := by cases a <;> rfl
@[simp] theorem setSm_touchY (s : State) (a : UnitIx) (f : Smooth) : (s.setSm a f).touchY = s.touchY := by cases a <;> rfl
@[simp] theorem setSm_levelDb (s : State) (a : UnitIx) (f : Smooth) : (s.setSm a f).levelDb = s.levelDb := by cases a <;> rfl
@[simp] theorem setSm_target0 (s : State) (a : UnitIx) (f : Smooth) : (s.setSm a f).target0 = s.target0 := by cases a <;> rfl
@[simp] theorem setSm_target1 (s : State) (a : UnitIx) (f : Smooth) : (s.setSm a f).target1 = s.target1 := by cases a <;> rfl
@[simp] theorem setSm_gain (s : State) (a : UnitIx) (f : Smooth) : (s.setSm a f).gain = s.gain := by cases a <;> rfl
@[simp] theorem setSm_intensity0 (s : State) (a : UnitIx) (f : Smooth) : (s.setSm a f).intensity0 = s.intensity0 := by cases a <;> rfl
@[simp] theorem setSm_intensity1 (s : State) (a : UnitIx) (f : Smooth) : (s.setSm a f).intensity1 = s.intensity1 := by cases a <;> rfl
@[simp] theorem setSm_lastOut (s : State) (a : UnitIx) (f : Smooth) : (s.setSm a f).lastOut = s.lastOut := by cases a <;> rfl
@[simp] theorem setSm_framePos (s : State) (a : UnitIx) (f : Smooth) : (s.setSm a f).framePos = s.framePos := by cases a <;> rfl
@[simp] theorem setSm_sampleCount (s : State) (a : UnitIx) (f : Smooth) : (s.setSm a f).sampleCount = s.sampleCount := by cases a <;> rfl
@[simp] theorem setSm_presence (s : State) (a : UnitIx) (f : Smooth) : (s.setSm a f).presence = s.presence := by cases a <;> rfl
@[simp] theorem setSm_halted (s : State) (a : UnitIx) (f : Smooth) : (s.setSm a f).halted = s.halted := by cases a <;> rfl
@[simp] theorem setSm_osc0 (s : State) (a : UnitIx) (f : Smooth) : (s.setSm a f).osc0 = s.osc0 := by cases a <;> rfl
@[simp] theorem setSm_osc1 (s : State) (a : UnitIx) (f : Smooth) : (s.setSm a f).osc1 = s.osc1 := by cases a <;> rfl
@[simp] theorem setSm_mem (s : State) (a : UnitIx) (f : Smooth) : (s.setSm a f).mem = s.mem := by cases a <;> rfl
@[simp] theorem setSm_dacStream (s : State) (a : UnitIx) (f : Smooth) : (s.setSm a f).dacStream = s.dacStream := by cases a <;> rfl
@[simp] theorem setSm_scopeStream (s : State) (a : UnitIx) (f : Smooth) : (s.setSm a f).scopeStream = s.scopeStream := by cases a <;> rfl
@[simp] theorem setSm_inputs (s : State) (a : UnitIx) (f : Smooth) : (s.setSm a f).inputs = s.inputs := by cases a <;> rfl
@[simp] theorem setSm_responses (s : State) (a : UnitIx) (f : Smooth) : (s.setSm a f).responses = s.responses := by cases a <;> rfl
@[simp] theorem setSm_tableEpoch (s : State) (a : UnitIx) (f : Smooth) : (s.setSm a f).tableEpoch = s.tableEpoch := by cases a <;> rfl

/-! setIntensity -/

@[simp] theorem setIntensity_run (s : State) (a : UnitIx) (v : F32) : (s.setIntensity a v).run = s.run := by cases a <;> rfl
@[simp] theorem setIntensity_faultCause (s : State) (a : UnitIx) (v : F32) : (s.setIntensity a v).faultCause = s.faultCause := by cases a <;> rfl
@[simp] theorem setIntensity_faultInfo (s : State) (a : UnitIx) (v : F32) : (s.setIntensity a v).faultInfo = s.faultInfo := by cases a <;> rfl
@[simp] theorem setIntensity_cmd (s : State) (a : UnitIx) (v : F32) : (s.setIntensity a v).cmd = s.cmd := by cases a <;> rfl
@[simp] theorem setIntensity_result (s : State) (a : UnitIx) (v : F32) : (s.setIntensity a v).result = s.result := by cases a <;> rfl
@[simp] theorem setIntensity_arg0 (s : State) (a : UnitIx) (v : F32) : (s.setIntensity a v).arg0 = s.arg0 := by cases a <;> rfl
@[simp] theorem setIntensity_arg1 (s : State) (a : UnitIx) (v : F32) : (s.setIntensity a v).arg1 = s.arg1 := by cases a <;> rfl
@[simp] theorem setIntensity_arg2 (s : State) (a : UnitIx) (v : F32) : (s.setIntensity a v).arg2 = s.arg2 := by cases a <;> rfl
@[simp] theorem setIntensity_arg3 (s : State) (a : UnitIx) (v : F32) : (s.setIntensity a v).arg3 = s.arg3 := by cases a <;> rfl
@[simp] theorem setIntensity_arg4 (s : State) (a : UnitIx) (v : F32) : (s.setIntensity a v).arg4 = s.arg4 := by cases a <;> rfl
@[simp] theorem setIntensity_touchSize (s : State) (a : UnitIx) (v : F32) : (s.setIntensity a v).touchSize = s.touchSize := by cases a <;> rfl
@[simp] theorem setIntensity_touchX (s : State) (a : UnitIx) (v : F32) : (s.setIntensity a v).touchX = s.touchX := by cases a <;> rfl
@[simp] theorem setIntensity_touchY (s : State) (a : UnitIx) (v : F32) : (s.setIntensity a v).touchY = s.touchY := by cases a <;> rfl
@[simp] theorem setIntensity_levelDb (s : State) (a : UnitIx) (v : F32) : (s.setIntensity a v).levelDb = s.levelDb := by cases a <;> rfl
@[simp] theorem setIntensity_target0 (s : State) (a : UnitIx) (v : F32) : (s.setIntensity a v).target0 = s.target0 := by cases a <;> rfl
@[simp] theorem setIntensity_target1 (s : State) (a : UnitIx) (v : F32) : (s.setIntensity a v).target1 = s.target1 := by cases a <;> rfl
@[simp] theorem setIntensity_gain (s : State) (a : UnitIx) (v : F32) : (s.setIntensity a v).gain = s.gain := by cases a <;> rfl
@[simp] theorem setIntensity_lastOut (s : State) (a : UnitIx) (v : F32) : (s.setIntensity a v).lastOut = s.lastOut := by cases a <;> rfl
@[simp] theorem setIntensity_framePos (s : State) (a : UnitIx) (v : F32) : (s.setIntensity a v).framePos = s.framePos := by cases a <;> rfl
@[simp] theorem setIntensity_sampleCount (s : State) (a : UnitIx) (v : F32) : (s.setIntensity a v).sampleCount = s.sampleCount := by cases a <;> rfl
@[simp] theorem setIntensity_presence (s : State) (a : UnitIx) (v : F32) : (s.setIntensity a v).presence = s.presence := by cases a <;> rfl
@[simp] theorem setIntensity_halted (s : State) (a : UnitIx) (v : F32) : (s.setIntensity a v).halted = s.halted := by cases a <;> rfl
@[simp] theorem setIntensity_osc0 (s : State) (a : UnitIx) (v : F32) : (s.setIntensity a v).osc0 = s.osc0 := by cases a <;> rfl
@[simp] theorem setIntensity_osc1 (s : State) (a : UnitIx) (v : F32) : (s.setIntensity a v).osc1 = s.osc1 := by cases a <;> rfl
@[simp] theorem setIntensity_sm0 (s : State) (a : UnitIx) (v : F32) : (s.setIntensity a v).sm0 = s.sm0 := by cases a <;> rfl
@[simp] theorem setIntensity_sm1 (s : State) (a : UnitIx) (v : F32) : (s.setIntensity a v).sm1 = s.sm1 := by cases a <;> rfl
@[simp] theorem setIntensity_mem (s : State) (a : UnitIx) (v : F32) : (s.setIntensity a v).mem = s.mem := by cases a <;> rfl
@[simp] theorem setIntensity_dacStream (s : State) (a : UnitIx) (v : F32) : (s.setIntensity a v).dacStream = s.dacStream := by cases a <;> rfl
@[simp] theorem setIntensity_scopeStream (s : State) (a : UnitIx) (v : F32) : (s.setIntensity a v).scopeStream = s.scopeStream := by cases a <;> rfl
@[simp] theorem setIntensity_inputs (s : State) (a : UnitIx) (v : F32) : (s.setIntensity a v).inputs = s.inputs := by cases a <;> rfl
@[simp] theorem setIntensity_responses (s : State) (a : UnitIx) (v : F32) : (s.setIntensity a v).responses = s.responses := by cases a <;> rfl
@[simp] theorem setIntensity_tableEpoch (s : State) (a : UnitIx) (v : F32) : (s.setIntensity a v).tableEpoch = s.tableEpoch := by cases a <;> rfl

/-! setResult -/

@[simp] theorem setResult_run (s : State) (v : F32) : (s.setResult v).run = s.run := rfl
@[simp] theorem setResult_faultCause (s : State) (v : F32) : (s.setResult v).faultCause = s.faultCause := rfl
@[simp] theorem setResult_faultInfo (s : State) (v : F32) : (s.setResult v).faultInfo = s.faultInfo := rfl
@[simp] theorem setResult_cmd (s : State) (v : F32) : (s.setResult v).cmd = s.cmd := rfl
@[simp] theorem setResult_result (s : State) (v : F32) : (s.setResult v).result = v := rfl
@[simp] theorem setResult_arg0 (s : State) (v : F32) : (s.setResult v).arg0 = s.arg0 := rfl
@[simp] theorem setResult_arg1 (s : State) (v : F32) : (s.setResult v).arg1 = s.arg1 := rfl
@[simp] theorem setResult_arg2 (s : State) (v : F32) : (s.setResult v).arg2 = s.arg2 := rfl
@[simp] theorem setResult_arg3 (s : State) (v : F32) : (s.setResult v).arg3 = s.arg3 := rfl
@[simp] theorem setResult_arg4 (s : State) (v : F32) : (s.setResult v).arg4 = s.arg4 := rfl
@[simp] theorem setResult_touchSize (s : State) (v : F32) : (s.setResult v).touchSize = s.touchSize := rfl
@[simp] theorem setResult_touchX (s : State) (v : F32) : (s.setResult v).touchX = s.touchX := rfl
@[simp] theorem setResult_touchY (s : State) (v : F32) : (s.setResult v).touchY = s.touchY := rfl
@[simp] theorem setResult_levelDb (s : State) (v : F32) : (s.setResult v).levelDb = s.levelDb := rfl
@[simp] theorem setResult_target0 (s : State) (v : F32) : (s.setResult v).target0 = s.target0 := rfl
@[simp] theorem setResult_target1 (s : State) (v : F32) : (s.setResult v).target1 = s.target1 := rfl
@[simp] theorem setResult_gain (s : State) (v : F32) : (s.setResult v).gain = s.gain := rfl
@[simp] theorem setResult_intensity0 (s : State) (v : F32) : (s.setResult v).intensity0 = s.intensity0 := rfl
@[simp] theorem setResult_intensity1 (s : State) (v : F32) : (s.setResult v).intensity1 = s.intensity1 := rfl
@[simp] theorem setResult_lastOut (s : State) (v : F32) : (s.setResult v).lastOut = s.lastOut := rfl
@[simp] theorem setResult_framePos (s : State) (v : F32) : (s.setResult v).framePos = s.framePos := rfl
@[simp] theorem setResult_sampleCount (s : State) (v : F32) : (s.setResult v).sampleCount = s.sampleCount := rfl
@[simp] theorem setResult_presence (s : State) (v : F32) : (s.setResult v).presence = s.presence := rfl
@[simp] theorem setResult_halted (s : State) (v : F32) : (s.setResult v).halted = s.halted := rfl
@[simp] theorem setResult_osc0 (s : State) (v : F32) : (s.setResult v).osc0 = s.osc0 := rfl
@[simp] theorem setResult_osc1 (s : State) (v : F32) : (s.setResult v).osc1 = s.osc1 := rfl
@[simp] theorem setResult_sm0 (s : State) (v : F32) : (s.setResult v).sm0 = s.sm0 := rfl
@[simp] theorem setResult_sm1 (s : State) (v : F32) : (s.setResult v).sm1 = s.sm1 := rfl
@[simp] theorem setResult_mem (s : State) (v : F32) : (s.setResult v).mem = s.mem := rfl
@[simp] theorem setResult_dacStream (s : State) (v : F32) : (s.setResult v).dacStream = s.dacStream := rfl
@[simp] theorem setResult_scopeStream (s : State) (v : F32) : (s.setResult v).scopeStream = s.scopeStream := rfl
@[simp] theorem setResult_inputs (s : State) (v : F32) : (s.setResult v).inputs = s.inputs := rfl
@[simp] theorem setResult_responses (s : State) (v : F32) : (s.setResult v).responses = s.responses := rfl
@[simp] theorem setResult_tableEpoch (s : State) (v : F32) : (s.setResult v).tableEpoch = s.tableEpoch := rfl

/-! takeFault -/

@[simp] theorem takeFault_run (src : Bool) (w : Word) (f : BlockFault) (s : State) : (takeFault src w f s).run = s.run := rfl
@[simp] theorem takeFault_faultCause (src : Bool) (w : Word) (f : BlockFault) (s : State) : (takeFault src w f s).faultCause = causeWord src f := rfl
@[simp] theorem takeFault_faultInfo (src : Bool) (w : Word) (f : BlockFault) (s : State) : (takeFault src w f s).faultInfo = w := rfl
@[simp] theorem takeFault_cmd (src : Bool) (w : Word) (f : BlockFault) (s : State) : (takeFault src w f s).cmd = s.cmd := rfl
@[simp] theorem takeFault_result (src : Bool) (w : Word) (f : BlockFault) (s : State) : (takeFault src w f s).result = s.result := rfl
@[simp] theorem takeFault_arg0 (src : Bool) (w : Word) (f : BlockFault) (s : State) : (takeFault src w f s).arg0 = s.arg0 := rfl
@[simp] theorem takeFault_arg1 (src : Bool) (w : Word) (f : BlockFault) (s : State) : (takeFault src w f s).arg1 = s.arg1 := rfl
@[simp] theorem takeFault_arg2 (src : Bool) (w : Word) (f : BlockFault) (s : State) : (takeFault src w f s).arg2 = s.arg2 := rfl
@[simp] theorem takeFault_arg3 (src : Bool) (w : Word) (f : BlockFault) (s : State) : (takeFault src w f s).arg3 = s.arg3 := rfl
@[simp] theorem takeFault_arg4 (src : Bool) (w : Word) (f : BlockFault) (s : State) : (takeFault src w f s).arg4 = s.arg4 := rfl
@[simp] theorem takeFault_touchSize (src : Bool) (w : Word) (f : BlockFault) (s : State) : (takeFault src w f s).touchSize = s.touchSize := rfl
@[simp] theorem takeFault_touchX (src : Bool) (w : Word) (f : BlockFault) (s : State) : (takeFault src w f s).touchX = s.touchX := rfl
@[simp] theorem takeFault_touchY (src : Bool) (w : Word) (f : BlockFault) (s : State) : (takeFault src w f s).touchY = s.touchY := rfl
@[simp] theorem takeFault_levelDb (src : Bool) (w : Word) (f : BlockFault) (s : State) : (takeFault src w f s).levelDb = s.levelDb := rfl
@[simp] theorem takeFault_target0 (src : Bool) (w : Word) (f : BlockFault) (s : State) : (takeFault src w f s).target0 = s.target0 := rfl
@[simp] theorem takeFault_target1 (src : Bool) (w : Word) (f : BlockFault) (s : State) : (takeFault src w f s).target1 = s.target1 := rfl
@[simp] theorem takeFault_gain (src : Bool) (w : Word) (f : BlockFault) (s : State) : (takeFault src w f s).gain = s.gain := rfl
@[simp] theorem takeFault_intensity0 (src : Bool) (w : Word) (f : BlockFault) (s : State) : (takeFault src w f s).intensity0 = s.intensity0 := rfl
@[simp] theorem takeFault_intensity1 (src : Bool) (w : Word) (f : BlockFault) (s : State) : (takeFault src w f s).intensity1 = s.intensity1 := rfl
@[simp] theorem takeFault_lastOut (src : Bool) (w : Word) (f : BlockFault) (s : State) : (takeFault src w f s).lastOut = s.lastOut := rfl
@[simp] theorem takeFault_framePos (src : Bool) (w : Word) (f : BlockFault) (s : State) : (takeFault src w f s).framePos = s.framePos := rfl
@[simp] theorem takeFault_sampleCount (src : Bool) (w : Word) (f : BlockFault) (s : State) : (takeFault src w f s).sampleCount = s.sampleCount := rfl
@[simp] theorem takeFault_presence (src : Bool) (w : Word) (f : BlockFault) (s : State) : (takeFault src w f s).presence = s.presence := rfl
@[simp] theorem takeFault_halted (src : Bool) (w : Word) (f : BlockFault) (s : State) : (takeFault src w f s).halted = true := rfl
@[simp] theorem takeFault_osc0 (src : Bool) (w : Word) (f : BlockFault) (s : State) : (takeFault src w f s).osc0 = s.osc0 := rfl
@[simp] theorem takeFault_osc1 (src : Bool) (w : Word) (f : BlockFault) (s : State) : (takeFault src w f s).osc1 = s.osc1 := rfl
@[simp] theorem takeFault_sm0 (src : Bool) (w : Word) (f : BlockFault) (s : State) : (takeFault src w f s).sm0 = s.sm0 := rfl
@[simp] theorem takeFault_sm1 (src : Bool) (w : Word) (f : BlockFault) (s : State) : (takeFault src w f s).sm1 = s.sm1 := rfl
@[simp] theorem takeFault_mem (src : Bool) (w : Word) (f : BlockFault) (s : State) : (takeFault src w f s).mem = s.mem := rfl
@[simp] theorem takeFault_dacStream (src : Bool) (w : Word) (f : BlockFault) (s : State) : (takeFault src w f s).dacStream = s.dacStream := rfl
@[simp] theorem takeFault_scopeStream (src : Bool) (w : Word) (f : BlockFault) (s : State) : (takeFault src w f s).scopeStream = s.scopeStream := rfl
@[simp] theorem takeFault_inputs (src : Bool) (w : Word) (f : BlockFault) (s : State) : (takeFault src w f s).inputs = s.inputs := rfl
@[simp] theorem takeFault_responses (src : Bool) (w : Word) (f : BlockFault) (s : State) : (takeFault src w f s).responses = s.responses := rfl
@[simp] theorem takeFault_tableEpoch (src : Bool) (w : Word) (f : BlockFault) (s : State) : (takeFault src w f s).tableEpoch = s.tableEpoch := rfl

/-! copyTable -/

@[simp] theorem copyTable_run (k : UnitIx) (n : Nat) (s : State) : (copyTable k n s).run = s.run := rfl
@[simp] theorem copyTable_faultCause (k : UnitIx) (n : Nat) (s : State) : (copyTable k n s).faultCause = s.faultCause := rfl
@[simp] theorem copyTable_faultInfo (k : UnitIx) (n : Nat) (s : State) : (copyTable k n s).faultInfo = s.faultInfo := rfl
@[simp] theorem copyTable_cmd (k : UnitIx) (n : Nat) (s : State) : (copyTable k n s).cmd = s.cmd := rfl
@[simp] theorem copyTable_result (k : UnitIx) (n : Nat) (s : State) : (copyTable k n s).result = s.result := rfl
@[simp] theorem copyTable_arg0 (k : UnitIx) (n : Nat) (s : State) : (copyTable k n s).arg0 = s.arg0 := rfl
@[simp] theorem copyTable_arg1 (k : UnitIx) (n : Nat) (s : State) : (copyTable k n s).arg1 = s.arg1 := rfl
@[simp] theorem copyTable_arg2 (k : UnitIx) (n : Nat) (s : State) : (copyTable k n s).arg2 = s.arg2 := rfl
@[simp] theorem copyTable_arg3 (k : UnitIx) (n : Nat) (s : State) : (copyTable k n s).arg3 = s.arg3 := rfl
@[simp] theorem copyTable_arg4 (k : UnitIx) (n : Nat) (s : State) : (copyTable k n s).arg4 = s.arg4 := rfl
@[simp] theorem copyTable_touchSize (k : UnitIx) (n : Nat) (s : State) : (copyTable k n s).touchSize = s.touchSize := rfl
@[simp] theorem copyTable_touchX (k : UnitIx) (n : Nat) (s : State) : (copyTable k n s).touchX = s.touchX := rfl
@[simp] theorem copyTable_touchY (k : UnitIx) (n : Nat) (s : State) : (copyTable k n s).touchY = s.touchY := rfl
@[simp] theorem copyTable_levelDb (k : UnitIx) (n : Nat) (s : State) : (copyTable k n s).levelDb = s.levelDb := rfl
@[simp] theorem copyTable_target0 (k : UnitIx) (n : Nat) (s : State) : (copyTable k n s).target0 = s.target0 := rfl
@[simp] theorem copyTable_target1 (k : UnitIx) (n : Nat) (s : State) : (copyTable k n s).target1 = s.target1 := rfl
@[simp] theorem copyTable_gain (k : UnitIx) (n : Nat) (s : State) : (copyTable k n s).gain = s.gain := rfl
@[simp] theorem copyTable_intensity0 (k : UnitIx) (n : Nat) (s : State) : (copyTable k n s).intensity0 = s.intensity0 := rfl
@[simp] theorem copyTable_intensity1 (k : UnitIx) (n : Nat) (s : State) : (copyTable k n s).intensity1 = s.intensity1 := rfl
@[simp] theorem copyTable_lastOut (k : UnitIx) (n : Nat) (s : State) : (copyTable k n s).lastOut = s.lastOut := rfl
@[simp] theorem copyTable_framePos (k : UnitIx) (n : Nat) (s : State) : (copyTable k n s).framePos = s.framePos := rfl
@[simp] theorem copyTable_sampleCount (k : UnitIx) (n : Nat) (s : State) : (copyTable k n s).sampleCount = s.sampleCount := rfl
@[simp] theorem copyTable_presence (k : UnitIx) (n : Nat) (s : State) : (copyTable k n s).presence = s.presence := rfl
@[simp] theorem copyTable_halted (k : UnitIx) (n : Nat) (s : State) : (copyTable k n s).halted = s.halted := rfl
@[simp] theorem copyTable_osc0 (k : UnitIx) (n : Nat) (s : State) : (copyTable k n s).osc0 = s.osc0 := rfl
@[simp] theorem copyTable_osc1 (k : UnitIx) (n : Nat) (s : State) : (copyTable k n s).osc1 = s.osc1 := rfl
@[simp] theorem copyTable_sm0 (k : UnitIx) (n : Nat) (s : State) : (copyTable k n s).sm0 = s.sm0 := rfl
@[simp] theorem copyTable_sm1 (k : UnitIx) (n : Nat) (s : State) : (copyTable k n s).sm1 = s.sm1 := rfl
@[simp] theorem copyTable_mem (k : UnitIx) (n : Nat) (s : State) : (copyTable k n s).mem = s.mem.setWords (actBase k) (stgWord s k) n := rfl
@[simp] theorem copyTable_dacStream (k : UnitIx) (n : Nat) (s : State) : (copyTable k n s).dacStream = s.dacStream := rfl
@[simp] theorem copyTable_scopeStream (k : UnitIx) (n : Nat) (s : State) : (copyTable k n s).scopeStream = s.scopeStream := rfl
@[simp] theorem copyTable_inputs (k : UnitIx) (n : Nat) (s : State) : (copyTable k n s).inputs = s.inputs := rfl
@[simp] theorem copyTable_responses (k : UnitIx) (n : Nat) (s : State) : (copyTable k n s).responses = s.responses := rfl
@[simp] theorem copyTable_tableEpoch (k : UnitIx) (n : Nat) (s : State) : (copyTable k n s).tableEpoch = s.tableEpoch := rfl

/-! setStgWord -/

@[simp] theorem setStgWord_run (k : UnitIx) (i : Nat) (v : Word) (s : State) : (setStgWord k i v s).run = s.run := rfl
@[simp] theorem setStgWord_faultCause (k : UnitIx) (i : Nat) (v : Word) (s : State) : (setStgWord k i v s).faultCause = s.faultCause := rfl
@[simp] theorem setStgWord_faultInfo (k : UnitIx) (i : Nat) (v : Word) (s : State) : (setStgWord k i v s).faultInfo = s.faultInfo := rfl
@[simp] theorem setStgWord_cmd (k : UnitIx) (i : Nat) (v : Word) (s : State) : (setStgWord k i v s).cmd = s.cmd := rfl
@[simp] theorem setStgWord_result (k : UnitIx) (i : Nat) (v : Word) (s : State) : (setStgWord k i v s).result = s.result := rfl
@[simp] theorem setStgWord_arg0 (k : UnitIx) (i : Nat) (v : Word) (s : State) : (setStgWord k i v s).arg0 = s.arg0 := rfl
@[simp] theorem setStgWord_arg1 (k : UnitIx) (i : Nat) (v : Word) (s : State) : (setStgWord k i v s).arg1 = s.arg1 := rfl
@[simp] theorem setStgWord_arg2 (k : UnitIx) (i : Nat) (v : Word) (s : State) : (setStgWord k i v s).arg2 = s.arg2 := rfl
@[simp] theorem setStgWord_arg3 (k : UnitIx) (i : Nat) (v : Word) (s : State) : (setStgWord k i v s).arg3 = s.arg3 := rfl
@[simp] theorem setStgWord_arg4 (k : UnitIx) (i : Nat) (v : Word) (s : State) : (setStgWord k i v s).arg4 = s.arg4 := rfl
@[simp] theorem setStgWord_touchSize (k : UnitIx) (i : Nat) (v : Word) (s : State) : (setStgWord k i v s).touchSize = s.touchSize := rfl
@[simp] theorem setStgWord_touchX (k : UnitIx) (i : Nat) (v : Word) (s : State) : (setStgWord k i v s).touchX = s.touchX := rfl
@[simp] theorem setStgWord_touchY (k : UnitIx) (i : Nat) (v : Word) (s : State) : (setStgWord k i v s).touchY = s.touchY := rfl
@[simp] theorem setStgWord_levelDb (k : UnitIx) (i : Nat) (v : Word) (s : State) : (setStgWord k i v s).levelDb = s.levelDb := rfl
@[simp] theorem setStgWord_target0 (k : UnitIx) (i : Nat) (v : Word) (s : State) : (setStgWord k i v s).target0 = s.target0 := rfl
@[simp] theorem setStgWord_target1 (k : UnitIx) (i : Nat) (v : Word) (s : State) : (setStgWord k i v s).target1 = s.target1 := rfl
@[simp] theorem setStgWord_gain (k : UnitIx) (i : Nat) (v : Word) (s : State) : (setStgWord k i v s).gain = s.gain := rfl
@[simp] theorem setStgWord_intensity0 (k : UnitIx) (i : Nat) (v : Word) (s : State) : (setStgWord k i v s).intensity0 = s.intensity0 := rfl
@[simp] theorem setStgWord_intensity1 (k : UnitIx) (i : Nat) (v : Word) (s : State) : (setStgWord k i v s).intensity1 = s.intensity1 := rfl
@[simp] theorem setStgWord_lastOut (k : UnitIx) (i : Nat) (v : Word) (s : State) : (setStgWord k i v s).lastOut = s.lastOut := rfl
@[simp] theorem setStgWord_framePos (k : UnitIx) (i : Nat) (v : Word) (s : State) : (setStgWord k i v s).framePos = s.framePos := rfl
@[simp] theorem setStgWord_sampleCount (k : UnitIx) (i : Nat) (v : Word) (s : State) : (setStgWord k i v s).sampleCount = s.sampleCount := rfl
@[simp] theorem setStgWord_presence (k : UnitIx) (i : Nat) (v : Word) (s : State) : (setStgWord k i v s).presence = s.presence := rfl
@[simp] theorem setStgWord_halted (k : UnitIx) (i : Nat) (v : Word) (s : State) : (setStgWord k i v s).halted = s.halted := rfl
@[simp] theorem setStgWord_osc0 (k : UnitIx) (i : Nat) (v : Word) (s : State) : (setStgWord k i v s).osc0 = s.osc0 := rfl
@[simp] theorem setStgWord_osc1 (k : UnitIx) (i : Nat) (v : Word) (s : State) : (setStgWord k i v s).osc1 = s.osc1 := rfl
@[simp] theorem setStgWord_sm0 (k : UnitIx) (i : Nat) (v : Word) (s : State) : (setStgWord k i v s).sm0 = s.sm0 := rfl
@[simp] theorem setStgWord_sm1 (k : UnitIx) (i : Nat) (v : Word) (s : State) : (setStgWord k i v s).sm1 = s.sm1 := rfl
@[simp] theorem setStgWord_mem (k : UnitIx) (i : Nat) (v : Word) (s : State) : (setStgWord k i v s).mem = s.mem.setWord (stgBase k + 4 * i) v := rfl
@[simp] theorem setStgWord_dacStream (k : UnitIx) (i : Nat) (v : Word) (s : State) : (setStgWord k i v s).dacStream = s.dacStream := rfl
@[simp] theorem setStgWord_scopeStream (k : UnitIx) (i : Nat) (v : Word) (s : State) : (setStgWord k i v s).scopeStream = s.scopeStream := rfl
@[simp] theorem setStgWord_inputs (k : UnitIx) (i : Nat) (v : Word) (s : State) : (setStgWord k i v s).inputs = s.inputs := rfl
@[simp] theorem setStgWord_responses (k : UnitIx) (i : Nat) (v : Word) (s : State) : (setStgWord k i v s).responses = s.responses := rfl
@[simp] theorem setStgWord_tableEpoch (k : UnitIx) (i : Nat) (v : Word) (s : State) : (setStgWord k i v s).tableEpoch = s.tableEpoch := rfl

/-! latchCmd -/

@[simp] theorem latchCmd_run (v : Word) (s : State) : (latchCmd v s).run = s.run := rfl
@[simp] theorem latchCmd_faultCause (v : Word) (s : State) : (latchCmd v s).faultCause = s.faultCause := rfl
@[simp] theorem latchCmd_faultInfo (v : Word) (s : State) : (latchCmd v s).faultInfo = s.faultInfo := rfl
@[simp] theorem latchCmd_cmd (v : Word) (s : State) : (latchCmd v s).cmd = v := rfl
@[simp] theorem latchCmd_result (v : Word) (s : State) : (latchCmd v s).result = s.result := rfl
@[simp] theorem latchCmd_arg0 (v : Word) (s : State) : (latchCmd v s).arg0 = s.arg0 := rfl
@[simp] theorem latchCmd_arg1 (v : Word) (s : State) : (latchCmd v s).arg1 = s.arg1 := rfl
@[simp] theorem latchCmd_arg2 (v : Word) (s : State) : (latchCmd v s).arg2 = s.arg2 := rfl
@[simp] theorem latchCmd_arg3 (v : Word) (s : State) : (latchCmd v s).arg3 = s.arg3 := rfl
@[simp] theorem latchCmd_arg4 (v : Word) (s : State) : (latchCmd v s).arg4 = s.arg4 := rfl
@[simp] theorem latchCmd_touchSize (v : Word) (s : State) : (latchCmd v s).touchSize = s.touchSize := rfl
@[simp] theorem latchCmd_touchX (v : Word) (s : State) : (latchCmd v s).touchX = s.touchX := rfl
@[simp] theorem latchCmd_touchY (v : Word) (s : State) : (latchCmd v s).touchY = s.touchY := rfl
@[simp] theorem latchCmd_levelDb (v : Word) (s : State) : (latchCmd v s).levelDb = s.levelDb := rfl
@[simp] theorem latchCmd_target0 (v : Word) (s : State) : (latchCmd v s).target0 = s.target0 := rfl
@[simp] theorem latchCmd_target1 (v : Word) (s : State) : (latchCmd v s).target1 = s.target1 := rfl
@[simp] theorem latchCmd_gain (v : Word) (s : State) : (latchCmd v s).gain = s.gain := rfl
@[simp] theorem latchCmd_intensity0 (v : Word) (s : State) : (latchCmd v s).intensity0 = s.intensity0 := rfl
@[simp] theorem latchCmd_intensity1 (v : Word) (s : State) : (latchCmd v s).intensity1 = s.intensity1 := rfl
@[simp] theorem latchCmd_lastOut (v : Word) (s : State) : (latchCmd v s).lastOut = s.lastOut := rfl
@[simp] theorem latchCmd_framePos (v : Word) (s : State) : (latchCmd v s).framePos = s.framePos := rfl
@[simp] theorem latchCmd_sampleCount (v : Word) (s : State) : (latchCmd v s).sampleCount = s.sampleCount := rfl
@[simp] theorem latchCmd_presence (v : Word) (s : State) : (latchCmd v s).presence = s.presence := rfl
@[simp] theorem latchCmd_halted (v : Word) (s : State) : (latchCmd v s).halted = s.halted := rfl
@[simp] theorem latchCmd_osc0 (v : Word) (s : State) : (latchCmd v s).osc0 = s.osc0 := rfl
@[simp] theorem latchCmd_osc1 (v : Word) (s : State) : (latchCmd v s).osc1 = s.osc1 := rfl
@[simp] theorem latchCmd_sm0 (v : Word) (s : State) : (latchCmd v s).sm0 = s.sm0 := rfl
@[simp] theorem latchCmd_sm1 (v : Word) (s : State) : (latchCmd v s).sm1 = s.sm1 := rfl
@[simp] theorem latchCmd_mem (v : Word) (s : State) : (latchCmd v s).mem = s.mem := rfl
@[simp] theorem latchCmd_dacStream (v : Word) (s : State) : (latchCmd v s).dacStream = s.dacStream := rfl
@[simp] theorem latchCmd_scopeStream (v : Word) (s : State) : (latchCmd v s).scopeStream = s.scopeStream := rfl
@[simp] theorem latchCmd_inputs (v : Word) (s : State) : (latchCmd v s).inputs = s.inputs := rfl
@[simp] theorem latchCmd_responses (v : Word) (s : State) : (latchCmd v s).responses = s.responses := rfl
@[simp] theorem latchCmd_tableEpoch (v : Word) (s : State) : (latchCmd v s).tableEpoch = s.tableEpoch := rfl

/-! frameStep -/

@[simp] theorem frameStep_run (p : Params) (s : State) : (frameStep p s).run = s.run := rfl
@[simp] theorem frameStep_faultCause (p : Params) (s : State) : (frameStep p s).faultCause = s.faultCause := rfl
@[simp] theorem frameStep_faultInfo (p : Params) (s : State) : (frameStep p s).faultInfo = s.faultInfo := rfl
@[simp] theorem frameStep_cmd (p : Params) (s : State) : (frameStep p s).cmd = s.cmd := rfl
@[simp] theorem frameStep_result (p : Params) (s : State) : (frameStep p s).result = s.result := rfl
@[simp] theorem frameStep_arg0 (p : Params) (s : State) : (frameStep p s).arg0 = s.arg0 := rfl
@[simp] theorem frameStep_arg1 (p : Params) (s : State) : (frameStep p s).arg1 = s.arg1 := rfl
@[simp] theorem frameStep_arg2 (p : Params) (s : State) : (frameStep p s).arg2 = s.arg2 := rfl
@[simp] theorem frameStep_arg3 (p : Params) (s : State) : (frameStep p s).arg3 = s.arg3 := rfl
@[simp] theorem frameStep_arg4 (p : Params) (s : State) : (frameStep p s).arg4 = s.arg4 := rfl
@[simp] theorem frameStep_touchSize (p : Params) (s : State) : (frameStep p s).touchSize = s.touchSize := rfl
@[simp] theorem frameStep_touchX (p : Params) (s : State) : (frameStep p s).touchX = s.touchX := rfl
@[simp] theorem frameStep_touchY (p : Params) (s : State) : (frameStep p s).touchY = s.touchY := rfl
@[simp] theorem frameStep_levelDb (p : Params) (s : State) : (frameStep p s).levelDb = s.levelDb := rfl
@[simp] theorem frameStep_target0 (p : Params) (s : State) : (frameStep p s).target0 = if touchGate s.touchSize then s.touchX else s.target0 := rfl
@[simp] theorem frameStep_target1 (p : Params) (s : State) : (frameStep p s).target1 = if touchGate s.touchSize then s.touchY else s.target1 := rfl
@[simp] theorem frameStep_gain (p : Params) (s : State) : (frameStep p s).gain = gainFn p s.levelDb := rfl
@[simp] theorem frameStep_intensity0 (p : Params) (s : State) : (frameStep p s).intensity0 = s.intensity0 := rfl
@[simp] theorem frameStep_intensity1 (p : Params) (s : State) : (frameStep p s).intensity1 = s.intensity1 := rfl
@[simp] theorem frameStep_lastOut (p : Params) (s : State) : (frameStep p s).lastOut = s.lastOut := rfl
@[simp] theorem frameStep_framePos (p : Params) (s : State) : (frameStep p s).framePos = s.framePos := rfl
@[simp] theorem frameStep_sampleCount (p : Params) (s : State) : (frameStep p s).sampleCount = s.sampleCount := rfl
@[simp] theorem frameStep_presence (p : Params) (s : State) : (frameStep p s).presence = touchGate s.touchSize := rfl
@[simp] theorem frameStep_halted (p : Params) (s : State) : (frameStep p s).halted = s.halted := rfl
@[simp] theorem frameStep_osc0 (p : Params) (s : State) : (frameStep p s).osc0 = s.osc0 := rfl
@[simp] theorem frameStep_osc1 (p : Params) (s : State) : (frameStep p s).osc1 = s.osc1 := rfl
@[simp] theorem frameStep_sm0 (p : Params) (s : State) : (frameStep p s).sm0 = s.sm0 := rfl
@[simp] theorem frameStep_sm1 (p : Params) (s : State) : (frameStep p s).sm1 = s.sm1 := rfl
@[simp] theorem frameStep_mem (p : Params) (s : State) : (frameStep p s).mem = s.mem := rfl
@[simp] theorem frameStep_dacStream (p : Params) (s : State) : (frameStep p s).dacStream = s.dacStream := rfl
@[simp] theorem frameStep_scopeStream (p : Params) (s : State) : (frameStep p s).scopeStream = s.scopeStream := rfl
@[simp] theorem frameStep_inputs (p : Params) (s : State) : (frameStep p s).inputs = s.inputs := rfl
@[simp] theorem frameStep_responses (p : Params) (s : State) : (frameStep p s).responses = s.responses := rfl
@[simp] theorem frameStep_tableEpoch (p : Params) (s : State) : (frameStep p s).tableEpoch = s.tableEpoch := rfl

/-! emitSample -/

@[simp] theorem emitSample_run (v : F32) (s : State) : (emitSample v s).run = s.run := rfl
@[simp] theorem emitSample_faultCause (v : F32) (s : State) : (emitSample v s).faultCause = s.faultCause := rfl
@[simp] theorem emitSample_faultInfo (v : F32) (s : State) : (emitSample v s).faultInfo = s.faultInfo := rfl
@[simp] theorem emitSample_cmd (v : F32) (s : State) : (emitSample v s).cmd = s.cmd := rfl
@[simp] theorem emitSample_result (v : F32) (s : State) : (emitSample v s).result = s.result := rfl
@[simp] theorem emitSample_arg0 (v : F32) (s : State) : (emitSample v s).arg0 = s.arg0 := rfl
@[simp] theorem emitSample_arg1 (v : F32) (s : State) : (emitSample v s).arg1 = s.arg1 := rfl
@[simp] theorem emitSample_arg2 (v : F32) (s : State) : (emitSample v s).arg2 = s.arg2 := rfl
@[simp] theorem emitSample_arg3 (v : F32) (s : State) : (emitSample v s).arg3 = s.arg3 := rfl
@[simp] theorem emitSample_arg4 (v : F32) (s : State) : (emitSample v s).arg4 = s.arg4 := rfl
@[simp] theorem emitSample_touchSize (v : F32) (s : State) : (emitSample v s).touchSize = s.touchSize := rfl
@[simp] theorem emitSample_touchX (v : F32) (s : State) : (emitSample v s).touchX = s.touchX := rfl
@[simp] theorem emitSample_touchY (v : F32) (s : State) : (emitSample v s).touchY = s.touchY := rfl
@[simp] theorem emitSample_levelDb (v : F32) (s : State) : (emitSample v s).levelDb = s.levelDb := rfl
@[simp] theorem emitSample_target0 (v : F32) (s : State) : (emitSample v s).target0 = s.target0 := rfl
@[simp] theorem emitSample_target1 (v : F32) (s : State) : (emitSample v s).target1 = s.target1 := rfl
@[simp] theorem emitSample_gain (v : F32) (s : State) : (emitSample v s).gain = s.gain := rfl
@[simp] theorem emitSample_intensity0 (v : F32) (s : State) : (emitSample v s).intensity0 = s.intensity0 := rfl
@[simp] theorem emitSample_intensity1 (v : F32) (s : State) : (emitSample v s).intensity1 = s.intensity1 := rfl
@[simp] theorem emitSample_lastOut (v : F32) (s : State) : (emitSample v s).lastOut = v := rfl
@[simp] theorem emitSample_framePos (v : F32) (s : State) : (emitSample v s).framePos = s.framePos := rfl
@[simp] theorem emitSample_sampleCount (v : F32) (s : State) : (emitSample v s).sampleCount = s.sampleCount := rfl
@[simp] theorem emitSample_presence (v : F32) (s : State) : (emitSample v s).presence = s.presence := rfl
@[simp] theorem emitSample_halted (v : F32) (s : State) : (emitSample v s).halted = s.halted := rfl
@[simp] theorem emitSample_osc0 (v : F32) (s : State) : (emitSample v s).osc0 = s.osc0 := rfl
@[simp] theorem emitSample_osc1 (v : F32) (s : State) : (emitSample v s).osc1 = s.osc1 := rfl
@[simp] theorem emitSample_sm0 (v : F32) (s : State) : (emitSample v s).sm0 = s.sm0 := rfl
@[simp] theorem emitSample_sm1 (v : F32) (s : State) : (emitSample v s).sm1 = s.sm1 := rfl
@[simp] theorem emitSample_mem (v : F32) (s : State) : (emitSample v s).mem = s.mem := rfl
@[simp] theorem emitSample_dacStream (v : F32) (s : State) : (emitSample v s).dacStream = s.dacStream ++ [v] := rfl
@[simp] theorem emitSample_scopeStream (v : F32) (s : State) : (emitSample v s).scopeStream = s.scopeStream ++ [⟨v, s.target0, s.target1⟩] := rfl
@[simp] theorem emitSample_inputs (v : F32) (s : State) : (emitSample v s).inputs = s.inputs := rfl
@[simp] theorem emitSample_responses (v : F32) (s : State) : (emitSample v s).responses = s.responses := rfl
@[simp] theorem emitSample_tableEpoch (v : F32) (s : State) : (emitSample v s).tableEpoch = s.tableEpoch := rfl

/-! advanceCounters -/

@[simp] theorem advanceCounters_run (p : Params) (s : State) : (advanceCounters p s).run = s.run := rfl
@[simp] theorem advanceCounters_faultCause (p : Params) (s : State) : (advanceCounters p s).faultCause = s.faultCause := rfl
@[simp] theorem advanceCounters_faultInfo (p : Params) (s : State) : (advanceCounters p s).faultInfo = s.faultInfo := rfl
@[simp] theorem advanceCounters_cmd (p : Params) (s : State) : (advanceCounters p s).cmd = s.cmd := rfl
@[simp] theorem advanceCounters_result (p : Params) (s : State) : (advanceCounters p s).result = s.result := rfl
@[simp] theorem advanceCounters_arg0 (p : Params) (s : State) : (advanceCounters p s).arg0 = s.arg0 := rfl
@[simp] theorem advanceCounters_arg1 (p : Params) (s : State) : (advanceCounters p s).arg1 = s.arg1 := rfl
@[simp] theorem advanceCounters_arg2 (p : Params) (s : State) : (advanceCounters p s).arg2 = s.arg2 := rfl
@[simp] theorem advanceCounters_arg3 (p : Params) (s : State) : (advanceCounters p s).arg3 = s.arg3 := rfl
@[simp] theorem advanceCounters_arg4 (p : Params) (s : State) : (advanceCounters p s).arg4 = s.arg4 := rfl
@[simp] theorem advanceCounters_touchSize (p : Params) (s : State) : (advanceCounters p s).touchSize = s.touchSize := rfl
@[simp] theorem advanceCounters_touchX (p : Params) (s : State) : (advanceCounters p s).touchX = s.touchX := rfl
@[simp] theorem advanceCounters_touchY (p : Params) (s : State) : (advanceCounters p s).touchY = s.touchY := rfl
@[simp] theorem advanceCounters_levelDb (p : Params) (s : State) : (advanceCounters p s).levelDb = s.levelDb := rfl
@[simp] theorem advanceCounters_target0 (p : Params) (s : State) : (advanceCounters p s).target0 = s.target0 := rfl
@[simp] theorem advanceCounters_target1 (p : Params) (s : State) : (advanceCounters p s).target1 = s.target1 := rfl
@[simp] theorem advanceCounters_gain (p : Params) (s : State) : (advanceCounters p s).gain = s.gain := rfl
@[simp] theorem advanceCounters_intensity0 (p : Params) (s : State) : (advanceCounters p s).intensity0 = s.intensity0 := rfl
@[simp] theorem advanceCounters_intensity1 (p : Params) (s : State) : (advanceCounters p s).intensity1 = s.intensity1 := rfl
@[simp] theorem advanceCounters_lastOut (p : Params) (s : State) : (advanceCounters p s).lastOut = s.lastOut := rfl
@[simp] theorem advanceCounters_framePos (p : Params) (s : State) : (advanceCounters p s).framePos = BitVec.ofNat 32 ((s.framePos.toNat + 1) % p.blockSize) := rfl
@[simp] theorem advanceCounters_sampleCount (p : Params) (s : State) : (advanceCounters p s).sampleCount = s.sampleCount + 1 := rfl
@[simp] theorem advanceCounters_presence (p : Params) (s : State) : (advanceCounters p s).presence = s.presence := rfl
@[simp] theorem advanceCounters_halted (p : Params) (s : State) : (advanceCounters p s).halted = s.halted := rfl
@[simp] theorem advanceCounters_osc0 (p : Params) (s : State) : (advanceCounters p s).osc0 = s.osc0 := rfl
@[simp] theorem advanceCounters_osc1 (p : Params) (s : State) : (advanceCounters p s).osc1 = s.osc1 := rfl
@[simp] theorem advanceCounters_sm0 (p : Params) (s : State) : (advanceCounters p s).sm0 = s.sm0 := rfl
@[simp] theorem advanceCounters_sm1 (p : Params) (s : State) : (advanceCounters p s).sm1 = s.sm1 := rfl
@[simp] theorem advanceCounters_mem (p : Params) (s : State) : (advanceCounters p s).mem = s.mem := rfl
@[simp] theorem advanceCounters_dacStream (p : Params) (s : State) : (advanceCounters p s).dacStream = s.dacStream := rfl
@[simp] theorem advanceCounters_scopeStream (p : Params) (s : State) : (advanceCounters p s).scopeStream = s.scopeStream := rfl
@[simp] theorem advanceCounters_inputs (p : Params) (s : State) : (advanceCounters p s).inputs = s.inputs := rfl
@[simp] theorem advanceCounters_responses (p : Params) (s : State) : (advanceCounters p s).responses = s.responses := rfl
@[simp] theorem advanceCounters_tableEpoch (p : Params) (s : State) : (advanceCounters p s).tableEpoch = s.tableEpoch := rfl

/-! Unit accessors. -/

@[simp] theorem osc_setOsc_self (s : State) (k : UnitIx) (o : Osc) : (s.setOsc k o).osc k = o := by cases k <;> rfl

theorem osc_setOsc_other (s : State) (k j : UnitIx) (o : Osc) (h : j ≠ k) : (s.setOsc k o).osc j = s.osc j := by
  cases k <;> cases j <;> first | rfl | exact absurd rfl h

theorem osc_setOsc (s : State) (k j : UnitIx) (o : Osc) : (s.setOsc k o).osc j = if j = k then o else s.osc j := by
  cases k <;> cases j <;> rfl

@[simp] theorem sm_setSm_self (s : State) (a : UnitIx) (f : Smooth) : (s.setSm a f).sm a = f := by cases a <;> rfl

theorem sm_setSm (s : State) (a b : UnitIx) (f : Smooth) : (s.setSm a f).sm b = if b = a then f else s.sm b := by
  cases a <;> cases b <;> rfl

@[simp] theorem intensity_setIntensity_self (s : State) (a : UnitIx) (v : F32) :
    (s.setIntensity a v).intensity a = v := by cases a <;> rfl

theorem intensity_setIntensity (s : State) (a b : UnitIx) (v : F32) :
    (s.setIntensity a v).intensity b = if b = a then v else s.intensity b := by cases a <;> cases b <;> rfl

@[simp] theorem sm_setOsc (s : State) (k : UnitIx) (o : Osc) (j : UnitIx) : (s.setOsc k o).sm j = s.sm j := by cases k <;> cases j <;> rfl
@[simp] theorem target_setOsc (s : State) (k : UnitIx) (o : Osc) (j : UnitIx) : (s.setOsc k o).target j = s.target j := by cases k <;> cases j <;> rfl
@[simp] theorem intensity_setOsc (s : State) (k : UnitIx) (o : Osc) (j : UnitIx) : (s.setOsc k o).intensity j = s.intensity j := by cases k <;> cases j <;> rfl
@[simp] theorem tableByte_setOsc (s : State) (k : UnitIx) (o : Osc) (x : Nat) : tableByte (s.setOsc k o) x = tableByte s x := by cases k <;> rfl
@[simp] theorem osc_setSm (s : State) (a : UnitIx) (f : Smooth) (j : UnitIx) : (s.setSm a f).osc j = s.osc j := by cases a <;> cases j <;> rfl
@[simp] theorem target_setSm (s : State) (a : UnitIx) (f : Smooth) (j : UnitIx) : (s.setSm a f).target j = s.target j := by cases a <;> cases j <;> rfl
@[simp] theorem intensity_setSm (s : State) (a : UnitIx) (f : Smooth) (j : UnitIx) : (s.setSm a f).intensity j = s.intensity j := by cases a <;> cases j <;> rfl
@[simp] theorem tableByte_setSm (s : State) (a : UnitIx) (f : Smooth) (x : Nat) : tableByte (s.setSm a f) x = tableByte s x := by cases a <;> rfl
@[simp] theorem osc_setIntensity (s : State) (a : UnitIx) (v : F32) (j : UnitIx) : (s.setIntensity a v).osc j = s.osc j := by cases a <;> cases j <;> rfl
@[simp] theorem sm_setIntensity (s : State) (a : UnitIx) (v : F32) (j : UnitIx) : (s.setIntensity a v).sm j = s.sm j := by cases a <;> cases j <;> rfl
@[simp] theorem target_setIntensity (s : State) (a : UnitIx) (v : F32) (j : UnitIx) : (s.setIntensity a v).target j = s.target j := by cases a <;> cases j <;> rfl
@[simp] theorem tableByte_setIntensity (s : State) (a : UnitIx) (v : F32) (x : Nat) : tableByte (s.setIntensity a v) x = tableByte s x := by cases a <;> rfl
@[simp] theorem osc_setResult (s : State) (v : F32) (j : UnitIx) : (s.setResult v).osc j = s.osc j := by cases j <;> rfl
@[simp] theorem sm_setResult (s : State) (v : F32) (j : UnitIx) : (s.setResult v).sm j = s.sm j := by cases j <;> rfl
@[simp] theorem target_setResult (s : State) (v : F32) (j : UnitIx) : (s.setResult v).target j = s.target j := by cases j <;> rfl
@[simp] theorem intensity_setResult (s : State) (v : F32) (j : UnitIx) : (s.setResult v).intensity j = s.intensity j := by cases j <;> rfl
@[simp] theorem tableByte_setResult (s : State) (v : F32) (x : Nat) : tableByte (s.setResult v) x = tableByte s x := by rfl
@[simp] theorem osc_takeFault (src : Bool) (w : Word) (f : BlockFault) (s : State) (j : UnitIx) : (takeFault src w f s).osc j = s.osc j := by cases j <;> rfl
@[simp] theorem sm_takeFault (src : Bool) (w : Word) (f : BlockFault) (s : State) (j : UnitIx) : (takeFault src w f s).sm j = s.sm j := by cases j <;> rfl
@[simp] theorem target_takeFault (src : Bool) (w : Word) (f : BlockFault) (s : State) (j : UnitIx) : (takeFault src w f s).target j = s.target j := by cases j <;> rfl
@[simp] theorem intensity_takeFault (src : Bool) (w : Word) (f : BlockFault) (s : State) (j : UnitIx) : (takeFault src w f s).intensity j = s.intensity j := by cases j <;> rfl
@[simp] theorem tableByte_takeFault (src : Bool) (w : Word) (f : BlockFault) (s : State) (x : Nat) : tableByte (takeFault src w f s) x = tableByte s x := by rfl
@[simp] theorem osc_copyTable (k : UnitIx) (n : Nat) (s : State) (j : UnitIx) : (copyTable k n s).osc j = s.osc j := by cases j <;> rfl
@[simp] theorem sm_copyTable (k : UnitIx) (n : Nat) (s : State) (j : UnitIx) : (copyTable k n s).sm j = s.sm j := by cases j <;> rfl
@[simp] theorem target_copyTable (k : UnitIx) (n : Nat) (s : State) (j : UnitIx) : (copyTable k n s).target j = s.target j := by cases j <;> rfl
@[simp] theorem intensity_copyTable (k : UnitIx) (n : Nat) (s : State) (j : UnitIx) : (copyTable k n s).intensity j = s.intensity j := by cases j <;> rfl
@[simp] theorem osc_setStgWord (k : UnitIx) (i : Nat) (v : Word) (s : State) (j : UnitIx) : (setStgWord k i v s).osc j = s.osc j := by cases j <;> rfl
@[simp] theorem sm_setStgWord (k : UnitIx) (i : Nat) (v : Word) (s : State) (j : UnitIx) : (setStgWord k i v s).sm j = s.sm j := by cases j <;> rfl
@[simp] theorem target_setStgWord (k : UnitIx) (i : Nat) (v : Word) (s : State) (j : UnitIx) : (setStgWord k i v s).target j = s.target j := by cases j <;> rfl
@[simp] theorem intensity_setStgWord (k : UnitIx) (i : Nat) (v : Word) (s : State) (j : UnitIx) : (setStgWord k i v s).intensity j = s.intensity j := by cases j <;> rfl
@[simp] theorem osc_latchCmd (v : Word) (s : State) (j : UnitIx) : (latchCmd v s).osc j = s.osc j := by cases j <;> rfl
@[simp] theorem sm_latchCmd (v : Word) (s : State) (j : UnitIx) : (latchCmd v s).sm j = s.sm j := by cases j <;> rfl
@[simp] theorem target_latchCmd (v : Word) (s : State) (j : UnitIx) : (latchCmd v s).target j = s.target j := by cases j <;> rfl
@[simp] theorem intensity_latchCmd (v : Word) (s : State) (j : UnitIx) : (latchCmd v s).intensity j = s.intensity j := by cases j <;> rfl
@[simp] theorem tableByte_latchCmd (v : Word) (s : State) (x : Nat) : tableByte (latchCmd v s) x = tableByte s x := by rfl
@[simp] theorem osc_frameStep (p : Params) (s : State) (j : UnitIx) : (frameStep p s).osc j = s.osc j := by cases j <;> rfl
@[simp] theorem sm_frameStep (p : Params) (s : State) (j : UnitIx) : (frameStep p s).sm j = s.sm j := by cases j <;> rfl
@[simp] theorem intensity_frameStep (p : Params) (s : State) (j : UnitIx) : (frameStep p s).intensity j = s.intensity j := by cases j <;> rfl
@[simp] theorem tableByte_frameStep (p : Params) (s : State) (x : Nat) : tableByte (frameStep p s) x = tableByte s x := by rfl
@[simp] theorem osc_emitSample (v : F32) (s : State) (j : UnitIx) : (emitSample v s).osc j = s.osc j := by cases j <;> rfl
@[simp] theorem sm_emitSample (v : F32) (s : State) (j : UnitIx) : (emitSample v s).sm j = s.sm j := by cases j <;> rfl
@[simp] theorem target_emitSample (v : F32) (s : State) (j : UnitIx) : (emitSample v s).target j = s.target j := by cases j <;> rfl
@[simp] theorem intensity_emitSample (v : F32) (s : State) (j : UnitIx) : (emitSample v s).intensity j = s.intensity j := by cases j <;> rfl
@[simp] theorem tableByte_emitSample (v : F32) (s : State) (x : Nat) : tableByte (emitSample v s) x = tableByte s x := by rfl
@[simp] theorem osc_advanceCounters (p : Params) (s : State) (j : UnitIx) : (advanceCounters p s).osc j = s.osc j := by cases j <;> rfl
@[simp] theorem sm_advanceCounters (p : Params) (s : State) (j : UnitIx) : (advanceCounters p s).sm j = s.sm j := by cases j <;> rfl
@[simp] theorem target_advanceCounters (p : Params) (s : State) (j : UnitIx) : (advanceCounters p s).target j = s.target j := by cases j <;> rfl
@[simp] theorem intensity_advanceCounters (p : Params) (s : State) (j : UnitIx) : (advanceCounters p s).intensity j = s.intensity j := by cases j <;> rfl
@[simp] theorem tableByte_advanceCounters (p : Params) (s : State) (x : Nat) : tableByte (advanceCounters p s) x = tableByte s x := by rfl

end Sys2Proof.Machine
end

