-- ==== Sys2Proof/Laws/Memory.lean ====
section
/-! SUPPORT. The laws of the table memories: reads after writes, and the canonical form every write keeps. -/

namespace Sys2Proof.Machine

theorem written_setByte_self (m : Memory) (x : Nat) (v : Byte) : (m.setByte x v).written x = some v := by
  induction m with
  | nil => simp [Memory.setByte, Memory.written]
  | cons c m ih =>
    obtain ⟨a, b⟩ := c
    simp only [Memory.setByte]
    split
    · simp [Memory.written]
    · split
      · simp [Memory.written]
      · next h => rw [Memory.written, if_neg (fun e : a = x => h e.symm), ih]

theorem written_setByte_other (m : Memory) {x y : Nat} (v : Byte) (h : y ≠ x) :
    (m.setByte x v).written y = m.written y := by
  induction m with
  | nil => simp [Memory.setByte, Memory.written, h.symm]
  | cons c m ih =>
    obtain ⟨a, b⟩ := c
    simp only [Memory.setByte]
    split
    · simp [Memory.written, h.symm]
    · split
      · next e => subst e; simp [Memory.written, h.symm]
      · simp [Memory.written, ih]

theorem written_setByte (m : Memory) (x y : Nat) (v : Byte) :
    (m.setByte x v).written y = if y = x then some v else m.written y := by
  split
  · next e => rw [e, written_setByte_self]
  · next h => exact written_setByte_other m v h

/-- An address listed after a byte write was listed before, or is the one written. -/
theorem mem_setByte {m : Memory} {x : Nat} {v : Byte} {c : Host.Cell} (h : c ∈ m.setByte x v) :
    c.1 = x ∨ c ∈ m := by
  induction m with
  | nil => simp [Memory.setByte] at h; simp [h]
  | cons d m ih =>
    obtain ⟨a, b⟩ := d
    simp only [Memory.setByte] at h
    split at h
    · rcases List.mem_cons.1 h with rfl | h
      · exact .inl rfl
      · exact .inr h
    · split at h
      · rcases List.mem_cons.1 h with rfl | h
        · exact .inl rfl
        · exact .inr (List.mem_cons_of_mem _ h)
      · rcases List.mem_cons.1 h with rfl | h
        · exact .inr List.mem_cons_self
        · exact (ih h).imp id (List.mem_cons_of_mem _)

theorem setByte_wf {m : Memory} (x : Nat) (v : Byte) (h : m.wf) : (m.setByte x v).wf := by
  induction m with
  | nil => simp [Memory.setByte, Memory.wf]
  | cons c m ih =>
    obtain ⟨a, b⟩ := c
    obtain ⟨hc, hm⟩ := List.pairwise_cons.1 h
    simp only [Memory.setByte]
    split
    · next hx =>
      refine List.pairwise_cons.2 ⟨fun d hd => ?_, h⟩
      rcases List.mem_cons.1 hd with rfl | hd
      · exact hx
      · exact Nat.lt_trans hx (hc d hd)
    · split
      · next e => subst e; exact List.pairwise_cons.2 ⟨hc, hm⟩
      · next h1 h2 =>
        refine List.pairwise_cons.2 ⟨fun d hd => ?_, ih hm⟩
        rcases mem_setByte hd with e | hd
        · simp only [e]; omega
        · exact hc d hd

theorem setWord_wf {m : Memory} (x : Nat) (v : Word) (h : m.wf) : (m.setWord x v).wf :=
  setByte_wf _ _ (setByte_wf _ _ (setByte_wf _ _ (setByte_wf _ _ h)))

theorem setWords_wf {m : Memory} (base : Nat) (f : Nat → Word) (n : Nat) (h : m.wf) : (m.setWords base f n).wf := by
  induction n with
  | zero => exact h
  | succ n ih => exact setWord_wf _ _ ih

theorem mem_setWord {m : Memory} {x : Nat} {v : Word} {c : Host.Cell} (h : c ∈ m.setWord x v) :
    (x ≤ c.1 ∧ c.1 < x + 4) ∨ c ∈ m := by
  rcases mem_setByte h with e | h
  · omega
  rcases mem_setByte h with e | h
  · omega
  rcases mem_setByte h with e | h
  · omega
  rcases mem_setByte h with e | h
  · omega
  exact .inr h

theorem mem_setWords {m : Memory} {base : Nat} {f : Nat → Word} {n : Nat} {c : Host.Cell}
    (h : c ∈ m.setWords base f n) : (base ≤ c.1 ∧ c.1 < base + 4 * n) ∨ c ∈ m := by
  induction n with
  | zero => exact .inr h
  | succ n ih =>
    rcases mem_setWord h with e | h
    · omega
    · rcases ih h with e | h
      · omega
      · exact .inr h

/-- A word write leaves every byte outside its four bytes alone. -/
theorem byteAt_setWord_other (m : Memory) (e : Nat) {x a : Nat} (v : Word) (h : a < x ∨ x + 4 ≤ a) :
    (m.setWord x v).byteAt e a = m.byteAt e a := by
  unfold Memory.byteAt Memory.setWord
  rw [written_setByte_other _ _ (by omega), written_setByte_other _ _ (by omega),
    written_setByte_other _ _ (by omega), written_setByte_other _ _ (by omega)]

/-- A run of word writes leaves every byte outside it alone. -/
theorem byteAt_setWords_other (m : Memory) (e : Nat) {base a n : Nat} (f : Nat → Word)
    (h : a < base ∨ base + 4 * n ≤ a) : (m.setWords base f n).byteAt e a = m.byteAt e a := by
  induction n with
  | zero => rfl
  | succ n ih =>
    simp only [Memory.setWords]
    rw [byteAt_setWord_other _ _ _ (by omega), ih (by omega)]

/-- The four byte lanes make the word again (R65). -/
@[simp] theorem wordOfBytes_byteLanes (v : Word) :
    wordOfBytes (byteLane v 0) (byteLane v 1) (byteLane v 2) (byteLane v 3) = v := by
  apply BitVec.eq_of_toNat_eq
  have := v.isLt
  simp only [wordOfBytes, byteLane, BitVec.toNat_ofNat]
  omega

theorem wordAt_setWord_self (m : Memory) (e x : Nat) (v : Word) : (m.setWord x v).wordAt e x = v := by
  simp [Memory.wordAt, Memory.byteAt, Memory.setWord, written_setByte]

/-- A word reads the same when its four bytes do. -/
theorem wordAt_congr {m m' : Memory} {e e' x : Nat}
    (h : ∀ a, x ≤ a → a < x + 4 → m.byteAt e a = m'.byteAt e' a) : m.wordAt e x = m'.wordAt e' x := by
  unfold Memory.wordAt
  rw [h x (by omega) (by omega), h (x + 1) (by omega) (by omega), h (x + 2) (by omega) (by omega),
    h (x + 3) (by omega) (by omega)]

theorem wordAt_setWord_other (m : Memory) (e : Nat) {x y : Nat} (v : Word) (h : y + 4 ≤ x ∨ x + 4 ≤ y) :
    (m.setWord x v).wordAt e y = m.wordAt e y :=
  wordAt_congr fun _ _ _ => byteAt_setWord_other _ _ _ (by omega)

/-- A copied table reads as its source words (R100). -/
theorem wordAt_setWords (m : Memory) (e base n i : Nat) (f : Nat → Word) (h : i < n) :
    (m.setWords base f n).wordAt e (base + 4 * i) = f i := by
  induction n with
  | zero => omega
  | succ n ih =>
    simp only [Memory.setWords]
    rcases Nat.lt_succ_iff_lt_or_eq.1 h with h | rfl
    · rw [wordAt_setWord_other _ _ _ (by omega), ih h]
    · exact wordAt_setWord_self _ _ _ _

/-- OSC_CONFIG's copy: word i of the active table is word i of the staging table (R100). -/
theorem actWord_copyTable (k : UnitIx) (n i : Nat) (s : State) (h : i < n) :
    actWord (copyTable k n s) k i = stgWord s k i := wordAt_setWords _ _ _ _ _ _ h

/-- OSC_CONFIG's copy stores only to the first n words of the active table (R100). -/
theorem tableByte_copyTable (k : UnitIx) (n a : Nat) (s : State) (h : a < actBase k ∨ actBase k + 4 * n ≤ a) :
    tableByte (copyTable k n s) a = tableByte s a := byteAt_setWords_other _ _ _ h

/-- A staging write is read back. -/
theorem stgWord_setStgWord_self (k : UnitIx) (i : Nat) (v : Word) (s : State) :
    stgWord (setStgWord k i v s) k i = v := wordAt_setWord_self _ _ _ _

/-- A staging write stores only to its own word. -/
theorem tableByte_setStgWord (k : UnitIx) (i : Nat) (v : Word) (s : State) (a : Nat)
    (h : a < stgBase k + 4 * i ∨ stgBase k + 4 * i + 4 ≤ a) :
    tableByte (setStgWord k i v s) a = tableByte s a := byteAt_setWord_other _ _ _ h

/-- An active word reads the same when its bytes do. -/
theorem actWord_congr {s t : State} (k : UnitIx) (i : Nat)
    (h : ∀ a, 0x3000 ≤ a → tableByte s a = tableByte t a) : actWord s k i = actWord t k i :=
  wordAt_congr fun a ha _ => h a (by cases k <;> simp [actBase] at ha <;> omega)

@[simp] theorem actWord_setOsc (s : State) (k j : UnitIx) (o : Osc) (i : Nat) :
    actWord (s.setOsc k o) j i = actWord s j i := by cases k <;> rfl

@[simp] theorem actWord_setSm (s : State) (a j : UnitIx) (f : Smooth) (i : Nat) :
    actWord (s.setSm a f) j i = actWord s j i := by cases a <;> rfl

@[simp] theorem actWord_setIntensity (s : State) (a j : UnitIx) (v : F32) (i : Nat) :
    actWord (s.setIntensity a v) j i = actWord s j i := by cases a <;> rfl

end Sys2Proof.Machine
end

