-- ==== Sys2Proof/Laws/Ops.lean ====
section
/-! SUPPORT. One lemma for each shared operation that says once what it can do. -/

namespace Sys2Proof.Machine

/-- What each command does once its checks have passed: what `exec` runs it with. -/
def operationOf : Instr → State → Attempt
  | .nop => fun s => .ok s
  | .oscConfig u => oscConfigure Config.params (unitOf u)
  | .oscSetfreq u => fun s => .ok (oscSetFrequency (unitOf u) s)
  | .oscProcess u => oscProcessCommand Config.params (unitOf u)
  | .smoothConfig u => smoothConfigure Config.params (unitOf u)
  | .smoothProcess u => fun s => .ok (smoothProcessCommand (unitOf u) s)
  | .smoothSetstate u => fun s => .ok (smoothSetState (unitOf u) s)
  | .smoothSetcoef u => fun s => .ok (smoothSetCoef (unitOf u) s)
  | .map => mapCommand
  | .am => fun s => .ok (amCommand s)
  | .gainDb => fun s => .ok (gainCommand Config.params s)
  | .outScale => fun s => .ok (outCommand s)
  | .frame => fun s => .ok (frameStep Config.params s)
  | .step => streamStep Config.params

/-- Every command runs through `runCommand`. -/
theorem exec_eq_runCommand (i : Instr) (s : State) : exec i s = runCommand i (operationOf i) s := by
  cases i <;> rfl

/-- A halted block runs no command (R27, R47). -/
theorem exec_halted {s : State} (i : Instr) (h : s.halted = true) : exec i s = .next s := by
  simp [exec_eq_runCommand, runCommand, h]

/-- The checks of R82 pass exactly where the command may run. -/
theorem commandFault?_none {i : Instr} {s : State} (h : MayRun i s) : commandFault? i s = none := by
  obtain ⟨-, hr, hw⟩ := h
  have hw : i.unitField.toNat ≤ 1 := by simpa [WellFormed] using hw
  rcases hr with hr | hr <;> simp [commandFault?, hr, Nat.not_lt.2 hw]

/-- A command that may run commits its state, or takes its fault. -/
theorem exec_mayRun {i : Instr} {s : State} (h : MayRun i s) :
    exec i s = .next (settle false (encode i) s (operationOf i s)) := by
  simp [exec_eq_runCommand, runCommand, h.1, commandFault?_none h]

/-- Everything `exec` can do: nothing in a halted block, a fault taken, or the operation's own state. -/
theorem exec_cases (i : Instr) (s : State) :
    (s.halted = true ∧ exec i s = .next s) ∨
    (s.halted = false ∧ ∃ f, exec i s = .next (takeFault false (encode i) f s)) ∨
    (s.halted = false ∧ ∃ t, operationOf i s = .ok t ∧ exec i s = .next t) := by
  cases h : s.halted
  · right
    rw [exec_eq_runCommand, runCommand, h]
    cases hf : commandFault? i s with
    | some f => exact .inl ⟨rfl, f, by simp⟩
    | none =>
      cases ho : operationOf i s with
      | ok t => exact .inr ⟨rfl, t, rfl, by simp [settle]⟩
      | error f => exact .inl ⟨rfl, f, by simp [settle]⟩
  · exact .inl ⟨rfl, exec_halted i h⟩

/-- A well-formed UNIT field is the number of the unit it selects (R83). -/
theorem unitNumber_unitOf {u : UnitField} (h : u.toNat ≤ 1) : unitNumber (unitOf u) = u := by
  have : u = 0 ∨ u = 1 := by
    rcases Nat.le_one_iff_eq_zero_or_eq_one.1 h with h | h
    · exact .inl (BitVec.eq_of_toNat_eq h)
    · exact .inr (BitVec.eq_of_toNat_eq h)
  rcases this with rfl | rfl <;> rfl

theorem isNaN_or_isInf (x : F32) : (Binary32.isNaN x || Binary32.isInf x) = !Binary32.isFinite x := by
  cases h : Binary32.isFinite x
  · cases hn : Binary32.isNaN x <;> cases hi : Binary32.isInf x <;>
      simp_all [Binary32.isFinite, Binary32.isNaN, Binary32.isInf]
    omega
  · simp [Binary32.isNaN_of_isFinite h, Binary32.isInf_of_isFinite h]

/-- A ready oscillator processes: its sample and its new register set (R102). -/
theorem oscProcess_ready {p : Params} {k : UnitIx} {s : State} (h : OscReady p (s.osc k)) :
    oscProcess p k s = .ok (processedSample s k, s.setOsc k (processedOsc (s.osc k))) := by
  unfold oscProcess processedSample processedOsc asU32
  by_cases hn : (s.osc k).len = 0
  · have : s.setOsc k (s.osc k) = s := by cases k <;> rfl
    simp [hn, this]
  · have hn' : (s.osc k).len.toNat ≠ 0 := fun e => hn (BitVec.eq_of_toNat_eq (by simpa using e))
    obtain ⟨hf, hp⟩ := h.resolve_left hn
    have hp' : (Binary32.lt (accumulatedPhase (s.osc k)) Binary32.zero && decide (p.negPhase = .fault)) = false := by
      rcases hp with hp | hp <;> simp [hp]
    rw [if_neg hn, if_neg hn]
    simp [hn', isNaN_or_isInf, hf, hp']

/-- An oscillator that is not ready faults, NONFINITE_PHASE before NEG_PHASE (R102, R204). -/
theorem oscProcess_not_ready {p : Params} {k : UnitIx} {s : State} (h : ¬ OscReady p (s.osc k)) :
    oscProcess p k s = .error
      (if Binary32.isFinite (accumulatedPhase (s.osc k)) = true then ⟨.negPhase, unitNumber k⟩
       else ⟨.nonfinitePhase, unitNumber k⟩) := by
  unfold OscReady at h
  have hn : (s.osc k).len ≠ 0 := fun e => h (.inl e)
  have hn' : (s.osc k).len.toNat ≠ 0 := fun e => hn (BitVec.eq_of_toNat_eq (by simpa using e))
  unfold oscProcess asU32
  cases hf : Binary32.isFinite (accumulatedPhase (s.osc k))
  · simp [hn', isNaN_or_isInf, hf]
  · have hl : Binary32.lt (accumulatedPhase (s.osc k)) Binary32.zero = true := by
      by_contra hc; exact h (.inr ⟨hf, .inl (by simpa using hc)⟩)
    have hp : p.negPhase = .fault := by
      cases hp : p.negPhase
      · exact absurd (.inr ⟨hf, .inr hp⟩) h
      · rfl
    simp [hn', isNaN_or_isInf, hf, hl, hp]

/-- What `osc_process` answers when it does not fault. -/
theorem oscProcess_ok {p : Params} {k : UnitIx} {s t : State} {v : F32} (h : oscProcess p k s = .ok (v, t)) :
    OscReady p (s.osc k) ∧ v = processedSample s k ∧ t = s.setOsc k (processedOsc (s.osc k)) := by
  by_cases hr : OscReady p (s.osc k)
  · rw [oscProcess_ready hr] at h
    cases h; exact ⟨hr, rfl, rfl⟩
  · rw [oscProcess_not_ready hr] at h; cases h

/-- `axesStep` written out: both filters, frequencies and intensities, from the state before (R181). -/
theorem axesStep_eq (s : State) : axesStep s = { s with
    sm0 := ⟨smoothOutput s.sm0 s.target0, s.sm0.coef⟩
    sm1 := ⟨smoothOutput s.sm1 s.target1, s.sm1.coef⟩
    osc0 := { s.osc0 with freq := controlFrequency (smoothOutput s.sm0 s.target0) }
    osc1 := { s.osc1 with freq := controlFrequency (smoothOutput s.sm1 s.target1) }
    intensity0 := controlIntensity (smoothOutput s.sm0 s.target0)
    intensity1 := controlIntensity (smoothOutput s.sm1 s.target1) } := by
  simp only [axesStep, axisStep, smoothProcess, State.setSm, State.setOsc, State.setIntensity, State.sm, State.osc,
    State.target]

/-- Processing oscillator 0 changes neither the register set nor the sample of oscillator 1. -/
theorem processedSample_setOsc_other (s : State) (o : Osc) : processedSample (s.setOsc .k0 o) .k1 = processedSample s .k1 := rfl

/-- A stream step with both oscillators ready, written out (R181, R182). -/
theorem streamStep_ready {p : Params} {s : State} (h : StreamReady p s) :
    streamStep p s = .ok (advanceCounters p
      (let a := axesStep (frameGate p s)
       let r := (a.setOsc .k0 (processedOsc a.osc0)).setOsc .k1 (processedOsc a.osc1)
       emitSample (outFn (amFn (processedSample a .k0) (processedSample a .k1)) r.gain) r)) := by
  unfold streamStep sampleStep
  rw [oscProcess_ready (h .k0)]
  have h1 : OscReady p (((axesStep (frameGate p s)).setOsc .k0
      (processedOsc ((axesStep (frameGate p s)).osc .k0))).osc .k1) := h .k1
  simp only [oscProcess_ready h1]
  rfl

/-- The fault of a stream step whose oscillators are not both ready: oscillator 0's first (R205). -/
theorem streamStep_not_ready {p : Params} {s : State} (h : ¬ StreamReady p s) :
    ∃ f, streamStep p s = .error f := by
  unfold streamStep sampleStep
  by_cases h0 : OscReady p ((axesStep (frameGate p s)).osc .k0)
  · have h1 : ¬ OscReady p (((axesStep (frameGate p s)).setOsc .k0
        (processedOsc ((axesStep (frameGate p s)).osc .k0))).osc .k1) :=
      fun h1 => h fun k => by cases k; exacts [h0, h1]
    simp only [oscProcess_ready h0, oscProcess_not_ready h1]
    exact ⟨_, rfl⟩
  · simp only [oscProcess_not_ready h0]
    exact ⟨_, rfl⟩

/-- What a stream step answers when it does not fault. -/
theorem streamStep_ok {p : Params} {s t : State} (h : streamStep p s = .ok t) :
    StreamReady p s ∧ t = advanceCounters p
      (let a := axesStep (frameGate p s)
       let r := (a.setOsc .k0 (processedOsc a.osc0)).setOsc .k1 (processedOsc a.osc1)
       emitSample (outFn (amFn (processedSample a .k0) (processedSample a .k1)) r.gain) r) := by
  by_cases hr : StreamReady p s
  · rw [streamStep_ready hr] at h; cases h; exact ⟨hr, rfl⟩
  · obtain ⟨f, hf⟩ := streamStep_not_ready hr
    rw [hf] at h; cases h

/-- The state a stream step commits, in the fields its oscillators leave alone. -/
theorem frameGate_eq (p : Params) (s : State) : frameGate p s = { s with
    target0 := if s.framePos = 0 ∧ touchGate s.touchSize = true then s.touchX else s.target0
    target1 := if s.framePos = 0 ∧ touchGate s.touchSize = true then s.touchY else s.target1
    presence := if s.framePos = 0 then touchGate s.touchSize else s.presence
    gain := if s.framePos = 0 then gainFn p s.levelDb else s.gain } := by
  unfold frameGate
  split <;> simp_all [frameStep]

/-- The fields no operation of the block writes: the input registers, CTRL.RUN, CMD, the fault record, HALTED and the
model's own fields. -/
structure SameControl (s t : State) : Prop where
  run : t.run = s.run
  halted : t.halted = s.halted
  faultCause : t.faultCause = s.faultCause
  faultInfo : t.faultInfo = s.faultInfo
  cmd : t.cmd = s.cmd
  arg0 : t.arg0 = s.arg0
  arg1 : t.arg1 = s.arg1
  arg2 : t.arg2 = s.arg2
  arg3 : t.arg3 = s.arg3
  arg4 : t.arg4 = s.arg4
  touchSize : t.touchSize = s.touchSize
  touchX : t.touchX = s.touchX
  touchY : t.touchY = s.touchY
  levelDb : t.levelDb = s.levelDb
  inputs : t.inputs = s.inputs
  responses : t.responses = s.responses
  tableEpoch : t.tableEpoch = s.tableEpoch

theorem SameControl.refl (s : State) : SameControl s s := by constructor <;> rfl

theorem streamStep_sameControl {p : Params} {s t : State} (h : streamStep p s = .ok t) : SameControl s t := by
  obtain ⟨-, rfl⟩ := streamStep_ok h
  constructor <;> simp [axesStep_eq, frameGate_eq]

/-- What OSC_CONFIG answers when it does not fault (R100). -/
theorem oscConfigure_ok {p : Params} {k : UnitIx} {s t : State} (h : oscConfigure p k s = .ok t) :
    Binary32.gt s.arg0 Binary32.zero = true ∧ s.arg1.toNat ≤ p.tableCapacity ∧
      t = (copyTable k s.arg1.toNat s).setOsc k (configuredOsc s (s.osc k)) := by
  unfold oscConfigure oscSampleRateArg oscLengthArg asU32 at h
  cases hg : Binary32.gt s.arg0 Binary32.zero
  · simp [hg] at h
  · by_cases hl : p.tableCapacity < s.arg1.toNat
    · simp [hg, hl] at h
    · simp [hg, hl] at h
      exact ⟨rfl, by omega, h.symm⟩

/-- What SMOOTH_CONFIG answers when it does not fault (R120). -/
theorem smoothConfigure_ok {p : Params} {a : UnitIx} {s t : State} (h : smoothConfigure p a s = .ok t) :
    t = s.setSm a { s.sm a with coef := smoothCoefficient p (cutoffArg s) (smoothSampleRateArg s) } := by
  unfold smoothConfigure at h
  split at h
  · cases h
  · cases h; rfl

/-- What OSC_PROCESS answers when it does not fault (R102). -/
theorem oscProcessCommand_ok {p : Params} {k : UnitIx} {s t : State} (h : oscProcessCommand p k s = .ok t) :
    OscReady p (s.osc k) ∧ t = (s.setOsc k (processedOsc (s.osc k))).setResult (processedSample s k) := by
  unfold oscProcessCommand at h
  split at h
  · next v u hv => obtain ⟨hr, rfl, rfl⟩ := oscProcess_ok hv; cases h; exact ⟨hr, rfl⟩
  · cases h

/-- What MAP answers when it does not fault (R140). -/
theorem mapCommand_ok {s t : State} (h : mapCommand s = .ok t) :
    t = s.setResult (mapFn s.arg0 s.arg1 s.arg2 s.arg3 s.arg4) := by
  unfold mapCommand at h
  split at h
  · cases h
  · cases h; rfl

/-- No operation of a command writes the control fields. -/
theorem operationOf_sameControl {i : Instr} {s t : State} (h : operationOf i s = .ok t) : SameControl s t := by
  cases i <;> simp only [operationOf, Except.ok.injEq] at h
  case oscConfig => obtain ⟨-, -, rfl⟩ := oscConfigure_ok h; constructor <;> simp
  case oscProcess => obtain ⟨-, rfl⟩ := oscProcessCommand_ok h; constructor <;> simp
  case smoothConfig => obtain rfl := smoothConfigure_ok h; constructor <;> simp
  case map => obtain rfl := mapCommand_ok h; constructor <;> simp
  case step => exact streamStep_sameControl h
  all_goals subst h
  case nop => exact .refl _
  case oscSetfreq => constructor <;> simp [oscSetFrequency]
  case smoothProcess => constructor <;> simp [smoothProcessCommand, smoothProcess]
  case smoothSetstate => constructor <;> simp [smoothSetState]
  case smoothSetcoef => constructor <;> simp [smoothSetCoef]
  case am => constructor <;> simp [amCommand]
  case gainDb => constructor <;> simp [gainCommand]
  case outScale => constructor <;> simp [outCommand]
  case frame => constructor <;> simp

/-- Everything a tick can do: nothing, a fault taken, or one stream step (R182). -/
theorem dacTick_cases (p : Params) (s : State) :
    dacTick p s = s ∨
    (s.halted = false ∧ s.run = true ∧
      ((∃ f, dacTick p s = takeFault true tickFaultInfo f s) ∨ ∃ t, streamStep p s = .ok t ∧ dacTick p s = t)) := by
  unfold dacTick
  cases hr : s.run <;> cases hh : s.halted <;> simp
  cases hs : streamStep p s with
  | ok t => exact .inr (.inr rfl)
  | error f => exact .inr (.inl ⟨f, rfl⟩)

/-- A tick that is not dropped performs one stream step (R182). -/
theorem dacTick_running {s : State} (p : Params) (hr : s.run = true) (hh : s.halted = false) :
    dacTick p s = settle true tickFaultInfo s (streamStep p s) := by
  rw [dacTick, hr, hh]; simp only [Bool.not_false, Bool.and_self, if_true]

/-- A tick that is dropped (R182). -/
theorem dacTick_dropped {s : State} (p : Params) (h : s.run = false ∨ s.halted = true) : dacTick p s = s := by
  unfold dacTick; rcases h with h | h <;> simp [h]

/-! The expressions of the datapath in the primitive operations, so that no proof unfolds the arithmetic. -/

theorem binary32_add : binary32.add = Binary32.add := rfl
theorem binary32_sub : binary32.sub = Binary32.sub := rfl
theorem binary32_mul : binary32.mul = Binary32.mul := rfl
theorem binary32_div : binary32.div = Binary32.div := rfl

theorem phaseIncrement_binary32 (n f r : F32) :
    phaseIncrement binary32 n f r = Binary32.mul (Binary32.mul n f) r := by
  rw [phaseIncrement, binary32_mul]

theorem accumulatedPhase_eq (o : Osc) : accumulatedPhase o =
    Binary32.add o.phase (Binary32.mul (Binary32.mul (Binary32.ofNat o.len.toNat) o.freq) o.invSr) := by
  rw [accumulatedPhase, phaseIncrement_binary32, binary32_add, asU32]

theorem smoothOutput_eq (f : Smooth) (x : F32) :
    smoothOutput f x = Binary32.add f.state (Binary32.mul f.coef (Binary32.sub x f.state)) := by
  rw [smoothOutput, smoothNext, binary32_add, binary32_mul, binary32_sub]

theorem smoothCoefficient_eq (p : Params) (fc sr : F32) : smoothCoefficient p fc sr =
    Binary32.sub Binary32.one (expFn p (Binary32.negate (Binary32.div (Binary32.mul Binary32.twoPi fc) sr))) := by
  rw [smoothCoefficient, cutoffRatio, binary32_sub, binary32_div, binary32_mul]

theorem mapFn_eq (v a b c d : F32) : mapFn v a b c d =
    Binary32.add c (Binary32.div (Binary32.mul (Binary32.sub v a) (Binary32.sub d c)) (Binary32.sub b a)) := by
  rw [mapFn, mapValue, binary32_add, binary32_sub, binary32_div, binary32_mul]

theorem amFn_eq (c m : F32) :
    amFn c m = Binary32.mul c (Binary32.add (Binary32.mul m Binary32.half) Binary32.half) := by
  rw [amFn, amValue, binary32_add, binary32_mul]

theorem outFn_eq (a g : F32) : outFn a g = Binary32.mul (Binary32.mul a g) Binary32.half := by
  rw [outFn, outValue, binary32_mul]

theorem gainFn_eq (p : Params) (db : F32) : gainFn p db = pow10Fn p (Binary32.div db Binary32.twenty) := by
  rw [gainFn, binary32_div]

/-- The lookup with interpolation (R104). -/
theorem tableLookup_interpolated {s : State} {k : UnitIx} (p : F32) (n : Nat) (h : (s.osc k).interp = true) :
    tableLookup s k p n =
      Binary32.add
        (Binary32.mul (Binary32.sub Binary32.one (Binary32.sub p (Binary32.ofNat (Binary32.floorInt p).toNat)))
          (actWord s k (Binary32.floorInt p).toNat))
        (Binary32.mul (Binary32.sub p (Binary32.ofNat (Binary32.floorInt p).toNat))
          (actWord s k (((Binary32.floorInt p).toNat + 1) % n))) := by
  rw [tableLookup, if_pos h, interpolate, binary32_add, binary32_mul, binary32_sub]

/-- The lookup without interpolation (R104). -/
theorem tableLookup_truncated {s : State} {k : UnitIx} (p : F32) (n : Nat) (h : (s.osc k).interp = false) :
    tableLookup s k p n = actWord s k (Binary32.floorInt p).toNat := by
  rw [tableLookup, if_neg (by rw [h]; exact Bool.false_ne_true)]

/-- Every command completes with its operation's state where the operation raises no fault. -/
theorem exec_ok {i : Instr} {s t : State} (h : MayRun i s) (ho : operationOf i s = .ok t) : exec i s = .next t := by
  rw [exec_mayRun h, ho]; simp only [settle]

/-- Every command takes the fault its operation raises (R202). -/
theorem exec_error {i : Instr} {s : State} {f : BlockFault} (h : MayRun i s) (ho : operationOf i s = .error f) :
    exec i s = .next (takeFault false (encode i) f s) := by
  rw [exec_mayRun h, ho]; simp only [settle]

/-- The UNIT of a command that may run is the number of its unit. -/
theorem unitNumber_of_mayRun {i : Instr} {s : State} (h : MayRun i s) : unitNumber (unitOf i.unitField) = i.unitField :=
  unitNumber_unitOf (of_decide_eq_true h.2.2)

end Sys2Proof.Machine
end

