-- ==== Sys2Proof/Laws/Step.lean ====
section
/-! SUPPORT. What one step, one bus write and the decoder can do, said once. -/

namespace Sys2Proof.Machine

/-! Decoding. -/

/-- The checks of `decode` as arithmetic on the word (R82). -/
theorem decode_eq (c : Word) : decode c =
    if c.toNat / 4096 ≠ 0 then .error .reservedBits
    else decodeOpcode (c.toNat % 256) (BitVec.ofNat 4 (c.toNat / 256)) := rfl

theorem decodeUnitCommand_ok {u : UnitField} {i j : Instr} :
    decodeUnitCommand u i = .ok j ↔ u.toNat ≤ 1 ∧ i = j := by
  unfold decodeUnitCommand; split <;> simp_all

theorem decodePlainCommand_ok {u : UnitField} {i j : Instr} :
    decodePlainCommand u i = .ok j ↔ u.toNat = 0 ∧ i = j := by
  unfold decodePlainCommand; split <;> simp_all

/-- The fields of an encoded command (R81). -/
theorem encode_fields (i : Instr) :
    reservedField (encode i) = 0 ∧ opcodeField (encode i) = opcodeOf i ∧ unitFieldOf (encode i) = i.unitField := by
  have ho : opcodeOf i < 256 := by cases i <;> simp [opcodeOf]
  have hu := i.unitField.isLt
  have he : (encode i).toNat = i.unitField.toNat * 256 + opcodeOf i := by
    simp only [encode, BitVec.toNat_ofNat]; omega
  refine ⟨?_, ?_, ?_⟩
  · simp only [reservedField, he]; omega
  · simp only [opcodeField, he]; omega
  · apply BitVec.eq_of_toNat_eq
    simp only [unitFieldOf, he, BitVec.toNat_ofNat]; omega

/-- A word with no reserved bit set is its fields put together (R81). -/
theorem word_of_fields {c : Word} (h : reservedField c = 0) :
    BitVec.ofNat 32 ((unitFieldOf c).toNat * 256 + opcodeField c) = c := by
  apply BitVec.eq_of_toNat_eq
  simp only [reservedField, unitFieldOf, opcodeField, BitVec.toNat_ofNat] at *
  omega

/-! The address map. -/

/-- Only the address of CMD reaches CMD (R21, R62). -/
theorem placeOf_cmdAddr (p : Params) : placeOf p cmdAddr = .reg .cmd := by
  have h : regMap.lookup (wordAddr cmdAddr) = some .cmd := by decide
  simp [placeOf, h]

/-- A bus write to anything but CMD stores, or is ignored (R62). -/
theorem memWrite_not_cmd {p : Params} {addr : BusAddr} (v : Word) (s : State) (h : placeOf p addr ≠ .reg .cmd) :
    memWrite p addr v s = .next (writePlace (placeOf p addr) v s) := if_neg h

/-- A bus write to CMD runs the command (R27). -/
theorem memWrite_cmd {p : Params} {addr : BusAddr} (v : Word) (s : State) (h : placeOf p addr = .reg .cmd) :
    memWrite p addr v s = writeCmd v s := if_pos h

/-- A window never gives a register. -/
theorem windowOf_ne_reg (p : Params) (w : Nat) (r : Reg) : windowOf p w ≠ .reg r := by
  unfold windowOf
  intro h
  simp only at h
  split at h
  · split at h <;> cases h
  · split at h
    · split at h <;> cases h
    · split at h
      · cases h
      · split at h <;> cases h

/-- A staging place lies inside the table (R62, R63). -/
theorem windowOf_stg {p : Params} {w : Nat} {k : UnitIx} {i : Nat} (h : windowOf p w = .stg k i) :
    i < p.tableCapacity ∧ i < 1024 := by
  unfold windowOf at h
  simp only at h
  have hi : w % 0x1000 / 4 < 1024 := by omega
  split at h
  · split at h
    · cases h; exact ⟨‹_›, hi⟩
    · cases h
  · split at h
    · split at h
      · cases h; exact ⟨‹_›, hi⟩
      · cases h
    · split at h
      · cases h
      · split at h <;> cases h

theorem placeOf_stg {p : Params} {addr : BusAddr} {k : UnitIx} {i : Nat} (h : placeOf p addr = .stg k i) :
    i < p.tableCapacity ∧ i < 1024 := by
  unfold placeOf at h
  split at h
  · cases h
  · exact windowOf_stg h

/-- A list of offsets that does not hold `w` has no entry for it. -/
theorem lookup_none : ∀ {l : List (Nat × Reg)} {w : Nat}, (∀ e ∈ l, e.1 ≠ w) → l.lookup w = none
  | [], _, _ => rfl
  | e :: l, w, h => by
    have h1 : w ≠ e.1 := fun he => h e (List.mem_cons_self ..) he.symm
    have h2 : (w == e.1) = false := by simpa using h1
    obtain ⟨a, b⟩ := e
    rw [List.lookup_cons, h2]
    exact lookup_none fun e he => h e (List.mem_cons_of_mem _ he)

/-- Beyond the register offsets an address is decoded by the windows (R62). -/
theorem placeOf_window {p : Params} {addr : BusAddr} (h : 0x198 ≤ addr.toNat) : placeOf p addr = windowOf p (wordAddr addr) := by
  have hw : 0x198 ≤ wordAddr addr := by unfold wordAddr; omega
  have : regMap.lookup (wordAddr addr) = none :=
    lookup_none fun e he => by
      have : e.1 < 0x198 := by revert e; decide
      omega
  rw [placeOf, this]

/-- Word i of a staging window (R63). -/
theorem placeOf_stg_addr {p : Params} {i : Nat} (h : i < 1024) (k : UnitIx) : placeOf p (BitVec.ofNat 16 (stgBase k + 4 * i)) = if i < p.tableCapacity then .stg k i else .unmapped := by
  have hn : (BitVec.ofNat 16 (stgBase k + 4 * i)).toNat = stgBase k + 4 * i := by
    rw [BitVec.toNat_ofNat]; cases k <;> simp only [stgBase] <;> omega
  rw [placeOf_window (by rw [hn]; cases k <;> simp only [stgBase] <;> omega)]
  unfold windowOf wordAddr; rw [hn]
  have hi : (stgBase k + 4 * i) / 4 * 4 % 0x1000 / 4 = i := by cases k <;> simp only [stgBase] <;> omega
  simp only [hi]
  cases k
  · rw [if_pos (by simp only [stgBase]; omega)]
  · rw [if_neg (by simp only [stgBase]; omega), if_pos (by simp only [stgBase]; omega)]

/-- Word i of an active window (R63). -/
theorem placeOf_act_addr {p : Params} {i : Nat} (h : i < 1024) (k : UnitIx) : placeOf p (BitVec.ofNat 16 (actBase k + 4 * i)) = .act k i := by
  have hn : (BitVec.ofNat 16 (actBase k + 4 * i)).toNat = actBase k + 4 * i := by
    rw [BitVec.toNat_ofNat]; cases k <;> simp only [actBase] <;> omega
  rw [placeOf_window (by rw [hn]; cases k <;> simp only [actBase] <;> omega)]
  unfold windowOf wordAddr; rw [hn]
  have hi : (actBase k + 4 * i) / 4 * 4 % 0x1000 / 4 = i := by cases k <;> simp only [actBase] <;> omega
  simp only [hi]
  cases k
  · rw [if_neg (by simp only [actBase]; omega), if_neg (by simp only [actBase]; omega), if_pos (by simp only [actBase]; omega)]
  · rw [if_neg (by simp only [actBase]; omega), if_neg (by simp only [actBase]; omega), if_neg (by simp only [actBase]; omega), if_pos (by simp only [actBase]; omega)]

/-! One step. -/

/-- A step with an input pending is that input's effect. -/
theorem step_cons {s : State} {i : Input} {rest : List Input} (h : s.inputs = i :: rest) :
    step s = applyInput Config.params i { s with inputs := rest } := by
  simp [step, h]

/-- A step with no input pending changes nothing. -/
theorem step_nil {s : State} (h : s.inputs = []) : step s = .next s := by
  simp [step, h]

/-- Every command answers a next state. -/
theorem exec_next (i : Instr) (s : State) : ∃ t, exec i s = .next t := by
  rcases exec_cases i s with ⟨-, h⟩ | ⟨-, f, h⟩ | ⟨-, t, -, h⟩ <;> exact ⟨_, h⟩

/-- Everything a bus write to CMD can do (R27, R82): only the latch while halted, an illegal word's fault, or the
command. -/
theorem writeCmd_cases (c : Word) (s : State) :
    (s.halted = true ∧ writeCmd c s = .next (latchCmd c s)) ∨
    (s.halted = false ∧ ∃ e, decode c = .error e ∧
      writeCmd c s = .next (takeFault false c ⟨.illegalCmd, e.unit⟩ (latchCmd c s))) ∨
    (s.halted = false ∧ ∃ i, decode c = .ok i ∧ writeCmd c s = exec i (latchCmd c s)) := by
  unfold writeCmd
  cases hh : s.halted
  · cases hd : decode c with
    | ok i => exact .inr (.inr ⟨rfl, i, rfl, rfl⟩)
    | error e => exact .inr (.inl ⟨rfl, e, rfl, rfl⟩)
  · exact .inl ⟨rfl, rfl⟩

/-- Everything a step can do. -/
theorem step_cases {s t : State} (h : step s = .next t) :
    (s.inputs = [] ∧ t = s) ∨
    ∃ rest, (∃ addr, s.inputs = .busRead addr :: rest ∧ t = busRead Config.params addr { s with inputs := rest }) ∨
      (∃ addr v, s.inputs = .busWrite addr v :: rest ∧ placeOf Config.params addr = .reg .cmd ∧
        writeCmd v { s with inputs := rest } = .next t) ∨
      (∃ addr v, s.inputs = .busWrite addr v :: rest ∧ placeOf Config.params addr ≠ .reg .cmd ∧
        t = writePlace (placeOf Config.params addr) v { s with inputs := rest }) ∨
      (s.inputs = .tick :: rest ∧ t = dacTick Config.params { s with inputs := rest }) ∨
      (s.inputs = .reset :: rest ∧ t = resetBlock { s with inputs := rest }) := by
  cases hi : s.inputs with
  | nil => rw [step_nil hi] at h; cases h; exact .inl ⟨rfl, rfl⟩
  | cons i rest =>
    rw [step_cons hi] at h
    refine .inr ⟨rest, ?_⟩
    cases i with
    | busRead addr => cases h; exact .inl ⟨addr, rfl, rfl⟩
    | busWrite addr v =>
      by_cases hp : placeOf Config.params addr = .reg .cmd
      · exact .inr (.inl ⟨addr, v, rfl, hp, by rw [← memWrite_cmd v _ hp]; exact h⟩)
      · refine .inr (.inr (.inl ⟨addr, v, rfl, hp, ?_⟩))
        have := memWrite_not_cmd v { s with inputs := rest } hp
        rw [applyInput, this] at h
        cases h; rfl
    | tick => cases h; exact .inr (.inr (.inr (.inl ⟨rfl, rfl⟩)))
    | reset => cases h; exact .inr (.inr (.inr (.inr ⟨rfl, rfl⟩)))

end Sys2Proof.Machine
end

