-- ==== Sys2Proof/Laws/PerInstr.lean ====
section
/-! SUPPORT. Statements made once for each command: the encoding's round trip (30_encoding.md R81, R83). -/

namespace Sys2Proof.Laws.RoundTrip

open Sys2Proof Sys2Proof.Machine

/-- Decoding the encoding of the command gives it back, and the encoding's fields are the command's own. -/
def Statement (i : Instr) : Prop :=
  WellFormed i = true →
    decode (encode i) = .ok i ∧ opcodeField (encode i) = opcodeOf i ∧ unitFieldOf (encode i) = i.unitField

theorem unit_cases {i : Instr} (h : WellFormed i = true) : i.unitField = 0 ∨ i.unitField = 1 := by
  have h : i.unitField.toNat ≤ 1 := of_decide_eq_true h
  rcases Nat.le_one_iff_eq_zero_or_eq_one.1 h with h | h
  · exact .inl (BitVec.eq_of_toNat_eq h)
  · exact .inr (BitVec.eq_of_toNat_eq h)

/-- For a unit command it is enough to look at units 0 and 1. -/
theorem unit_command {c : UnitField → Instr} (hc : ∀ u, (c u).unitField = u) (h0 : Statement (c 0)) (h1 : Statement (c 1))
    (u : UnitField) : Statement (c u) := by
  intro h
  rcases unit_cases h with hu | hu <;> rw [hc] at hu <;> subst hu
  · exact h0 h
  · exact h1 h

theorem nop : Statement .nop := fun _ => ⟨rfl, rfl, rfl⟩
theorem oscConfig (u : UnitField) : Statement (.oscConfig u) :=
  unit_command (fun _ => rfl) (fun _ => ⟨rfl, rfl, rfl⟩) (fun _ => ⟨rfl, rfl, rfl⟩) u
theorem oscSetfreq (u : UnitField) : Statement (.oscSetfreq u) :=
  unit_command (fun _ => rfl) (fun _ => ⟨rfl, rfl, rfl⟩) (fun _ => ⟨rfl, rfl, rfl⟩) u
theorem oscProcess (u : UnitField) : Statement (.oscProcess u) :=
  unit_command (fun _ => rfl) (fun _ => ⟨rfl, rfl, rfl⟩) (fun _ => ⟨rfl, rfl, rfl⟩) u
theorem smoothConfig (u : UnitField) : Statement (.smoothConfig u) :=
  unit_command (fun _ => rfl) (fun _ => ⟨rfl, rfl, rfl⟩) (fun _ => ⟨rfl, rfl, rfl⟩) u
theorem smoothProcess (u : UnitField) : Statement (.smoothProcess u) :=
  unit_command (fun _ => rfl) (fun _ => ⟨rfl, rfl, rfl⟩) (fun _ => ⟨rfl, rfl, rfl⟩) u
theorem smoothSetstate (u : UnitField) : Statement (.smoothSetstate u) :=
  unit_command (fun _ => rfl) (fun _ => ⟨rfl, rfl, rfl⟩) (fun _ => ⟨rfl, rfl, rfl⟩) u
theorem smoothSetcoef (u : UnitField) : Statement (.smoothSetcoef u) :=
  unit_command (fun _ => rfl) (fun _ => ⟨rfl, rfl, rfl⟩) (fun _ => ⟨rfl, rfl, rfl⟩) u
theorem map : Statement .map := fun _ => ⟨rfl, rfl, rfl⟩
theorem am : Statement .am := fun _ => ⟨rfl, rfl, rfl⟩
theorem gainDb : Statement .gainDb := fun _ => ⟨rfl, rfl, rfl⟩
theorem outScale : Statement .outScale := fun _ => ⟨rfl, rfl, rfl⟩
theorem frame : Statement .frame := fun _ => ⟨rfl, rfl, rfl⟩
theorem step : Statement .step := fun _ => ⟨rfl, rfl, rfl⟩

end Sys2Proof.Laws.RoundTrip
end

