-- ==== Sys2Proof/Machine/HostScript.lean ====
section
/-! DEFINITION. The host-script statements of 30_encoding.md R88 and R89, as the inputs they expand to. `#r` is
`Binary32.ofRatio`; a run of a script is `step` over a state whose schedule holds it. -/

namespace Sys2Proof.Machine.Script

/-- `wr ADDR, VALUE` (R88). -/
def wr (addr : BusAddr) (v : Word) : List Input := [.busWrite addr v]

/-- `rd ADDR` (R88). -/
def rd (addr : BusAddr) : List Input := [.busRead addr]

/-- `tick` (R88). -/
def tick : List Input := [.tick]

/-- `cmd MNEMONIC` and `cmd MNEMONIC.u`: `wr 0x01C, (u << 8) | OPCODE` (R89). -/
def cmd (i : Instr) : List Input := wr cmdAddr (encode i)

/-- `arg N, V`: `wr 0x024 + 4·N, V` (R89). -/
def arg (n : Fin 5) (v : Word) : List Input := wr (BitVec.ofNat 16 (0x024 + 4 * n.val)) v

/-- `osc.config k, SR, LEN, I` (R89). -/
def oscConfig (k : UnitIx) (sr len interp : Word) : List Input :=
  arg 0 sr ++ arg 1 len ++ arg 2 interp ++ cmd (.oscConfig (unitNumber k))

/-- `osc.setfreq k, F` (R89). -/
def oscSetfreq (k : UnitIx) (f : Word) : List Input := arg 0 f ++ cmd (.oscSetfreq (unitNumber k))

/-- `osc.process k` (R89). -/
def oscProcess (k : UnitIx) : List Input := cmd (.oscProcess (unitNumber k))

/-- `sm.config a, FC, SR` (R89). -/
def smConfig (a : UnitIx) (fc sr : Word) : List Input := arg 0 fc ++ arg 1 sr ++ cmd (.smoothConfig (unitNumber a))

/-- `sm.process a, X` (R89). -/
def smProcess (a : UnitIx) (x : Word) : List Input := arg 0 x ++ cmd (.smoothProcess (unitNumber a))

/-- `sm.setstate a, S` (R89). -/
def smSetstate (a : UnitIx) (v : Word) : List Input := arg 0 v ++ cmd (.smoothSetstate (unitNumber a))

/-- `sm.setcoef a, C` (R89). -/
def smSetcoef (a : UnitIx) (c : Word) : List Input := arg 0 c ++ cmd (.smoothSetcoef (unitNumber a))

/-- `map V, A, B, C, D` (R89). -/
def map (v a b c d : Word) : List Input := arg 0 v ++ arg 1 a ++ arg 2 b ++ arg 3 c ++ arg 4 d ++ cmd .map

/-- `am C, M` (R89). -/
def am (c m : Word) : List Input := arg 0 c ++ arg 1 m ++ cmd .am

/-- `gain DB` (R89). -/
def gain (db : Word) : List Input := arg 0 db ++ cmd .gainDb

/-- `outscale A, G` (R89). -/
def outscale (a g : Word) : List Input := arg 0 a ++ arg 1 g ++ cmd .outScale

/-- `nop` (R89). -/
def nop : List Input := cmd .nop

/-- `frame` (R89). -/
def frame : List Input := cmd .frame

/-- `step` (R89). -/
def step : List Input := cmd .step

/-- `stg k, I, V`: `wr 0x1000 + 0x1000·k + 4·I, V` (R89). -/
def stg (k : UnitIx) (i : Nat) (v : Word) : List Input := wr (BitVec.ofNat 16 (stgBase k + 4 * i)) v

/-- `run` (R89). -/
def run : List Input := wr 0x00C 1

/-- `stop` (R89). -/
def stop : List Input := wr 0x00C 0

/-- `touch S, X, Y` (R89). -/
def touch (size x y : Word) : List Input := wr 0x040 size ++ wr 0x044 x ++ wr 0x048 y

/-- `level DB` (R89). -/
def level (db : Word) : List Input := wr 0x04C db

end Sys2Proof.Machine.Script
end

