-- ==== Sys2Proof/Tests/Slice0.lean ====
section
/-! SUPPORT. The model's own tests: expected values from spec/95_test_vectors.md (the vector is named in the theorem),
from the tables of spec/30_encoding.md and from the literals of spec/00_scope.md R11; then one witness for the hypotheses of each
statement, at boundary values. -/

namespace Sys2Proof.Tests

open Sys2Proof Sys2Proof.Machine

/-! ## WellFormed refuses each ill-formed term (R82, R83) -/

theorem test_wellFormed_unit_2_refused : WellFormed (.oscConfig 2) = false ∧ WellFormed (.oscSetfreq 2) = false ∧
    WellFormed (.oscProcess 15) = false ∧ WellFormed (.smoothConfig 2) = false ∧ WellFormed (.smoothProcess 8) = false ∧
    WellFormed (.smoothSetstate 3) = false ∧ WellFormed (.smoothSetcoef 4) = false := by decide

theorem test_wellFormed_units_0_and_1_accepted : WellFormed (.oscConfig 0) = true ∧ WellFormed (.smoothSetcoef 1) = true ∧
    WellFormed .nop = true ∧ WellFormed .step = true := by decide

/-! ## Decoding words written out bit by bit (R81, R83) -/

theorem test_decode_nop : decode 0b00000000000000000000_0000_00000000#32 = .ok .nop := rfl
theorem test_decode_oscConfig : decode 0b00000000000000000000_0001_00000001#32 = .ok (.oscConfig 1) := rfl
theorem test_decode_oscSetfreq : decode 0b00000000000000000000_0000_00000010#32 = .ok (.oscSetfreq 0) := rfl
theorem test_decode_oscProcess : decode 0b00000000000000000000_0001_00000011#32 = .ok (.oscProcess 1) := rfl
theorem test_decode_smoothConfig : decode 0b00000000000000000000_0000_00000100#32 = .ok (.smoothConfig 0) := rfl
theorem test_decode_smoothProcess : decode 0b00000000000000000000_0001_00000101#32 = .ok (.smoothProcess 1) := rfl
theorem test_decode_smoothSetstate : decode 0b00000000000000000000_0000_00000110#32 = .ok (.smoothSetstate 0) := rfl
theorem test_decode_smoothSetcoef : decode 0b00000000000000000000_0001_00000111#32 = .ok (.smoothSetcoef 1) := rfl
theorem test_decode_map : decode 0b00000000000000000000_0000_00001000#32 = .ok .map := rfl
theorem test_decode_am : decode 0b00000000000000000000_0000_00001001#32 = .ok .am := rfl
theorem test_decode_gainDb : decode 0b00000000000000000000_0000_00001010#32 = .ok .gainDb := rfl
theorem test_decode_outScale : decode 0b00000000000000000000_0000_00001011#32 = .ok .outScale := rfl
theorem test_decode_frame : decode 0b00000000000000000000_0000_00001100#32 = .ok .frame := rfl
theorem test_decode_step : decode 0b00000000000000000000_0000_00001101#32 = .ok .step := rfl

/-- V-DEC-2 to V-DEC-5: reserved bits and opcodes beyond the table. -/
theorem test_decode_reserved_words : decode 0x00001000#32 = .error .reservedBits ∧
    decode 0x80000003#32 = .error .reservedBits ∧ decode 0x0000000E#32 = .error .badOpcode ∧
    decode 0x000000FF#32 = .error .badOpcode := ⟨rfl, rfl, rfl, rfl⟩

/-- V-DEC-6 to V-DEC-9: bad UNIT fields. -/
theorem test_decode_bad_units : decode 0x00000201#32 = .error (.badUnit 2) ∧ decode 0x00000F03#32 = .error (.badUnit 15) ∧
    decode 0x00000108#32 = .error (.badUnit 1) ∧ decode 0x00000100#32 = .error (.badUnit 1) := ⟨rfl, rfl, rfl, rfl⟩

/-- A command is four bytes, least significant first (R65, R87). -/
theorem test_decodeBytes : decodeBytes [0x05, 0x01, 0x00, 0x00] = .ok (.smoothProcess 1) ∧
    decodeBytes [0x05, 0x01] = .error .notOneWord ∧ decodeTableWord 32 0x0D = some .step := ⟨rfl, rfl, rfl⟩

/-! ## Helpers -/

/-- The parameters the vectors assume: capacity 1024, WRAP, 2 channels, BLOCK_SIZE 2. EXP and POW10 answer a NaN where
the spec leaves them open. -/
def wrapParams : Params := ⟨1023, 1, 1, .wrap, fun _ => Binary32.qnan, fun _ => Binary32.qnan⟩

/-- The same under NEG_PHASE_POLICY = FAULT. -/
def faultParams : Params := { wrapParams with negPhase := .fault }

/-- Words written to a staging table from index 0 up. -/
def stage (k : UnitIx) : List Word → State → State
  | [], s => s
  | w :: ws, s => stage k ws (setStgWord k ws.length w s)

/-- A state with ARG0 to ARG4. -/
def args (a b c d e : Word) (s : State) : State := { s with arg0 := a, arg1 := b, arg2 := c, arg3 := d, arg4 := e }

/-- What an attempt leaves: its state, or its fault taken in the state before. -/
def after (s : State) (op : State → Attempt) : State := settle false s.cmd s (op s)

/-- The next state of an outcome. -/
def nextOf : Host.Outcome State Fault Refusal → State
  | .next t => t
  | .fault _ => State.reset
  | .refused _ => State.reset

/-- Oscillator 0 configured from a staging table given last word first, with a frequency. -/
def configured (p : Params) (table : List Word) (sr len interp freq : Word) : State :=
  let s := after (args sr len interp 0 0 (stage .k0 table State.reset)) (oscConfigure p .k0)
  s.setOsc .k0 { s.osc0 with freq := freq }

/-- RESULT and OSC0_PHASE after one OSC_PROCESS. -/
def processed (p : Params) (s : State) : Word × Word :=
  let t := after s (oscProcessCommand p .k0)
  (t.result, t.osc0.phase)

/-- `[0, 1, 2, 3]`, last word first. -/
def ramp : List Word := [0x40400000, 0x40000000, 0x3F800000, 0]

/-! ## Arithmetic (R9, R10, R11) -/

/-- R11: each literal is the binary32 nearest to its decimal. -/
theorem test_literals : Binary32.ofRatio false 5 100 = Binary32.tau ∧ Binary32.ofRatio false 3 10 = Binary32.threeTenths ∧
    Binary32.ofRatio false 1 2 = Binary32.half ∧ Binary32.ofNat 20 = Binary32.twenty ∧ Binary32.ofNat 55 = Binary32.fiftyFive ∧
    Binary32.ofNat 880 = Binary32.eightEighty ∧ Binary32.ofRatio false 62831853 10000000 = Binary32.twoPi := by decide

/-- Overflow, subnormals, signed zeros and NaN (V-OUT-6, V-AM-10, V-SM-9). -/
theorem test_special_values : Binary32.mul 0x7E967699#32 0x41200000#32 = 0x7F800000#32 ∧
    Binary32.mul 0x7F800000#32 0 = 0x7FC00000#32 ∧ Binary32.add 0xFF800000#32 0x7F800000#32 = 0x7FC00000#32 ∧
    Binary32.div 0x00000001#32 0x40000000#32 = 0 ∧ Binary32.add 0x80000000#32 0x80000000#32 = 0x80000000#32 := by decide

/-- R10: the greatest finite value plus half a spacing is the overflow threshold; a little less rounds back. -/
theorem test_overflow_threshold : Binary32.add 0x7F7FFFFF#32 0x73000000#32 = 0x7F800000#32 ∧
    Binary32.add 0x7F7FFFFF#32 0x72FFFFFF#32 = 0x7F7FFFFF#32 := by decide +kernel

/-! ## Oscillator -/

/-- V-OSC-21: the registers and the table after a configure. -/
theorem test_oscConfig_V_OSC_21 :
    let s := after (args 0x40800000 4 0 0 0 (stage .k0 [0xBF800000, 0, 0x3F800000, 0] State.reset)) (oscConfigure wrapParams .k0)
    s.osc0 = ⟨4, 0x3E800000, 0, 0, false⟩ ∧ memRead wrapParams 0x3004 s = 0x3F800000 ∧
      memRead wrapParams 0x300C s = 0xBF800000 ∧ memRead wrapParams 0x3010 s = 0 := by decide

/-- R100's pseudocode on subnormal rates (notes/assumptions/21): 1.0 / 2^-127 is 2^127, 1.0 / 2^-149 overflows. -/
theorem test_oscConfig_subnormal_rate : Binary32.div Binary32.one 0x00400000#32 = 0x7F000000#32 ∧
    Binary32.div Binary32.one 0x00000001#32 = 0x7F800000#32 := by decide +kernel

/-- R103: -2^-25 in a table of one word is midway between 1 - 2^-24 and 1, and the even 1 wraps to +0.0. -/
theorem test_normalize_tie : normalizePhase 0xB3000000#32 1 = 0x00000000#32 := by decide

/-- V-OSC-22, V-OSC-25: the two faults of a configure. -/
theorem test_oscConfig_faults :
    (after (args 0x80000000 4 0 0 0 State.reset) (oscConfigure wrapParams .k1)).faultCause = 0x00001003 ∧
    (after (args 0x40800000 1025 0 0 0 State.reset) (oscConfigure wrapParams .k0)).faultCause = 0x00000004 := by decide

/-- V-OSC-31. -/
theorem test_oscSetfreq_V_OSC_31 :
    (nextOf (exec (.oscSetfreq 1) (args 0xFF800000 0 0 0 0 State.reset))).osc1.freq = 0xFF800000 := by decide

/-- V-OSC-4 at phase 3 and V-OSC-7 at phase 0: interpolation across the end, and a negative frequency that wraps. -/
theorem test_oscProcess_interpolates_and_wraps :
    (let s := configured wrapParams ramp 0x41000000 4 1 0x3F800000
     processed wrapParams (s.setOsc .k0 { s.osc0 with phase := 0x40400000 }) = (0x3FC00000, 0x40600000)) ∧
    processed wrapParams (configured wrapParams ramp 0x40800000 4 0 0xBF800000) = (0x40400000, 0x40400000) := by decide

/-- V-OSC-9 and V-OSC-12: a remainder that rounds to N, and an interpolation with rounding. -/
theorem test_oscProcess_rounding :
    processed wrapParams (configured wrapParams ramp 0x40800000 4 0 0xB089705F) = (0, 0) ∧
    processed wrapParams (configured wrapParams [0xBF800000, 0, 0x3F800000, 0] 0x40400000 4 1 0x3F800000)
      = (0x3F2AAAAA, 0x3FAAAAAB) := by decide

/-- V-OSC-8 and V-OSC-18. -/
theorem test_oscProcess_faults :
    (after (configured faultParams ramp 0x40800000 4 0 0xBF800000) (oscProcessCommand faultParams .k0)).faultCause = 0x00000006 ∧
    (after (configured wrapParams ramp 0x40800000 4 0 0x7FC00000) (oscProcessCommand wrapParams .k0)).faultCause = 0x00000007 := by
  decide

/-! ## Smoothing filter -/

/-- V-SM-10 and V-SM-12. -/
theorem test_smoothConfig :
    (nextOf (exec (.smoothConfig 0) (args 0 0x472C4400 0 0 0 State.reset))).sm0 = ⟨0, 0⟩ ∧
    (nextOf (exec (.smoothConfig 1) (args 0x42C80000 0 0 0 0 State.reset))).faultCause = 0x00001003 := by decide

/-- V-SM-4: the overshoot past x in binary32. -/
theorem test_smoothProcess_V_SM_4 :
    (nextOf (exec (.smoothProcess 0) ((args 0x322BCC77 0 0 0 0 State.reset).setSm .k0 ⟨0x3F800000, 0x3F800000⟩))).sm0.state = 0 := by
  decide

/-- V-SM-1, second call: the state and RESULT. -/
theorem test_smoothProcess_V_SM_1 :
    let t := nextOf (exec (.smoothProcess 1) ((args 0x3F800000 0 0 0 0 State.reset).setSm .k1 ⟨0x3F000000, 0x3F000000⟩))
    t.sm1.state = 0x3F400000 ∧ t.result = 0x3F400000 := by decide

/-- V-SM-11 and V-SM-15. -/
theorem test_smoothSetstate_and_smoothSetcoef :
    (nextOf (exec (.smoothSetstate 0) (args 0x3E800000 0 0 0 0 State.reset))).sm0 = ⟨0x3E800000, 0⟩ ∧
    (nextOf (exec (.smoothSetcoef 1) (args 0x3F000000 0 0 0 0 State.reset))).sm1 = ⟨0, 0x3F000000⟩ := by decide

/-! ## Mapper, AM, gain, output -/

/-- V-MAP-9 and V-MAP-12. -/
theorem test_map_values :
    (nextOf (exec .map (args 0x3E800000 0x3F800000 0 0 0x41000000 State.reset))).result = 0x40C00000 ∧
    (nextOf (exec .map (args 0x3F000000 0 0x3F800000 0x3E99999A 0x3F800000 State.reset))).result = 0x3F266666 := by decide

/-- V-MAP-17 and V-MAP-19. -/
theorem test_map_fault_and_nan :
    (nextOf (exec .map (args 0x3F800000 0x40000000 0x40000000 0 0x3F800000 State.reset))).faultCause = 0x00000005 ∧
    (nextOf (exec .map (args 0x3F800000 0x7FC00000 0x7FC00000 0 0x3F800000 State.reset))).result = 0x7FC00000 := by decide

/-- V-AM-3 and V-AM-9. -/
theorem test_am :
    (nextOf (exec .am (args 0xBF000000 0xBF800000 0 0 0 State.reset))).result = 0x80000000 ∧
    (nextOf (exec .am (args 0x3E99999A 0x3E99999A 0 0 0 State.reset))).result = 0x3E47AE15 := by decide

/-- V-GAIN-3 and V-GAIN-7. -/
theorem test_gainDb :
    (nextOf (exec .gainDb (args 0x42200000 0 0 0 0 State.reset))).result = 0x42C80000 ∧
    (nextOf (exec .gainDb (args 0x7FC00000 0 0 0 0 State.reset))).result = 0x7FC00000 := by decide

/-- V-OUT-4 and V-OUT-5. -/
theorem test_outScale :
    (nextOf (exec .outScale (args 0xBF400000 0x40000000 0 0 0 State.reset))).result = 0xBF400000 ∧
    (nextOf (exec .outScale (args 0x3DCCCCCD 0x3DCCCCCD 0 0 0 State.reset))).result = 0x3BA3D70B := by decide

/-! ## Engine -/

/-- V-ENG-1 and V-ENG-2: the gate is strict. -/
theorem test_frame_gate :
    (let t := nextOf (exec .frame { State.reset with touchSize := 0x3D4CCCCD, touchX := 0x3F000000 })
     t.presence = false ∧ t.target0 = 0) ∧
    (let t := nextOf (exec .frame { State.reset with touchSize := 0x3D4CCCCE, touchX := 0x3F000000 })
     t.presence = true ∧ t.target0 = 0x3F000000 ∧ t.gain = 0x3F800000) := by decide

/-- V-ENG-9: STEP from reset. -/
theorem test_step_V_ENG_9 :
    let t := nextOf (exec .step State.reset)
    t.dacStream = [0] ∧ t.scopeStream = [⟨0, 0, 0⟩] ∧ t.osc0.freq = 0x425C0000 ∧ t.intensity1 = 0x3E99999A ∧
      t.sampleCount = 1 ∧ t.gain = 0x3F800000 := by decide

/-- V-ENG-10. -/
theorem test_step_V_ENG_10 :
    (nextOf (exec .step { State.reset with run := true })).faultCause = 0x00000002 := by decide

/-- The registers of program P5 before its tick; the active table holds `[0, 1, 0, -1]`, of which the tick reads
ACT_0[3]. -/
def beforeP5 : State :=
  { State.reset with
    osc0 := ⟨4, 0x3B800000, 0, 0, false⟩
    sm0 := ⟨0, 0x3F800000⟩
    mem := Memory.setWord [] 0x300C 0xBF800000
    touchSize := 0x3F800000
    touchX := 0xBF800000
    run := true }

set_option maxRecDepth 8192 in
/-- P5 under WRAP: the phase and the streams. -/
theorem test_tick_P5_wrap_streams :
    (dacTick wrapParams beforeP5).osc0.phase = 0x407E0000 ∧ (dacTick wrapParams beforeP5).dacStream = [0xBE800000] ∧
      (dacTick wrapParams beforeP5).scopeStream = [⟨0xBE800000, 0xBF800000, 0⟩] := by decide

set_option maxRecDepth 8192 in
/-- P5 under WRAP: the registers. -/
theorem test_tick_P5_wrap_registers :
    (dacTick wrapParams beforeP5).osc0.freq = 0xC4408000 ∧ (dacTick wrapParams beforeP5).intensity0 = 0xBECCCCCC ∧
      statusWord (dacTick wrapParams beforeP5) = 5 ∧ (dacTick wrapParams beforeP5).framePos = 1 := by decide

set_option maxRecDepth 8192 in
/-- P5 under FAULT: V-ENG-14. -/
theorem test_tick_P5_fault :
    (dacTick faultParams beforeP5).faultCause = 0x00000106 ∧ (dacTick faultParams beforeP5).faultInfo = 0x0000000D ∧
      statusWord (dacTick faultParams beforeP5) = 3 ∧ (dacTick faultParams beforeP5).target0 = 0 := by decide

/-- V-ENG-12: SAMPLE_COUNT wraps; with BLOCK_SIZE = 2 and FRAME_POS = 1 the frame position goes to 0 and GAIN is kept
(V-ENG-13). -/
theorem test_tick_counters :
    let t := dacTick wrapParams { State.reset with run := true, sampleCount := 0xFFFFFFFF, framePos := 1, levelDb := 0x41A00000 }
    t.sampleCount = 0 ∧ t.framePos = 0 ∧ t.gain = 0 := by decide

/-! ## The idealised reading (R12), over the rationals -/

/-- V-DOC-5 and V-DOC-7: the first calls of each cycle, starting one sample after DOC's. -/
theorem test_ideal_oscillator :
    (let o : Ideal.Osc ℚ := ⟨[0, 1, 0, -1], 1 / 4, 1, 0, false⟩
     Ideal.oscProcess wrapParams .k0 o = .ok (1, { o with phase := 1 })) ∧
    (let o : Ideal.Osc ℚ := ⟨[0, 1, 2, 3], 1 / 4, 2, 2, false⟩
     Ideal.oscProcess wrapParams .k0 o = .ok (0, { o with phase := 0 })) := by decide +kernel

/-- V-DOC-9 and V-DOC-11. -/
theorem test_ideal_map_and_am : Ideal.controlFrequency (1 / 2 : ℚ) = 935 / 2 ∧ Ideal.amFn (3 : ℚ) (-1) = 0 := by
  decide +kernel

/-! ## Bus, commands and reset -/

/-- V-BUS-2 to V-BUS-4 and V-BUS-6. -/
theorem test_bus_reads :
    memRead wrapParams 0x003 State.reset = 0x5754414D ∧ memRead wrapParams 0x004 State.reset = 0x00020400 ∧
    memRead faultParams 0x004 State.reset = 0x00020C00 ∧ memRead wrapParams 0x008 State.reset = 2 ∧
    memRead wrapParams 0x038 State.reset = 0 ∧ memRead wrapParams 0xFFFC State.reset = 0 := by decide

/-- V-BUS-7 and V-BUS-8. -/
theorem test_bus_windows :
    memRead wrapParams 0x1007 (nextOf (memWrite wrapParams 0x1004 0x3F800000 State.reset)) = 0x3F800000 ∧
    nextOf (memWrite wrapParams 0x3000 0x3F800000 State.reset) = State.reset := by decide

/-- V-BUS-11 and V-ENG-7. -/
theorem test_ctrl_writes :
    memRead wrapParams 0x00C (nextOf (memWrite wrapParams 0x00C 0xFFFFFFFF State.reset)) = 1 ∧
    (nextOf (memWrite wrapParams 0x00C 1 { State.reset with framePos := 1 })).framePos = 0 ∧
    (nextOf (memWrite wrapParams 0x00C 1 { State.reset with framePos := 1, run := true })).framePos = 1 := by decide

/-- V-DEC-7, V-DEC-10 and V-DEC-13: the fault records of a CMD write. -/
theorem test_cmd_faults :
    (nextOf (memWrite wrapParams 0x01C 0x00000F03 State.reset)).faultCause = 0x0000F001 ∧
    (nextOf (memWrite wrapParams 0x01C 0x00000102 { State.reset with run := true })).faultCause = 0x00001002 ∧
    (nextOf (memWrite wrapParams 0x01C 0x00000201 { State.reset with run := true })).faultCause = 0x00002001 ∧
    (nextOf (memWrite wrapParams 0x01C 0x00000F03 State.reset)).faultInfo = 0x00000F03 := by decide

/-- P4 after its fault: a CMD write only stores the word, `run` is ignored, ARG0 still stores. -/
theorem test_halted_writes :
    nextOf (memWrite wrapParams 0x01C 2 { State.reset with halted := true }) = { State.reset with halted := true, cmd := 2 } ∧
    (nextOf (memWrite wrapParams 0x00C 1 { State.reset with halted := true })).run = false ∧
    (nextOf (memWrite wrapParams 0x024 7 { State.reset with halted := true })).arg0 = 7 := by decide

/-- V-RST-2. -/
theorem test_reset_input :
    nextOf (step { State.reset with inputs := [.reset], halted := true, faultCause := 5, run := true, dacStream := [0] })
      = { State.reset with tableEpoch := 1 } := rfl

/-- The encodings beside the programs P1 and P3 (R89). -/
theorem test_script :
    Script.oscConfig .k1 0x43800000 4 0 =
      [.busWrite 0x024 0x43800000, .busWrite 0x028 4, .busWrite 0x02C 0, .busWrite 0x01C 0x00000101] ∧
    Script.stg .k1 3 0xBF800000 = [.busWrite 0x200C 0xBF800000] ∧
    Script.touch 0 0x3F000000 0x3F000000 = [.busWrite 0x040 0, .busWrite 0x044 0x3F000000, .busWrite 0x048 0x3F000000] := by
  decide

/-- The very next step runs a placed command as the first one after reset. -/
theorem test_withFetchWord :
    nextOf (step (State.reset.withFetchWord 32 0x0000000C)) = nextOf (exec .frame { State.reset with cmd := 0x0000000C }) := rfl

set_option maxRecDepth 8192 in
/-- Program P3, tick 1, run by STEP: phases 0.859375 and 1.75, c = m = 1, out = 0.5. -/
theorem test_step_P3_tick_1 :
    let s := { State.reset with
      osc0 := ⟨4, 0x3B800000, 0, 0, false⟩, osc1 := ⟨4, 0x3B800000, 0, 0, false⟩
      sm0 := ⟨0, 0x3F800000⟩, sm1 := ⟨0, 0x3F800000⟩
      mem := Memory.setWord (Memory.setWord [] 0x3000 0x3F800000) 0x4004 0x3F800000
      touchSize := 0x3E4CCCCD, touchY := 0x3F800000 }
    (nextOf (exec .step s)).osc0.phase = 0x3F5C0000 ∧ (nextOf (exec .step s)).osc1.phase = 0x3FE00000 ∧
      (nextOf (exec .step s)).scopeStream = [⟨0x3F000000, 0, 0x3F800000⟩] := by decide

/-! ## Witnesses: a state and operands that meet the hypotheses of each statement -/

/-- A state whose next input is given. -/
def pending (i : Input) (s : State) : State := { s with inputs := [i] }

/-- A halted state. -/
def haltedState : State := takeFault false 8 ⟨.mapDivZero, 0⟩ State.reset

/-- Oscillators of one word, silent and ready; filters at rest. -/
def ready : State := { State.reset with osc0 := ⟨1, 0, 0, 0, true⟩, osc1 := ⟨1, 0, 0, 0, false⟩ }

/-- Oscillator `k`'s phase is a NaN on a table of one word: it faults NONFINITE_PHASE. -/
def badPhase (k : UnitIx) : State := State.reset.setOsc k ⟨1, 0, 0, Binary32.qnan, false⟩

theorem witness_DecodeOfEncodeIsTheCommand : WellFormed (.oscConfig 0) = true ∧ WellFormed (.smoothSetcoef 1) = true ∧
    WellFormed .step = true := by decide

theorem witness_DecodedWordIsItsEncoding : decode 0x00000000#32 = .ok .nop ∧ decode 0x00000107#32 = .ok (.smoothSetcoef 1) :=
  ⟨rfl, rfl⟩

/-- A word of each kind of R86, at the boundary, and the last legal words beside them. -/
theorem witness_IllegalWordsAreTheFourKinds :
    decode 0x00001000#32 = .error .reservedBits ∧ decode 0x0000000E#32 = .error .badOpcode ∧
    decode 0x00000201#32 = .error (.badUnit 2) ∧ decode 0x0000010D#32 = .error (.badUnit 1) ∧
    decode 0x0000000D#32 = .ok .step ∧ decode 0x00000101#32 = .ok (.oscConfig 1) := ⟨rfl, rfl, rfl, rfl, rfl, rfl⟩

theorem witness_StepRunsTheDecodedCommand :
    let s := pending (.busWrite 0x01C 0x0000000D) State.reset
    s.inputs = [.busWrite 0x01C 0x0000000D] ∧ s.halted = false ∧ decode 0x0000000D#32 = .ok .step := ⟨rfl, rfl, rfl⟩

/-- The clauses of the UNIT: a UNIT check, and reserved bits beside a bad UNIT. -/
theorem witness_IllegalWordTakesIllegalCmd :
    (pending (.busWrite 0x01C 0x00000201) State.reset).halted = false ∧
    decode 0x00000201#32 = .error (.badUnit 2) ∧ decode 0x0000020E#32 = .error .badOpcode ∧
    decode 0x00001201#32 = .error .reservedBits := ⟨rfl, rfl, rfl, rfl⟩

theorem witness_HaltedCmdWriteOnlyStoresTheWord :
    let s := pending (.busWrite 0x01C 0x0000000E) haltedState
    s.inputs = [.busWrite 0x01C 0x0000000E] ∧ s.halted = true := ⟨rfl, rfl⟩

theorem witness_BusReadHasNoSideEffect : (pending (.busRead 0xFFFF) State.reset).inputs = [.busRead 0xFFFF] := rfl

theorem witness_CtrlWriteSetsRunAndRestartsTheFrame : haltedState.halted = true ∧ State.reset.halted = false ∧
    State.reset.run = false ∧ (0x00000001#32).getLsbD 0 = true := by decide

/-- The first and the last plain register of each row of the map. -/
theorem witness_RegistersAreReachedAtTheirOffsets :
    (placeOf Config.params 0x024 = .reg .arg0 ∧ PlainRwReg .arg0) ∧ (placeOf Config.params 0x037 = .reg .arg4 ∧ PlainRwReg .arg4) ∧
    (placeOf Config.params 0x040 = .reg .touchSize ∧ PlainRwReg .touchSize) ∧
    (placeOf Config.params 0x04F = .reg .levelDb ∧ PlainRwReg .levelDb) ∧ Reg.arg1 ≠ .arg0 := by
  refine ⟨⟨rfl, ?_⟩, ⟨rfl, ?_⟩, ⟨rfl, ?_⟩, ⟨rfl, ?_⟩, by decide⟩ <;> simp [PlainRwReg]

/-- The clauses: active indices at and below the length, in both windows; the first staging index beyond a capacity of
4 and the last; the ends of the unmapped ranges; an RO register. -/
theorem witness_ActiveWordsReadAndOtherAccessesAreAbsorbed :
    let p : Params := { wrapParams with capacityLess1 := 3 }
    (ready.osc0.len.toNat = 1 ∧ ready.osc1.len.toNat = 1 ∧ placeOf p 0x3000 = .act .k0 0 ∧ placeOf p 0x3004 = .act .k0 1 ∧
      placeOf p 0x4FFC = .act .k1 1023) ∧
    (p.tableCapacity ≤ 4 ∧ 4 < 1024 ∧ p.tableCapacity ≤ 1023 ∧ placeOf p 0x1010 = .unmapped ∧ placeOf p 0x2FFC = .unmapped) ∧
    ([0x038#16, 0x03F, 0x070, 0x0FF, 0x114, 0x11F, 0x134, 0x17F, 0x188, 0x18F, 0x198, 0xFFF, 0x5000, 0xFFFF].map (placeOf p)
      = List.replicate 14 .unmapped) ∧
    placeOf p 0x020 = .reg .result ∧ ¬ PlainRwReg .result := by
  refine ⟨by decide, by decide, by decide, by decide, by simp [PlainRwReg]⟩

theorem witness_StagingWordIsStoredAndReadBack : 0 < wrapParams.tableCapacity ∧ 1023 < wrapParams.tableCapacity := by decide

/-- A command and a tick that fault. -/
theorem witness_FaultsArePrecise :
    State.reset.halted = false ∧ (nextOf (exec .map State.reset)).halted = true ∧
    (dacTick wrapParams { badPhase .k0 with run := true }).halted = true := by decide

theorem witness_CommandChecksFaultInOrder :
    WellFormed (.oscConfig 2) = false ∧ WellFormed .step = true ∧ Instr.step ∉ [Instr.nop, .map, .am, .gainDb, .outScale] ∧
    ({ State.reset with run := true } : State).halted = false := by decide

theorem witness_HaltedIsStickyUntilReset :
    haltedState.halted = true ∧ step (pending .tick haltedState) = .next haltedState ∧
    (∀ rest, (pending .tick haltedState).inputs ≠ .reset :: rest) :=
  ⟨rfl, rfl, fun rest h => by cases h⟩

theorem witness_ResetInputRestoresTheResetState : (pending .reset haltedState).inputs = [.reset] := rfl

/-- At length 0 and at length 1, which every capacity holds. -/
theorem witness_OscConfigCompletes :
    let s := args 0x00000001 1 0xFFFFFFFF 0 0 State.reset
    MayRun (.oscConfig 1) s ∧ Binary32.gt s.arg0 0x00000000#32 = true ∧ s.arg1.toNat ≤ Config.params.tableCapacity ∧
      (0x00000000#32).toNat ≤ Config.params.tableCapacity :=
  ⟨by decide, by decide, Nat.le_add_left 1 _, Nat.zero_le _⟩

theorem witness_OscConfigFaultsInOrder :
    MayRun (.oscConfig 0) State.reset ∧ Binary32.gt State.reset.arg0 0x00000000#32 = false ∧
    Binary32.gt 0x7F800000#32 0x00000000#32 = true ∧ Config.params.tableCapacity < (1025#32).toNat :=
  ⟨by decide, by decide, by decide, Nat.succ_lt_succ Config.params.capacityLess1.isLt⟩

theorem witness_OscSetfreqStoresTheFrequency : MayRun (.oscSetfreq 1) State.reset := by decide

theorem witness_OscProcessOfAnEmptyTableIsSilent :
    let s := State.reset.setOsc .k1 ⟨0, 0, 0x7FC00000, 0, true⟩
    MayRun (.oscProcess 1) s ∧ (s.osc (unitOf 1)).len = 0 := by decide

/-- A phase that stays non-negative, whatever the policy; under WRAP the second clause admits a negative one. -/
theorem witness_OscProcessAdvancesThePhaseAndReads :
    MayRun (.oscProcess 0) ready ∧ (ready.osc (unitOf 0)).len.toNat ≠ 0 ∧
    Binary32.isFinite (accumulatedPhase (ready.osc (unitOf 0))) = true ∧
    Binary32.lt (accumulatedPhase (ready.osc (unitOf 0))) 0x00000000#32 = false := by decide

/-- The clauses: a NaN phase; a negative phase under either policy; the command's own fault. -/
theorem witness_OscProcessFaultsInOrder :
    Binary32.isFinite (accumulatedPhase ((badPhase .k1).osc .k1)) = false ∧
    (let o : Osc := ⟨1, 0x3F800000, 0xBF000000, 0, false⟩
     Binary32.isFinite (accumulatedPhase o) = true ∧ Binary32.lt (accumulatedPhase o) 0x00000000#32 = true) ∧
    faultParams.negPhase = .fault ∧ wrapParams.negPhase = .wrap ∧
    MayRun (.oscProcess 1) (badPhase .k1) ∧ unitOf 1 = .k1 ∧
    oscProcess Config.params .k1 (badPhase .k1) = .error ⟨.nonfinitePhase, 1⟩ :=
  ⟨by decide, by decide, rfl, rfl, by decide, rfl, rfl⟩

/-- The least and the greatest table; a phase in the table, one at N, one below 0, and one whose remainder is a tie. -/
theorem witness_NormalizedPhaseIsTheRoundedRemainder :
    Binary32.isFinite 0xFF7FFFFF#32 = true ∧ 1 ≤ 1 ∧ 1 ≤ 1024 ∧ 1024 ≤ 1024 ∧
    (Binary32.le 0x00000000#32 0x00000000#32 = true ∧ Binary32.lt 0x00000000#32 (Binary32.ofNat 1) = true) ∧
    Binary32.le (Binary32.ofNat 1024) 0x44800000#32 = true ∧ Binary32.lt 0x80000001#32 0x00000000#32 = true ∧
    Binary32.isFinite 0xB3000000#32 = true ∧ Binary32.lt 0xB3000000#32 0x00000000#32 = true := by decide

/-- The least phase, and the greatest below 1024. -/
theorem witness_LookupIndexInRangeAndFractionExact :
    Binary32.isFinite 0x447FFFFF#32 = true ∧ Binary32.le 0x00000000#32 0x447FFFFF#32 = true ∧
    Binary32.lt 0x447FFFFF#32 (Binary32.ofNat 1024) = true ∧ Binary32.lt 0x00000000#32 (Binary32.ofNat 1) = true := by decide

/-- Both clauses, with the word itself its neighbour (n = 1). -/
theorem witness_IntegerPhaseReturnsTheTableWord :
    let s := { ready with mem := (Memory.setWord (Memory.setWord [] 0x3000 0x3F800000) 0x4000 0x80000000) }
    (s.osc .k1).interp = false ∧ (s.osc .k0).interp = true ∧ Binary32.isNaN (actWord s .k0 0) = false ∧
    actWord s .k0 0 ≠ 0x80000000#32 ∧ Binary32.isFinite (actWord s .k0 ((0 + 1) % 1)) = true := by decide

/-- A phase at each end of a table of one word, and one beyond it; a finite binary32 phase. -/
theorem witness_IdealOscillatorReadsItsTable :
    (1 ≤ 1 ∧ (0 : ℝ) ≤ 0 ∧ (0 : ℝ) < (1 : Nat) ∧ (0 : ℝ) ≤ 3) ∧
    (let o : Ideal.Osc ℝ := ⟨[1], 0, 0, 0, true⟩
     o.interp = true ∧ (0 : ℝ) ≤ 1 / 2 ∧ (1 / 2 : ℝ) < o.table.length) ∧
    (Binary32.isFinite 0x7F7FFFFF#32 = true ∧ Binary32.le 0x00000000#32 0x7F7FFFFF#32 = true ∧ 1 ≤ 1024 ∧ 1024 ≤ 1024) :=
  ⟨by norm_num, ⟨rfl, by norm_num, by norm_num⟩, by decide, by decide, by decide, by decide⟩

theorem witness_SmoothConfigWritesTheCoefficientOrFaults :
    MayRun (.smoothConfig 1) (args 0 0x00000001 0 0 0 State.reset) ∧
    Binary32.gt (args 0 0x00000001 0 0 0 State.reset).arg1 0x00000000#32 = true ∧
    MayRun (.smoothConfig 0) State.reset ∧ Binary32.gt State.reset.arg1 0x00000000#32 = false := by decide

theorem witness_ZeroCutoffGivesCoefficientZero : Binary32.isZero 0x80000000#32 = true ∧ Binary32.isZero 0 = true ∧
    Binary32.gt 0x00000001#32 0x00000000#32 = true ∧ Binary32.gt 0x7F800000#32 0x00000000#32 = true := by decide

theorem witness_SmoothProcessUpdatesStateAndResult : MayRun (.smoothProcess 0) State.reset ∧ MayRun (.smoothProcess 1) State.reset := by
  decide

theorem witness_SmoothLoadsStoreTheOperand : MayRun (.smoothSetstate 1) State.reset ∧ MayRun (.smoothSetcoef 0) State.reset := by
  decide

/-- Distinct bounds, a NaN bound (never equal), and +0 against -0 (equal); halted nowhere. -/
theorem witness_MapComputesTheLinearMapOrFaults :
    State.reset.halted = false ∧ Binary32.eq 0x00000000#32 0x3F800000#32 = false ∧
    Binary32.eq 0x7FC00000#32 0x7FC00000#32 = false ∧ Binary32.eq 0x00000000#32 0x80000000#32 = true := by decide

/-- Coefficients below and at the end of (0, 1]. -/
theorem witness_IdealSmoothingApproachesTheInput : (0 : ℝ) < 1 / 2 ∧ (1 / 2 : ℝ) ≤ 1 ∧ (1 / 2 : ℝ) < 1 ∧ (0 : ℝ) < 1 ∧ (1 : ℝ) ≤ 1 ∧
    (0 : ℝ) ≠ 1 := by norm_num

theorem witness_IdealMapIsTheLineThroughItsBounds : (0 : ℝ) ≠ 1 := by norm_num

theorem witness_FixedRangesOfTheEngine : Binary32.isNaN 0x80000000#32 = false := by decide

theorem witness_AmGainDbAndOutScaleWriteResult : ({ State.reset with run := true } : State).halted = false := rfl

theorem witness_GainOfTheExactDecibels : Binary32.isNaN 0xFFFFFFFF#32 = true := by decide

/-- The clauses meet at -0 and the infinities. -/
theorem witness_AmAtPeakAndTrough : Binary32.isNaN 0x7F800000#32 = false ∧ Binary32.isFinite 0x80000000#32 = true := by decide

theorem witness_NopChangesNothing : State.reset.halted = false ∧ (0x00000100#32).toNat % 256 = 0 ∧ 0x00000100#32 ≠ 0#32 := by decide

theorem witness_FrameGatesTheTouch : MayRun .frame State.reset := by decide

/-- A one-word oscillator at rest stays ready through the frame step and the axis updates: its rate is 0. -/
theorem witness_StepCommandCompletesAStreamStep : MayRun .step ready ∧ StreamReady Config.params ready := by
  refine ⟨by decide, fun k => ?_⟩
  cases k <;> exact .inr ⟨by decide, .inl (by decide)⟩

theorem witness_TickCompletesAStreamStep :
    let s := { ready with inputs := [Input.tick], run := true }
    s.inputs = [.tick] ∧ s.run = true ∧ s.halted = false ∧ StreamReady Config.params s := by
  refine ⟨rfl, rfl, rfl, fun k => ?_⟩
  cases k <;> exact .inr ⟨by decide, .inl (by decide)⟩

theorem witness_TickIsDroppedWhenStoppedOrHalted :
    (pending .tick State.reset).inputs = [.tick] ∧ State.reset.run = false ∧
    (pending .tick haltedState).inputs = [.tick] ∧ haltedState.halted = true := ⟨rfl, rfl, rfl, rfl⟩

/-- Oscillator 0 faults; oscillator 0 is ready and oscillator 1 faults; stopped and running. -/
theorem witness_StreamStepFaultOrder :
    oscProcess Config.params .k0 (axesStep (frameGate Config.params (badPhase .k0))) = .error ⟨.nonfinitePhase, 0⟩ ∧
    (OscReady Config.params ((axesStep (frameGate Config.params (badPhase .k1))).osc .k0) ∧
      oscProcess Config.params .k1 (axesStep (frameGate Config.params (badPhase .k1))) = .error ⟨.nonfinitePhase, 1⟩) ∧
    MayRun .step (badPhase .k0) ∧ ({ badPhase .k1 with run := true } : State).halted = false :=
  ⟨rfl, ⟨.inl rfl, rfl⟩, by decide, rfl⟩

theorem witness_StepCommandAgreesWithTheTick : MayRun .step ready := by decide

theorem witness_EveryStepKeepsTheInvariant : Inv Config.params State.reset ∧ step State.reset = .next State.reset := by
  refine ⟨⟨List.Pairwise.nil, fun c h => (by cases h), fun k => ?_, fun k => ?_, fun k => ?_, Nat.succ_pos _, rfl, rfl, rfl,
    fun _ => ⟨rfl, rfl⟩, fun h => (by cases h)⟩, rfl⟩ <;> cases k
  all_goals first | exact Nat.zero_le _ | (intro h; exact absurd h (by decide)) | decide

theorem witness_TheBlockNeverWritesItsInputs : exec .nop State.reset = .next State.reset := rfl

theorem witness_ResultIsWrittenOnlyByValueCommands : exec .nop State.reset = .next State.reset ∧
    (∀ u, Instr.nop ≠ .oscProcess u) ∧ (∀ u, Instr.nop ≠ .smoothProcess u) ∧
    Instr.nop ∉ [Instr.map, .am, .gainDb, .outScale] := by
  refine ⟨rfl, fun u h => ?_, fun u h => ?_, by decide⟩ <;> cases h

theorem witness_NoCommandButOscConfigAndNoTickWritesTheTables : exec .nop State.reset = .next State.reset ∧ ∀ u, Instr.nop ≠ .oscConfig u :=
  ⟨rfl, fun u h => by cases h⟩

/-- A command; a dropped tick, a bus read, a CMD write of another command and a CTRL write that starts the block. -/
theorem witness_EngineRegistersAreWrittenOnlyByTheEngine :
    (exec .nop State.reset = .next State.reset ∧ Instr.nop ≠ .step ∧ Instr.nop ≠ .frame) ∧
    (step (pending .tick State.reset) = .next State.reset ∧ (pending .tick State.reset).run = false) ∧
    (∃ t, step (pending (.busRead 0x058) State.reset) = .next t) ∧
    ((∃ t, step (pending (.busWrite 0x01C 8) State.reset) = .next t) ∧ decode 8 ≠ .ok .frame ∧ decode 8 ≠ .ok .step) ∧
    (∃ t, step (pending (.busWrite 0x00C 1) { State.reset with framePos := 1 }) = .next t ∧ t.framePos = 0 ∧ t.run = true) ∧
    (0x00C#16 &&& 0xFFFC#16 ≠ 0x01C#16) :=
  ⟨⟨rfl, by decide, by decide⟩, ⟨rfl, rfl⟩, ⟨_, rfl⟩, ⟨⟨_, rfl⟩, by decide, by decide⟩, ⟨_, rfl, rfl, rfl⟩, by decide⟩

/-- A step that emits, and a step that does not. -/
theorem witness_StreamsOnlyGrowTogether :
    (∃ t, step (pending .tick { State.reset with run := true }) = .next t ∧ t.dacStream = [0]) ∧
    step State.reset = .next State.reset ∧ (∀ rest, State.reset.inputs ≠ .reset :: rest) :=
  ⟨⟨_, rfl, by decide⟩, rfl, fun rest h => by cases h⟩

/-- Two states that differ in a staging byte; with a read of a register pending both step, and the read is of no staging
window. -/
theorem witness_StagingIsInvisibleUntilConfigured :
    SameButStaging (setStgWord .k0 0 0x3F800000 State.reset) (setStgWord .k0 0 0x40000000 State.reset) ∧
    setStgWord .k0 0 0x3F800000 State.reset ≠ setStgWord .k0 0 0x40000000 State.reset ∧
    (∃ t, step (setStgWord .k0 0 0x3F800000 (pending (.busRead 0x0FFF) State.reset)) = .next t) ∧
    (∃ t, step (setStgWord .k0 0 0x40000000 (pending (.busRead 0x0FFF) State.reset)) = .next t) ∧
    ¬ (0x1000 ≤ (0x0FFF#16).toNat ∧ (0x0FFF#16).toNat < 0x3000) ∧ ¬ (0x1000 ≤ (0x3000#16).toNat ∧ (0x3000#16).toNat < 0x3000) := by
  refine ⟨⟨rfl, fun a ha => ?_⟩, fun h => absurd (congrArg State.mem h) (by decide), ⟨_, rfl⟩, ⟨_, rfl⟩, by decide, by decide⟩
  rw [tableByte_setStgWord, tableByte_setStgWord] <;> simp only [stgBase] <;> omega

/-- The least and the greatest finite operands; sums and differences that are 0, of zeros and of other values; a divisor
that is not 0; a sum and a product from the overflow threshold on, and sums below it. -/
theorem witness_OperationsRoundToNearestEven :
    Binary32.isFinite 0x00000001#32 = true ∧ Binary32.isFinite 0x7F7FFFFF#32 = true ∧ Binary32.isFinite 0x80000000#32 = true ∧
    (Binary32.toUnits 0x80000000#32 + Binary32.toUnits 0x80000000#32 = 0 ∧
      Binary32.toUnits 0x80000000#32 - Binary32.toUnits 0x00000000#32 = 0 ∧
      Binary32.toUnits 0x00000001#32 + Binary32.toUnits 0x80000001#32 = 0) ∧
    Binary32.toUnits 0x7F7FFFFF#32 ≠ 0 ∧
    ((2 ^ 25 - 1) * 2 ^ 252 * |(1 : Int)| ≤ |Binary32.toUnits 0x7F7FFFFF#32 + Binary32.toUnits 0x73000000#32| ∧
      |Binary32.toUnits 0x7F7FFFFF#32 + Binary32.toUnits 0x72FFFFFF#32| < (2 ^ 25 - 1) * 2 ^ 252 * |(1 : Int)|) := by decide

/-- NaN, infinite and zero operands of each clause, a NaN result without a NaN operand, and comparisons at the
infinities and zeros. -/
theorem witness_SpecialOperandsAndComparisons :
    Binary32.isNaN (Binary32.sub 0x7F800000#32 0x7F800000#32) = true ∧ Binary32.isNaN 0xFFFFFFFF#32 = true ∧
    Binary32.isNaN 0x7F800000#32 = false ∧ Binary32.isNaN 0x80000000#32 = false ∧
    Binary32.isInf 0xFF800000#32 = true ∧ Binary32.neg? 0xFF800000#32 ≠ Binary32.neg? 0x7F800000#32 ∧
    Binary32.isFinite 0x00000001#32 = true ∧ Binary32.isZero 0x80000000#32 = true := by decide

end Sys2Proof.Tests
end

