-- ==== Sys2Proof/Proofs/RoundToNearest.lean ====
section
/-! SUPPORT. Each operation on finite operands is the exact result rounded to nearest, ties to even (00_scope.md R9,
R10). The exact result's sign is taken apart from its magnitude, which `roundMag_nearest` and `roundMag_overflow` round. -/

namespace Sys2Proof.Machine.Binary32

/-! Signs and values of finite patterns. -/

theorem natAbs_toUnits (x : F32) : (toUnits x).natAbs = magnitude x := by
  unfold toUnits; split <;> simp

theorem toUnits_nonpos_of_neg {x : F32} (h : neg? x = true) : toUnits x ≤ 0 := by simp [toUnits, h]

theorem toUnits_nonneg_of_not_neg {x : F32} (h : neg? x = false) : 0 ≤ toUnits x := by simp [toUnits, h]

/-- The sign of a value that is not zero is its sign bit. -/
theorem neg?_eq_decide {x : F32} (h : toUnits x ≠ 0) : neg? x = decide (toUnits x < 0) := by
  cases hs : neg? x
  · have := toUnits_nonneg_of_not_neg hs
    exact (decide_eq_false (by omega)).symm
  · have := toUnits_nonpos_of_neg hs
    exact (decide_eq_true (by omega)).symm

/-- Sign bits multiply as the values do. -/
theorem neg?_bne_neg? {x y : F32} (h : toUnits x * toUnits y ≠ 0) :
    (neg? x != neg? y) = decide (toUnits x * toUnits y < 0) := by
  obtain ⟨hx, hy⟩ := mul_ne_zero_iff.1 h
  rw [neg?_eq_decide hx, neg?_eq_decide hy, Bool.eq_iff_iff]
  simp only [bne_iff_ne, ne_eq, decide_eq_decide, decide_eq_true_eq, mul_neg_iff]
  omega

theorem eq_negZero_iff {x : F32} : x = 0x80000000#32 ↔ neg? x = true ∧ toUnits x = 0 := by
  constructor
  · rintro rfl; decide
  · rintro ⟨hs, h0⟩
    rcases isZero_iff_pattern.1 ((isZero_iff x).2 h0) with rfl | rfl
    · exact absurd hs (by decide)
    · rfl

theorem negate_eq_negZero_iff {y : F32} : negate y = 0x80000000#32 ↔ y = 0x00000000#32 := by
  rw [eq_negZero_iff, neg?_negate, toUnits_negate]
  constructor
  · rintro ⟨hs, h0⟩
    rcases isZero_iff_pattern.1 ((isZero_iff y).2 (by omega)) with rfl | rfl
    · rfl
    · exact absurd hs (by decide)
  · rintro rfl; decide

/-- Bit 0 of a rounded pattern is the parity of its bits 30:0. -/
theorem getLsbD_zero_roundSigned (b : Bool) {num den : Nat} (h : roundMag num den % 2 = 0) :
    (roundSigned b num den).getLsbD 0 = false := by
  rw [roundSigned, withSign, BitVec.getLsbD_ofNat, Nat.testBit_zero]
  cases b <;> simp <;> omega

theorem withSign_infMag (b : Bool) : withSign b infMag = if b then 0xFF800000#32 else 0x7F800000#32 := by
  cases b <;> rfl

/-! The exact value `a / den`, its sign taken apart from its magnitude. -/

/-- The distance from `± n` to `a / den`, times `den`: the distance of the magnitudes where the signs agree, their sum
where they do not. -/
theorem abs_signed_sub {s t : Bool} {a : Int} (n den : Nat) (hs : a ≠ 0 → s = decide (a < 0)) :
    |(if t then -(n : Int) else n) * den - a| =
      if t = s then |(n * den : Int) - a.natAbs| else n * den + a.natAbs := by
  have hn : (0 : Int) ≤ n * den := by positivity
  rcases lt_trichotomy a 0 with ha | rfl | ha
  · obtain rfl : s = true := (hs ha.ne).trans (decide_eq_true ha)
    rw [Int.ofNat_natAbs_of_nonpos ha.le]
    cases t
    · rw [if_neg (by decide), if_neg (by decide), abs_of_nonneg (by linarith)]; ring
    · rw [if_pos rfl, if_pos rfl, ← abs_neg]; congr 1; ring
  · cases t <;> simp
  · obtain rfl : s = false := (hs ha.ne').trans (decide_eq_false (by omega))
    rw [Int.natAbs_of_nonneg ha.le]
    cases t
    · rw [if_neg (by decide), if_pos rfl]
    · rw [if_pos rfl, if_neg (by decide), ← abs_neg, abs_of_nonneg (by linarith)]; ring

/-- No finite value is closer to `a / den` than the pattern rounded with its sign, and where one is as close it is the
same value or the pattern is even. A value of the other sign is no closer than zero is. -/
theorem roundSigned_nearest {s : Bool} {a : Int} {den : Nat} (hd : 0 < den) (hs : a ≠ 0 → s = decide (a < 0))
    (hfin : roundMag a.natAbs den < infMag) (z : F32) :
    let r := roundSigned s a.natAbs den
    |toUnits r * den - a| ≤ |toUnits z * den - a| ∧
    (|toUnits r * den - a| = |toUnits z * den - a| → toUnits z = toUnits r ∨ r.getLsbD 0 = false) := by
  intro r
  have hr : |toUnits r * den - a| = |(unitsOfMag (roundMag a.natAbs den) * den : Int) - a.natAbs| := by
    rw [toUnits_roundSigned, abs_signed_sub _ _ hs, if_pos rfl]
  have hz := abs_signed_sub (t := neg? z) (magnitude z) den hs
  rw [← toUnits] at hz
  rw [hr, hz]
  split
  case isTrue hsign =>
    obtain ⟨hle, htie⟩ := roundMag_nearest a.natAbs hd hfin (magBits z)
    refine ⟨hle, fun heq => (htie heq).imp (fun hm => ?_) (getLsbD_zero_roundSigned s)⟩
    rw [toUnits_roundSigned, toUnits, magnitude, hm, hsign]
  case isFalse =>
    obtain ⟨hle, htie⟩ := roundMag_nearest a.natAbs hd hfin 0
    have hzero : |(unitsOfMag 0 * den : Int) - a.natAbs| = a.natAbs := by simp [unitsOfMag_zero]
    have hmag : (0 : Int) ≤ magnitude z * den := by positivity
    rw [hzero] at hle htie
    refine ⟨by linarith, fun heq => ?_⟩
    have hz0 : magnitude z = 0 := by
      have : (magnitude z * den : Int) = 0 := by linarith
      simpa [hd.ne'] using this
    refine (htie (by linarith)).imp (fun hm => ?_) (getLsbD_zero_roundSigned s)
    rw [toUnits_roundSigned, ← hm, unitsOfMag_zero, toUnits, hz0]; simp

/-- The pattern rounded with the sign of `a / den` is `a / den` rounded to nearest, ties to even. -/
theorem rounded_roundSigned {s : Bool} {a : Int} {den : Nat} (hd : 0 < den) (hs : a ≠ 0 → s = decide (a < 0)) :
    Rounded (roundSigned s a.natAbs den) a den := by
  have hover : roundMag a.natAbs den = infMag ↔ (2 ^ 25 - 1) * 2 ^ 252 * |(den : Int)| ≤ |a| := by
    rw [roundMag_overflow a.natAbs hd]; zify; norm_num
  constructor
  · intro hlt
    have hfin : roundMag a.natAbs den < infMag :=
      lt_of_le_of_ne (roundMag_le_inf _ _) fun h => absurd (hover.1 h) (not_le.2 hlt)
    exact ⟨by simpa [isFinite] using hfin, fun z _ => roundSigned_nearest hd hs hfin z⟩
  · intro hge
    have ha : a ≠ 0 := by
      rintro rfl
      have : (0 : Int) < |(den : Int)| := by simpa using hd
      rw [abs_zero] at hge; linarith
    have hsign : a * den < 0 ↔ a < 0 := by simp [mul_neg_iff, hd]
    rw [roundSigned, hover.2 hge, withSign_infMag, hs ha]
    simp only [decide_eq_true_eq, hsign]

/-- `-a / -b` is `a / b`. -/
theorem rounded_of_neg_neg {r : F32} {a b : Int} (h : Rounded r (-a) (-b)) : Rounded r a b := by
  have hdist : ∀ v : Int, |v * -b - -a| = |v * b - a| := fun v => by rw [← abs_neg]; congr 1; ring
  simpa only [Rounded, hdist, abs_neg, neg_mul_neg] using h

/-! The operations on finite operands. -/

theorem rounded_add {x y : F32} (hx : isFinite x = true) (hy : isFinite y = true) :
    Rounded (add x y) (toUnits x + toUnits y) 1 := by
  by_cases h0 : toUnits x + toUnits y = 0
  · rw [add_zero_sum hx hy h0, h0]
    exact rounded_roundSigned (a := 0) (den := 1) one_pos (fun h => absurd rfl h)
  · rw [add_finite hx hy h0]
    exact rounded_roundSigned one_pos (fun _ => rfl)

theorem rounded_sub {x y : F32} (hx : isFinite x = true) (hy : isFinite y = true) :
    Rounded (sub x y) (toUnits x - toUnits y) 1 := by
  rw [sub, sub_eq_add_neg, ← toUnits_negate]
  exact rounded_add hx ((isFinite_negate y).trans hy)

theorem rounded_mul {x y : F32} (hx : isFinite x = true) (hy : isFinite y = true) :
    Rounded (mul x y) (toUnits x * toUnits y) (2 ^ 149) := by
  rw [mul_finite hx hy, ← natAbs_toUnits, ← natAbs_toUnits, ← Int.natAbs_mul]
  exact rounded_roundSigned (den := unitsPerOne) (by decide) neg?_bne_neg?

/-- A finite quotient is the rounded exact quotient. -/
theorem div_finite {x y : F32} (hx : isFinite x = true) (hy : isFinite y = true) (h : toUnits y ≠ 0) :
    div x y = roundSigned (neg? x != neg? y) (magnitude x * unitsPerOne) (magnitude y) := by
  have hz : isZero y = false := by simpa using mt (isZero_iff y).1 h
  simp [div, isNaN_of_isFinite hx, isNaN_of_isFinite hy, isInf_of_isFinite hx, isInf_of_isFinite hy, hz]

theorem rounded_div {x y : F32} (hx : isFinite x = true) (hy : isFinite y = true) (h : toUnits y ≠ 0) :
    Rounded (div x y) (toUnits x * 2 ^ 149) (toUnits y) := by
  have hmag : magnitude x * unitsPerOne = (toUnits x * 2 ^ 149).natAbs := by
    rw [Int.natAbs_mul, natAbs_toUnits]; rfl
  have hpos : 0 < magnitude y := by rw [← natAbs_toUnits]; omega
  have hx0 : toUnits x * 2 ^ 149 ≠ 0 → neg? x = decide (toUnits x * 2 ^ 149 < 0) := fun hne => by
    rw [neg?_eq_decide (left_ne_zero_of_mul hne)]
    exact decide_eq_decide.2 (by omega)
  rw [div_finite hx hy h, hmag]
  cases hs : neg? y
  · have hden : toUnits y = (magnitude y : Int) := by simp [toUnits, hs]
    rw [hden]
    exact rounded_roundSigned hpos (by simpa using hx0)
  · have hden : -toUnits y = (magnitude y : Int) := by simp [toUnits, hs]
    refine rounded_of_neg_neg ?_
    rw [hden, ← Int.natAbs_neg]
    refine rounded_roundSigned hpos (fun hne => ?_)
    rw [hx0 (neg_ne_zero.1 hne)]
    generalize toUnits x * 2 ^ 149 = a at hne
    rw [Bool.eq_iff_iff]
    simp only [bne_iff_ne, ne_eq, decide_eq_true_eq]
    omega

/-- A zero sum is -0 only for two negative zeros: negative operands that sum to zero are zeros. -/
theorem add_of_zero_sum {x y : F32} (hx : isFinite x = true) (hy : isFinite y = true) (h : toUnits x + toUnits y = 0) :
    add x y = if x = 0x80000000#32 ∧ y = 0x80000000#32 then 0x80000000#32 else 0x00000000#32 := by
  have hneg : (neg? x && neg? y) = true ↔ x = 0x80000000#32 ∧ y = 0x80000000#32 := by
    rw [Bool.and_eq_true, eq_negZero_iff, eq_negZero_iff]
    refine ⟨fun ⟨hxs, hys⟩ => ?_, fun ⟨⟨hxs, _⟩, hys, _⟩ => ⟨hxs, hys⟩⟩
    have hxle := toUnits_nonpos_of_neg hxs
    have hyle := toUnits_nonpos_of_neg hys
    exact ⟨⟨hxs, by omega⟩, hys, by omega⟩
  rw [add_zero_sum hx hy h]
  simp only [← hneg]
  cases neg? x && neg? y <;> rfl

theorem sub_of_zero_difference {x y : F32} (hx : isFinite x = true) (hy : isFinite y = true)
    (h : toUnits x - toUnits y = 0) :
    sub x y = if x = 0x80000000#32 ∧ y = 0x00000000#32 then 0x80000000#32 else 0x00000000#32 := by
  rw [sub, add_of_zero_sum hx ((isFinite_negate y).trans hy) (by rw [toUnits_negate]; omega)]
  simp only [negate_eq_negZero_iff]

/-- Settles O59: each operation rounds the exact result, whose sign and magnitude it computes apart. -/
theorem operationsRoundToNearestEven : Obligations.OperationsRoundToNearestEven := by
  intro x y hx hy
  refine ⟨rounded_add hx hy, rounded_sub hx hy, rounded_mul hx hy, rounded_div hx hy, add_of_zero_sum hx hy,
    sub_of_zero_difference hx hy, ?_, fun h => ?_⟩
  · rw [mul_finite hx hy, neg?_roundSigned]
  · rw [div_finite hx hy h, neg?_roundSigned]

end Sys2Proof.Machine.Binary32
end

