-- ==== Sys2Proof/Proofs/SpecialOperands.lean ====
section
/-! SUPPORT. NaN, infinite and zero operands of the four operations, and the comparisons (00_scope.md R9, R10). -/

namespace Sys2Proof.Machine.Binary32

/-! NaN: a result is canonical, and a NaN operand gives it. -/

@[simp] theorem isNaN_withSign_zero (b : Bool) : isNaN (withSign b 0) = false := by cases b <;> decide

@[simp] theorem isNaN_withSign_infMag (b : Bool) : isNaN (withSign b infMag) = false := by cases b <;> decide

theorem add_of_isNaN {x y : F32} (h : isNaN x = true ∨ isNaN y = true) : add x y = qnan :=
  h.elim (add_nan_left y) (add_nan_right x)

theorem sub_of_isNaN {x y : F32} (h : isNaN x = true ∨ isNaN y = true) : sub x y = qnan :=
  add_of_isNaN (by rwa [isNaN_negate])

theorem mul_of_isNaN {x y : F32} (h : isNaN x = true ∨ isNaN y = true) : mul x y = qnan :=
  if_pos (by simpa using h)

theorem div_of_isNaN {x y : F32} (h : isNaN x = true ∨ isNaN y = true) : div x y = qnan :=
  if_pos (by simpa using h)

/-- A product that is NaN is the canonical one: its other results are a signed infinity or a rounding. -/
theorem mul_eq_qnan {x y : F32} (h : isNaN (mul x y) = true) : mul x y = qnan := by
  unfold mul at h ⊢
  split_ifs at h ⊢
  · rfl
  · rfl
  · simp at h
  · simp at h

/-- A quotient that is NaN is the canonical one: its other results are a signed infinity or zero, or a rounding. -/
theorem div_eq_qnan {x y : F32} (h : isNaN (div x y) = true) : div x y = qnan := by
  unfold div at h ⊢
  split_ifs at h ⊢
  · rfl
  · rfl
  · simp at h
  · simp at h
  · simp at h

/-! Infinite operands, and division by zero. -/

theorem isZero_of_isInf {x : F32} (h : isInf x = true) : isZero x = false := by
  rcases isInf_iff.1 h with rfl | rfl <;> decide

theorem withSign_bne_infMag (a b : Bool) :
    withSign (a != b) infMag = if a = b then 0x7F800000#32 else 0xFF800000#32 := by
  cases a <;> cases b <;> rfl

theorem withSign_bne_zero (a b : Bool) : withSign (a != b) 0 = if a = b then 0x00000000#32 else 0x80000000#32 := by
  cases a <;> cases b <;> rfl

section
variable {x y : F32} (hx : isNaN x = false) (hy : isNaN y = false)
include hx hy

theorem add_of_isInf_left (h : isInf x = true) :
    add x y = if isInf y = true ∧ neg? x ≠ neg? y then qnan else x := by
  simp [add, hx, hy, h]

theorem add_of_isInf_right (hfin : isFinite x = true) (h : isInf y = true) : add x y = y := by
  simp [add, hx, hy, isInf_of_isFinite hfin, h]

theorem sub_of_isInf_left (h : isInf x = true) :
    sub x y = if isInf y = true ∧ neg? x = neg? y then qnan else x := by
  rw [sub, add_of_isInf_left hx ((isNaN_negate y).trans hy) h]
  simp

theorem sub_of_isInf_right (hfin : isFinite x = true) (h : isInf y = true) : sub x y = negate y :=
  add_of_isInf_right hx ((isNaN_negate y).trans hy) hfin ((isInf_negate y).trans h)

theorem mul_of_isInf (h : isInf x = true ∨ isInf y = true) :
    mul x y = if isZero x = true ∨ isZero y = true then qnan else withSign (neg? x != neg? y) infMag := by
  rcases h with h | h <;> simp [mul, hx, hy, h, isZero_of_isInf h]

theorem div_of_isInf_left (h : isInf x = true) :
    div x y = if isInf y = true then qnan else withSign (neg? x != neg? y) infMag := by
  simp [div, hx, hy, h, isZero_of_isInf h]

theorem div_of_isInf_right (hfin : isFinite x = true) (h : isInf y = true) :
    div x y = withSign (neg? x != neg? y) 0 := by
  simp [div, hx, hy, isInf_of_isFinite hfin, h, isZero_of_isInf h]

theorem div_of_isZero (hfin : isFinite x = true) (h : isZero y = true) :
    div x y = if isZero x = true then qnan else withSign (neg? x != neg? y) infMag := by
  simp [div, hx, hy, isInf_of_isFinite hfin, h]

end

theorem isNaN_add_of_isFinite {x y : F32} (hx : isFinite x = true) (hy : isFinite y = true) :
    isNaN (add x y) = false := by
  by_cases h0 : toUnits x + toUnits y = 0
  · rw [add_zero_sum hx hy h0, isNaN_withSign_zero]
  · rw [add_finite hx hy h0, isNaN_roundSigned]

/-- A sum that is NaN is the canonical one: its other results are an operand that is no NaN, a zero or a rounding. -/
theorem add_eq_qnan {x y : F32} (h : isNaN (add x y) = true) : add x y = qnan := by
  by_cases hnan : isNaN x = true ∨ isNaN y = true
  · exact add_of_isNaN hnan
  obtain ⟨hx, hy⟩ : isNaN x = false ∧ isNaN y = false := by simpa using hnan
  cases hxi : isInf x
  · have hxf := (isFinite_iff x).2 ⟨hx, hxi⟩
    cases hyi : isInf y
    · simp [isNaN_add_of_isFinite hxf ((isFinite_iff y).2 ⟨hy, hyi⟩)] at h
    · simp [add_of_isInf_right hx hy hxf hyi, hy] at h
  · rw [add_of_isInf_left hx hy hxi] at h ⊢
    split_ifs at h ⊢
    · rfl
    · simp [hx] at h

theorem sub_eq_qnan {x y : F32} (h : isNaN (sub x y) = true) : sub x y = qnan := add_eq_qnan h

/-! Comparisons. -/

section
variable {x y : F32}

theorem comparisons_of_isNaN (h : isNaN x = true ∨ isNaN y = true) :
    lt x y = false ∧ le x y = false ∧ gt x y = false ∧ ge x y = false ∧ eq x y = false := by
  rcases h with h | h <;> simp [lt, le, gt, ge, eq, h]

section
variable (hx : isNaN x = false) (hy : isNaN y = false)
include hx hy

theorem lt_eq_decide : lt x y = decide (toUnits x < toUnits y) := by simp [lt, hx, hy]

theorem le_eq_decide : le x y = decide (toUnits x ≤ toUnits y) := by simp [le, hx, hy]

theorem eq_eq_decide : eq x y = decide (toUnits x = toUnits y) := by simp [eq, hx, hy]

theorem le_eq_lt_or_eq : le x y = (lt x y || eq x y) := by
  rw [le_eq_decide hx hy, lt_eq_decide hx hy, eq_eq_decide hx hy, ← Bool.decide_or]
  exact decide_eq_decide.2 le_iff_lt_or_eq

theorem eq_eq_decide_pattern : eq x y = decide (x = y ∨ (isZero x = true ∧ isZero y = true)) := by
  rw [eq_eq_decide hx hy]
  exact decide_eq_decide.2 toUnits_inj

end

/-- No value that is no NaN is beyond the infinities. -/
theorem abs_toUnits_le (hx : isNaN x = false) : |toUnits x| ≤ toUnits 0x7F800000#32 := by
  have hm : magBits x ≤ infMag := by simpa [isNaN] using hx
  have hinf : toUnits 0x7F800000#32 = (unitsOfMag infMag : Int) := rfl
  rw [hinf, Int.abs_eq_natAbs, natAbs_toUnits, magnitude]
  exact_mod_cast unitsOfMag_strictMono.monotone hm

theorem toUnits_eq_iff_of_isInf (hy : isInf y = true) : toUnits x = toUnits y ↔ x = y := by
  simp [toUnits_inj, isZero_of_isInf hy]

theorem lt_posInf (hx : isNaN x = false) : lt x 0x7F800000#32 = decide (x ≠ 0x7F800000#32) := by
  have hle := (le_abs_self _).trans (abs_toUnits_le hx)
  rw [lt_eq_decide hx (by decide)]
  refine decide_eq_decide.2 ?_
  rw [lt_iff_le_and_ne, ne_eq, toUnits_eq_iff_of_isInf (by decide)]
  exact and_iff_right hle

theorem negInf_lt (hy : isNaN y = false) : lt 0xFF800000#32 y = decide (0xFF800000#32 ≠ y) := by
  have hle := neg_le_of_abs_le (abs_toUnits_le hy)
  rw [lt_eq_decide (by decide) hy]
  refine decide_eq_decide.2 ?_
  rw [lt_iff_le_and_ne, ne_comm, ne_eq, toUnits_eq_iff_of_isInf (by decide)]
  exact (and_iff_right hle).trans ne_comm

theorem posInf_not_lt (hy : isNaN y = false) : lt 0x7F800000#32 y = false := by
  have hle := (le_abs_self _).trans (abs_toUnits_le hy)
  rw [lt_eq_decide (by decide) hy]
  exact decide_eq_false (not_lt.2 hle)

theorem not_lt_negInf (hx : isNaN x = false) : lt x 0xFF800000#32 = false := by
  have hle := neg_le_of_abs_le (abs_toUnits_le hx)
  rw [lt_eq_decide hx (by decide)]
  exact decide_eq_false (not_lt.2 hle)

end

/-- What NaN operands and NaN results give, for each of the four operations. -/
theorem nan_of_operation {x y r : F32} (h : r ∈ [add x y, sub x y, mul x y, div x y]) :
    (isNaN r = true → r = qnan) ∧ (isNaN x = true ∨ isNaN y = true → r = qnan) := by
  simp only [List.mem_cons, List.not_mem_nil, or_false] at h
  rcases h with rfl | rfl | rfl | rfl
  · exact ⟨add_eq_qnan, add_of_isNaN⟩
  · exact ⟨sub_eq_qnan, sub_of_isNaN⟩
  · exact ⟨mul_eq_qnan, mul_of_isNaN⟩
  · exact ⟨div_eq_qnan, div_of_isNaN⟩

/-- Settles O60: the operations case by case, and the comparisons as comparisons of values. -/
theorem specialOperandsAndComparisons : Obligations.SpecialOperandsAndComparisons := by
  refine ⟨fun x y r => nan_of_operation, fun x => isInf_iff, fun x y hx hy => ?_, fun x y => comparisons_of_isNaN,
    fun x y hx hy => ?_⟩
  · simp only [← withSign_bne_infMag, ← withSign_bne_zero]
    exact ⟨add_of_isInf_left hx hy, add_of_isInf_right hx hy, sub_of_isInf_left hx hy, sub_of_isInf_right hx hy,
      mul_of_isInf hx hy, div_of_isInf_left hx hy, div_of_isInf_right hx hy, div_of_isZero hx hy⟩
  · refine ⟨rfl, rfl, le_eq_lt_or_eq hx hy, eq_eq_decide_pattern hx hy, fun _ _ => lt_eq_decide hx hy,
      ?_, ?_, ?_, ?_⟩
    · rintro rfl; exact lt_posInf hx
    · rintro rfl; exact negInf_lt hy
    · rintro rfl; exact posInf_not_lt hy
    · rintro rfl; exact not_lt_negInf hx

end Sys2Proof.Machine.Binary32
end

