-- ==== Sys2Proof/Proofs/RegisterAccess.lean ====
section
/-! SUPPORT. Register access over the bus (10_state.md R21 to R31, 20_memory.md R61, R62): which address reaches which
register, what its read and its write give, and the words whose fields are flags, codes and parameters. -/

namespace Sys2Proof.Machine

/-! Which address reaches which register. -/

theorem regMap_lookup : ∀ e ∈ regMap, regMap.lookup e.1 = some e.2 := by decide

/-- An address reaches a register exactly where its word address is that register's offset (R21, R62). -/
theorem placeOf_eq_reg_iff {p : Params} {addr : BusAddr} {r : Reg} :
    placeOf p addr = .reg r ↔ (wordAddr addr, r) ∈ regMap := by
  constructor
  · unfold placeOf
    cases hl : regMap.lookup (wordAddr addr) with
    | none => exact fun h => absurd h (windowOf_ne_reg p _ r)
    | some r' =>
      intro h
      cases h
      obtain ⟨l, l', hmap, -⟩ := List.lookup_eq_some_iff.1 hl
      simp [hmap]
  · intro h
    simp [placeOf, regMap_lookup _ h]

/-- The word address is the address with bits 1:0 cleared (R61). -/
theorem toNat_and_FFFC (addr : BusAddr) : (addr &&& 0xFFFC#16).toNat = wordAddr addr := by
  have hshift : addr &&& 0xFFFC#16 = addr >>> 2 <<< 2 := by
    ext i hi
    interval_cases i <;> simp
  have hlt := addr.isLt
  rw [hshift, wordAddr, BitVec.toNat_shiftLeft, BitVec.toNat_ushiftRight, Nat.shiftLeft_eq, Nat.shiftRight_eq_div_pow]
  omega

theorem memRead_reg {p : Params} {addr : BusAddr} {r : Reg} (s : State) (h : (wordAddr addr, r) ∈ regMap) :
    memRead p addr s = readReg p s r := by
  rw [memRead, placeOf_eq_reg_iff.2 h, readPlace]

theorem memWrite_reg {p : Params} {addr : BusAddr} {r : Reg} (v : Word) (s : State) (h : (wordAddr addr, r) ∈ regMap)
    (hr : r ≠ .cmd) : memWrite p addr v s = .next (writeReg r v s) := by
  have hp := placeOf_eq_reg_iff (p := p).2 h
  rw [memWrite_not_cmd v s (by simpa [hp] using hr), hp, writePlace]

theorem wordAddr_offset : ∀ e ∈ regMap, wordAddr (BitVec.ofNat 16 e.1) = e.1 := by decide

/-- A read at each offset of R21 gives its register. -/
theorem memRead_offsets (p : Params) (s : State) :
    ∀ e ∈ regMap, memRead p (BitVec.ofNat 16 e.1) s = readReg p s e.2 :=
  fun e he => memRead_reg s (by rwa [wordAddr_offset e he])

/-- A write at each offset of R21 but that of CMD follows its register's write rule. -/
theorem memWrite_offsets (p : Params) (v : Word) (s : State) :
    ∀ e ∈ regMap, e.2 ≠ .cmd → memWrite p (BitVec.ofNat 16 e.1) v s = .next (writeReg e.2 v s) :=
  fun e he => memWrite_reg v s (by rwa [wordAddr_offset e he])

/-! What a register write leaves. -/

/-- After a write to a plain RW register that register reads the word, and every other register reads as before. -/
theorem readReg_writeReg_plain {r : Reg} (h : PlainRwReg r) (p : Params) (v : Word) (s : State) (r' : Reg) :
    readReg p (writeReg r v s) r' = if r' = r then v else readReg p s r' := by
  simp only [PlainRwReg, List.mem_cons, List.not_mem_nil, or_false] at h
  rcases h with rfl | rfl | rfl | rfl | rfl | rfl | rfl | rfl | rfl <;> cases r' <;> rfl

/-- A write to a plain RW register touches no table, stream, run or halt state, and nothing of the environment. -/
theorem writeReg_plain_frame {r : Reg} (h : PlainRwReg r) (v : Word) (s : State) :
    let t := writeReg r v s
    (∀ a, tableByte t a = tableByte s a) ∧ t.dacStream = s.dacStream ∧ t.scopeStream = s.scopeStream ∧
      t.run = s.run ∧ t.halted = s.halted ∧ t.inputs = s.inputs ∧ t.responses = s.responses := by
  simp only [PlainRwReg, List.mem_cons, List.not_mem_nil, or_false] at h
  rcases h with rfl | rfl | rfl | rfl | rfl | rfl | rfl | rfl | rfl <;>
    exact ⟨fun _ => rfl, rfl, rfl, rfl, rfl, rfl, rfl⟩

/-! Words made of fields. -/

theorem flagBit_le_one (b : Bool) : flagBit b ≤ 1 := by cases b <;> decide

theorem flagBit_eq_ite (b : Bool) : flagBit b = if b = true then 1 else 0 := rfl

theorem ofNat_flagBit (b : Bool) : (BitVec.ofNat 32 (flagBit b) : Word) = if b = true then 1 else 0 := by
  cases b <;> rfl

theorem tableCapacity_bounds (p : Params) : 1 ≤ p.tableCapacity ∧ p.tableCapacity ≤ 1024 :=
  ⟨Nat.le_add_left _ _, p.capacityLess1.isLt⟩

theorem numChannels_bounds (p : Params) : 1 ≤ p.numChannels ∧ p.numChannels ≤ 255 :=
  ⟨Nat.le_add_left _ _, p.channelsLess1.isLt⟩

theorem blockSize_bounds (p : Params) : 1 ≤ p.blockSize ∧ p.blockSize ≤ 65535 :=
  ⟨Nat.le_add_left _ _, p.blockLess1.isLt⟩

theorem policyBit_eq_ite (q : NegPhasePolicy) : policyBit q = if q = .fault then 1 else 0 := by cases q <;> rfl

theorem policyBit_le_one (q : NegPhasePolicy) : policyBit q ≤ 1 := by cases q <;> decide

theorem params0Word_toNat (p : Params) :
    (params0Word p).toNat = p.tableCapacity + policyBit p.negPhase * 2 ^ 11 + p.numChannels * 2 ^ 16 := by
  have hcap := tableCapacity_bounds p
  have hch := numChannels_bounds p
  have hpol := policyBit_le_one p.negPhase
  rw [params0Word, BitVec.toNat_ofNat]
  omega

theorem params1Word_toNat (p : Params) : (params1Word p).toNat = p.blockSize := by
  have hblock := blockSize_bounds p
  rw [params1Word, BitVec.toNat_ofNat]
  omega

theorem causeCode_le_seven (c : FaultCause) : causeCode c ≤ 7 := by cases c <;> decide

theorem causeWord_toNat (src : Bool) (f : BlockFault) :
    (causeWord src f).toNat = f.unit.toNat * 2 ^ 12 + flagBit src * 2 ^ 8 + causeCode f.cause := by
  have hunit := f.unit.isLt
  have hsrc := flagBit_le_one src
  have hcode := causeCode_le_seven f.cause
  rw [causeWord, BitVec.toNat_ofNat]
  omega

/-- The bits of STATUS, for all values of its three flags. -/
theorem statusBits : ∀ run halted presence : Bool,
    let w : Word := BitVec.ofNat 32 (flagBit run + 2 * flagBit halted + 4 * flagBit presence)
    w.getLsbD 0 = run ∧ w.getLsbD 1 = halted ∧ w.getLsbD 2 = presence ∧ w.toNat < 2 ^ 3 := by decide

/-- Bit 0 of a word is its parity. -/
theorem decide_mod_two_eq_getLsbD (v : Word) : decide (v.toNat % 2 = 1) = v.getLsbD 0 := by
  rw [BitVec.getLsbD, Nat.testBit_zero]

/-! CMD writes. -/

/-- A write to CMD is the next input: the step is `writeCmd` in the state with that input consumed. -/
theorem step_cmdWrite {s : State} {c : Word} {rest : List Input} (h : s.inputs = .busWrite cmdAddr c :: rest) :
    step s = writeCmd c { s with inputs := rest } := by
  rw [step_cons h, applyInput, memWrite_cmd _ _ (placeOf_cmdAddr _)]

theorem writeCmd_legal {s : State} {c : Word} {i : Instr} (hh : s.halted = false) (hd : decode c = .ok i) :
    writeCmd c s = exec i (latchCmd c s) := by
  simp [writeCmd, hh, hd]

theorem writeCmd_halted {s : State} (c : Word) (hh : s.halted = true) : writeCmd c s = .next (latchCmd c s) := by
  simp [writeCmd, hh]

/-! Obligations. -/

/-- Settles O5: the address of CMD reaches CMD, and a legal word runs. -/
theorem stepRunsTheDecodedCommand : Obligations.StepRunsTheDecodedCommand := by
  intro s c i rest hin hh hd
  exact (step_cmdWrite hin).trans (writeCmd_legal (s := { s with inputs := rest }) hh hd)

/-- Settles O7: a halted CMD write only latches, and a halted block runs no command. -/
theorem haltedCmdWriteOnlyStoresTheWord : Obligations.HaltedCmdWriteOnlyStoresTheWord := by
  refine ⟨fun s c rest hin hh => ?_, fun i s hh => exec_halted i hh⟩
  exact (step_cmdWrite hin).trans (writeCmd_halted (s := { s with inputs := rest }) c hh)

/-- Settles O11: the parameters' ranges keep the fields of PARAMS0 and PARAMS1 apart. -/
theorem identificationRegistersAreConstant : Obligations.IdentificationRegistersAreConstant := by
  intro p s
  have hcap := tableCapacity_bounds p
  have hch := numChannels_bounds p
  have hblock := blockSize_bounds p
  have hpol := policyBit_le_one p.negPhase
  have h0 : memRead p 0x004 s = params0Word p := memRead_reg s (r := .params0) (by decide)
  have h1 : memRead p 0x008 s = params1Word p := memRead_reg s (r := .params1) (by decide)
  rw [h0, h1, params0Word_toNat, params1Word_toNat, ← policyBit_eq_ite]
  refine ⟨memRead_reg s (r := .id) (by decide), ?_, ?_, ?_, ?_, ?_, ?_, ?_, hcap, hch, hblock, fun v =>
    ⟨memWrite_reg v s (r := .id) (by decide) (by decide), memWrite_reg v s (r := .params0) (by decide) (by decide),
      memWrite_reg v s (r := .params1) (by decide) (by decide)⟩⟩
  all_goals omega

/-- Settles O12: `writeCtrl` is R23's rule, bit 0 being the parity of the data. -/
theorem ctrlWriteSetsRunAndRestartsTheFrame : Obligations.CtrlWriteSetsRunAndRestartsTheFrame := by
  intro p s v
  have hw : memWrite p 0x00C v s = .next (writeCtrl v s) := memWrite_reg v s (r := .ctrl) (by decide) (by decide)
  have hr : memRead p 0x00C s = ctrlWord s := memRead_reg s (r := .ctrl) (by decide)
  rw [hw, hr]
  refine ⟨fun hh => by rw [writeCtrl, if_pos hh], fun hh => ?_, ofNat_flagBit s.run⟩
  rw [writeCtrl, if_neg (by simp [hh])]
  simp [decide_mod_two_eq_getLsbD]

/-- Settles O13: STATUS is below 8, its three bits are the flags, and it is read-only. -/
theorem statusMirrorsRunHaltedPresence : Obligations.StatusMirrorsRunHaltedPresence := by
  intro p s
  have hread : ∀ s, memRead p 0x010 s = statusWord s := fun s => memRead_reg s (r := .status) (by decide)
  obtain ⟨hrun, hhalted, hpresence, hlt⟩ := statusBits s.run s.halted s.presence
  rw [hread, hread]
  refine ⟨hrun, hhalted, hpresence, fun n hn => ?_,
    fun v => memWrite_reg v s (r := .status) (by decide) (by decide), rfl⟩
  exact Nat.testBit_lt_two_pow (hlt.trans_le (Nat.pow_le_pow_right (by decide) hn))

/-- Settles O14: each offset reaches its register, whose read and write rules then apply. -/
theorem registersAreReachedAtTheirOffsets : Obligations.RegistersAreReachedAtTheirOffsets := by
  intro p s
  have hread := memRead_offsets p s
  simp [regMap, hostRegMap, unitRegMap, readReg, oscFlagsWord, ofNat_flagBit, State.osc, State.sm] at hread
  have hwrite := fun v => memWrite_offsets p v s
  simp [regMap, hostRegMap, unitRegMap, writeReg] at hwrite
  refine ⟨by simp [hread], by simp [hread], by simp [hread], by simp [hread], by simp [hread], by simp [hread],
    fun v => by simp [hwrite], fun v => by simp [hwrite], fun addr r v hp hr => ?_⟩
  have hcmd : r ≠ .cmd := by rintro rfl; simp [PlainRwReg] at hr
  refine ⟨_, memWrite_reg v s (placeOf_eq_reg_iff.1 hp) hcmd, ?_, fun r' hne => ?_, writeReg_plain_frame hr v s⟩
  · rw [readReg_writeReg_plain hr, if_pos rfl]
  · rw [readReg_writeReg_plain hr, if_neg hne]

/-- Settles O17: the fields of the recorded cause do not overlap. -/
theorem faultCauseFields : Obligations.FaultCauseFields := by
  refine ⟨⟨rfl, rfl, rfl, rfl, rfl, rfl, rfl⟩, fun src f => ?_⟩
  have hunit := f.unit.isLt
  have hsrc := flagBit_le_one src
  have hcode := causeCode_le_seven f.cause
  rw [causeWord_toNat, ← flagBit_eq_ite]
  omega

theorem osc_reset (k : UnitIx) : State.reset.osc k = Osc.atReset := by cases k <;> rfl

theorem sm_reset (a : UnitIx) : State.reset.sm a = Smooth.atReset := by cases a <;> rfl

/-- Settles O22: each register of the reset state, by evaluation. -/
theorem resetValues : Obligations.ResetValues := by
  refine ⟨fun p r => ?_, rfl, rfl, rfl, rfl, fun a => rfl, rfl, fun a => ?_, rfl⟩
  · cases r <;> simp only [readReg, osc_reset, sm_reset] <;> rfl
  · cases a <;> rfl

end Sys2Proof.Machine
end

