-- ==== Sys2Proof/Proofs/CommandFrames.lean ====
section
/-! SUPPORT. What a command, a tick and a stream step leave unchanged (10_state.md R28 to R50, 20_memory.md R74). A fact
about every command is a fact about its operation, since a fault taken writes only the fault record. -/

namespace Sys2Proof.Machine

/-! From the operation to the command and the tick. -/

/-- What holds of the state itself, of every fault taken in it and of what the command's operation commits, holds of
what the command leaves. -/
theorem exec_induction {i : Instr} {s t : State} {R : State → Prop} (h : exec i s = .next t) (hself : R s)
    (hfault : ∀ f, R (takeFault false (encode i) f s))
    (hop : s.halted = false → ∀ u, operationOf i s = .ok u → R u) : R t := by
  rcases exec_cases i s with ⟨-, he⟩ | ⟨-, f, he⟩ | ⟨hh, u, hu, he⟩ <;> rw [he] at h <;> cases h
  · exact hself
  · exact hfault f
  · exact hop hh t hu

/-- The same of a tick and the stream step it performs. -/
theorem dacTick_induction {p : Params} {s t : State} {R : State → Prop} (h : t = dacTick p s) (hself : R s)
    (hfault : ∀ f, R (takeFault true tickFaultInfo f s)) (hstep : ∀ u, streamStep p s = .ok u → R u) : R t := by
  rcases dacTick_cases p s with he | ⟨-, -, ⟨f, he⟩ | ⟨u, hu, he⟩⟩ <;> rw [he] at h <;> subst h
  · exact hself
  · exact hfault f
  · exact hstep t hu

/-! What an operation writes. -/

/-- `t` is `s` but for RESULT, the register sets of the oscillators and filters, and the table memories. -/
def SameButUnits (s t : State) : Prop :=
  t = { s with result := t.result, osc0 := t.osc0, osc1 := t.osc1, sm0 := t.sm0, sm1 := t.sm1, mem := t.mem }

/-- Everything an operation can write: STEP a stream step, FRAME a frame step, every other command only RESULT, unit
registers and, OSC_CONFIG alone, tables. -/
theorem operationOf_cases {i : Instr} {s t : State} (h : operationOf i s = .ok t) :
    (i = .step ∧ streamStep Config.params s = .ok t) ∨
    (i = .frame ∧ t = frameStep Config.params s) ∨
    (SameButUnits s t ∧ ((∀ u, i ≠ .oscConfig u) → t.mem = s.mem)) := by
  cases i <;> simp only [operationOf, Except.ok.injEq] at h
  case step => exact .inl ⟨rfl, h⟩
  case frame => exact .inr (.inl ⟨rfl, h.symm⟩)
  all_goals refine .inr (.inr ?_)
  case oscConfig u =>
    obtain ⟨-, -, rfl⟩ := oscConfigure_ok h
    exact ⟨by cases unitOf u <;> rfl, fun hne => absurd rfl (hne u)⟩
  case oscProcess u =>
    obtain ⟨-, rfl⟩ := oscProcessCommand_ok h
    exact ⟨by cases unitOf u <;> rfl, fun _ => by simp⟩
  case smoothConfig u =>
    obtain rfl := smoothConfigure_ok h
    exact ⟨by cases unitOf u <;> rfl, fun _ => by simp⟩
  case map =>
    obtain rfl := mapCommand_ok h
    exact ⟨rfl, fun _ => rfl⟩
  all_goals subst h
  case oscSetfreq u => exact ⟨by cases unitOf u <;> rfl, fun _ => by simp [oscSetFrequency]⟩
  case smoothProcess u => exact ⟨by cases unitOf u <;> rfl, fun _ => by simp [smoothProcessCommand, smoothProcess]⟩
  case smoothSetstate u => exact ⟨by cases unitOf u <;> rfl, fun _ => by simp [smoothSetState]⟩
  case smoothSetcoef u => exact ⟨by cases unitOf u <;> rfl, fun _ => by simp [smoothSetCoef]⟩
  all_goals exact ⟨rfl, fun _ => rfl⟩

/-! The oscillators. -/

@[simp] theorem processedOsc_len (o : Osc) : (processedOsc o).len = o.len := by unfold processedOsc; split <;> rfl

@[simp] theorem processedOsc_invSr (o : Osc) : (processedOsc o).invSr = o.invSr := by unfold processedOsc; split <;> rfl

@[simp] theorem processedOsc_interp (o : Osc) : (processedOsc o).interp = o.interp := by unfold processedOsc; split <;> rfl

/-- What every operation but OSC_CONFIG can do to an oscillator: load a frequency, and, when it is ready, process. -/
def OscAdvance (p : Params) (o o' : Osc) : Prop :=
  ∃ f, o' = { o with freq := f } ∨ (OscReady p { o with freq := f } ∧ o' = processedOsc { o with freq := f })

theorem OscAdvance.of_eq {p : Params} {o o' : Osc} (h : o' = o) : OscAdvance p o o' := ⟨o.freq, .inl h⟩

theorem OscAdvance.of_processed {p : Params} {o : Osc} (h : OscReady p o) : OscAdvance p o (processedOsc o) :=
  ⟨o.freq, .inr ⟨h, rfl⟩⟩

/-- Length, rate and flag stay (R38, R39, R42). -/
theorem OscAdvance.config {p : Params} {o o' : Osc} (h : OscAdvance p o o') :
    o'.len = o.len ∧ o'.invSr = o.invSr ∧ o'.interp = o.interp := by
  obtain ⟨f, rfl | ⟨-, rfl⟩⟩ := h
  · exact ⟨rfl, rfl, rfl⟩
  · simp

/-- The axis updates load a frequency in each oscillator; the frame test before them does not touch it (R181, R182). -/
theorem axesStep_frameGate_osc (p : Params) (s : State) (k : UnitIx) :
    ∃ f, (axesStep (frameGate p s)).osc k = { s.osc k with freq := f } := by
  rw [axesStep_eq, frameGate_eq]
  cases k <;> exact ⟨_, rfl⟩

theorem streamStep_oscAdvance {p : Params} {s t : State} (h : streamStep p s = .ok t) (k : UnitIx) :
    OscAdvance p (s.osc k) (t.osc k) := by
  obtain ⟨hready, rfl⟩ := streamStep_ok h
  obtain ⟨f, hf⟩ := axesStep_frameGate_osc p s k
  refine ⟨f, .inr ⟨hf ▸ hready k, ?_⟩⟩
  rw [← hf]
  cases k <;> simp [osc_setOsc] <;> rfl

theorem operationOf_oscAdvance {i : Instr} {s t : State} (h : operationOf i s = .ok t) (hne : ∀ u, i ≠ .oscConfig u)
    (k : UnitIx) : OscAdvance Config.params (s.osc k) (t.osc k) := by
  cases i <;> simp only [operationOf, Except.ok.injEq] at h
  case oscConfig u => exact absurd rfl (hne u)
  case step => exact streamStep_oscAdvance h k
  case oscProcess u =>
    obtain ⟨hready, rfl⟩ := oscProcessCommand_ok h
    rw [osc_setResult, osc_setOsc]
    split
    · next hk => subst hk; exact .of_processed hready
    · exact .of_eq rfl
  case smoothConfig u => obtain rfl := smoothConfigure_ok h; exact .of_eq (by simp)
  case map => obtain rfl := mapCommand_ok h; exact .of_eq (by simp)
  all_goals subst h
  case oscSetfreq u =>
    rw [oscSetFrequency, osc_setOsc]
    split
    · next hk => subst hk; exact ⟨frequencyArg s, .inl rfl⟩
    · exact .of_eq rfl
  case nop => exact .of_eq rfl
  case smoothProcess => exact .of_eq (by simp [smoothProcessCommand, smoothProcess])
  case smoothSetstate => exact .of_eq (by simp [smoothSetState])
  case smoothSetcoef => exact .of_eq (by simp [smoothSetCoef])
  case am => exact .of_eq (by simp [amCommand])
  case gainDb => exact .of_eq (by simp [gainCommand])
  case outScale => exact .of_eq (by simp [outCommand])
  case frame => exact .of_eq (by simp)

/-! The table memories. -/

theorem tableByte_congr {s t : State} (hmem : t.mem = s.mem) (hepoch : t.tableEpoch = s.tableEpoch) (a : Nat) :
    tableByte t a = tableByte s a := by
  rw [tableByte, tableByte, hmem, hepoch]

theorem streamStep_mem {p : Params} {s t : State} (h : streamStep p s = .ok t) : t.mem = s.mem := by
  obtain ⟨-, rfl⟩ := streamStep_ok h
  simp [axesStep_eq, frameGate_eq]

theorem operationOf_mem {i : Instr} {s t : State} (h : operationOf i s = .ok t) (hne : ∀ u, i ≠ .oscConfig u) :
    t.mem = s.mem := by
  rcases operationOf_cases h with ⟨-, hstep⟩ | ⟨-, rfl⟩ | ⟨-, hmem⟩
  · exact streamStep_mem hstep
  · rfl
  · exact hmem hne

/-! RESULT. -/

theorem streamStep_result {p : Params} {s t : State} (h : streamStep p s = .ok t) : t.result = s.result := by
  obtain ⟨-, rfl⟩ := streamStep_ok h
  simp [axesStep_eq, frameGate_eq]

/-- The commands that do not return a value leave RESULT alone (R28). -/
theorem operationOf_result {i : Instr} {s t : State} (h : operationOf i s = .ok t) (hosc : ∀ u, i ≠ .oscProcess u)
    (hsm : ∀ u, i ≠ .smoothProcess u) (hval : i ∉ [Instr.map, .am, .gainDb, .outScale]) : t.result = s.result := by
  cases i <;> simp only [operationOf, Except.ok.injEq] at h
  case oscProcess u => exact absurd rfl (hosc u)
  case smoothProcess u => exact absurd rfl (hsm u)
  case map | am | gainDb | outScale => exact absurd hval (by decide)
  case oscConfig => obtain ⟨-, -, rfl⟩ := oscConfigure_ok h; simp
  case smoothConfig => obtain rfl := smoothConfigure_ok h; simp
  case step => exact streamStep_result h
  all_goals subst h
  case nop => rfl
  case oscSetfreq => simp [oscSetFrequency]
  case smoothSetstate => simp [smoothSetState]
  case smoothSetcoef => simp [smoothSetCoef]
  case frame => simp

/-! The engine registers. -/

theorem sameEngine_refl (s : State) : SameEngineButFramePos s s ∧ s.framePos = s.framePos :=
  ⟨⟨rfl, rfl, rfl, rfl, rfl, rfl, rfl, rfl, rfl, rfl⟩, rfl⟩

/-- No engine register is written by RESULT, unit registers or tables. -/
theorem SameButUnits.engine {s t : State} (h : SameButUnits s t) :
    SameEngineButFramePos s t ∧ t.framePos = s.framePos := by
  unfold SameEngineButFramePos
  rw [h]
  exact ⟨⟨rfl, rfl, rfl, rfl, rfl, rfl, rfl, rfl, rfl, rfl⟩, rfl⟩

/-- No command but FRAME and STEP writes an engine register. -/
theorem exec_engine {i : Instr} {s t : State} (h : exec i s = .next t) (hstep : i ≠ .step) (hframe : i ≠ .frame) :
    SameEngineButFramePos s t ∧ t.framePos = s.framePos := by
  apply exec_induction h
  · exact sameEngine_refl s
  · exact fun f => sameEngine_refl s
  · intro _ u hu
    rcases operationOf_cases hu with ⟨hi, -⟩ | ⟨hi, -⟩ | ⟨hsame, -⟩
    · exact absurd hi hstep
    · exact absurd hi hframe
    · exact hsame.engine

/-- FRAME writes only the registers of the frame step. -/
theorem exec_frame_outputs {s t : State} (h : exec .frame s = .next t) :
    t.intensity0 = s.intensity0 ∧ t.intensity1 = s.intensity1 ∧ t.lastOut = s.lastOut ∧ t.framePos = s.framePos ∧
      t.sampleCount = s.sampleCount ∧ t.dacStream = s.dacStream ∧ t.scopeStream = s.scopeStream := by
  apply exec_induction h
  · exact ⟨rfl, rfl, rfl, rfl, rfl, rfl, rfl⟩
  · exact fun f => ⟨rfl, rfl, rfl, rfl, rfl, rfl, rfl⟩
  · intro _ u hu
    cases hu
    exact ⟨rfl, rfl, rfl, rfl, rfl, rfl, rfl⟩

/-! Obligations. -/

theorem SameControl.inputRegs {s t : State} (h : SameControl s t) :
    t.arg0 = s.arg0 ∧ t.arg1 = s.arg1 ∧ t.arg2 = s.arg2 ∧ t.arg3 = s.arg3 ∧ t.arg4 = s.arg4 ∧
      t.touchSize = s.touchSize ∧ t.touchX = s.touchX ∧ t.touchY = s.touchY ∧ t.levelDb = s.levelDb :=
  ⟨h.arg0, h.arg1, h.arg2, h.arg3, h.arg4, h.touchSize, h.touchX, h.touchY, h.levelDb⟩

/-- Settles O53: the input registers are among the control fields, which no operation writes. -/
theorem theBlockNeverWritesItsInputs : Obligations.TheBlockNeverWritesItsInputs := by
  rintro s t (⟨i, h⟩ | ⟨p, h⟩)
  · apply exec_induction h
    · exact (SameControl.refl s).inputRegs
    · exact fun f => (SameControl.refl s).inputRegs
    · exact fun _ u hu => (operationOf_sameControl hu).inputRegs
  · apply dacTick_induction h
    · exact (SameControl.refl s).inputRegs
    · exact fun f => (SameControl.refl s).inputRegs
    · exact fun u hu => (streamStep_sameControl hu).inputRegs

/-- Settles O54: a fault is taken without writing RESULT, and an operation that commits leaves the block running. -/
theorem resultIsWrittenOnlyByValueCommands : Obligations.ResultIsWrittenOnlyByValueCommands := by
  refine ⟨fun i s t h => ?_, fun p s => ?_⟩
  · apply exec_induction h
    · exact fun _ => rfl
    · exact fun f _ => rfl
    · intro hh u hu hor
      have hrunning : u.halted = false := (operationOf_sameControl hu).halted.trans hh
      obtain ⟨hosc, hsm, hval⟩ := hor.resolve_left (by simp [hrunning])
      exact operationOf_result hu hosc hsm hval
  · exact dacTick_induction (R := fun t => t.result = s.result) rfl rfl (fun f => rfl) fun u hu => streamStep_result hu

/-- Settles O55: every other operation only advances the oscillators. -/
theorem noCommandButOscConfigAndNoTickWritesTheTables :
    Obligations.NoCommandButOscConfigAndNoTickWritesTheTables := by
  rintro s t (⟨i, hne, h⟩ | ⟨p, h⟩)
  · apply exec_induction h
    · exact ⟨fun k => ⟨rfl, rfl, rfl⟩, fun a => rfl⟩
    · exact fun f => ⟨fun k => by simp, fun a => rfl⟩
    · exact fun _ u hu => ⟨fun k => (operationOf_oscAdvance hu hne k).config,
        tableByte_congr (operationOf_mem hu hne) (operationOf_sameControl hu).tableEpoch⟩
  · apply dacTick_induction h
    · exact ⟨fun k => ⟨rfl, rfl, rfl⟩, fun a => rfl⟩
    · exact fun f => ⟨fun k => by simp, fun a => rfl⟩
    · exact fun u hu => ⟨fun k => (streamStep_oscAdvance hu k).config,
        tableByte_congr (streamStep_mem hu) (streamStep_sameControl hu).tableEpoch⟩

end Sys2Proof.Machine
end

