-- ==== Sys2Proof/Proofs/StepFrames.lean ====
section
/-! SUPPORT. What one step leaves unchanged: bus accesses that run no command, the halted block (10_state.md R47,
60_exceptions.md R203, R208) and the engine registers between engine steps (20_memory.md R74). -/

namespace Sys2Proof.Machine

/-! Bus accesses that run no command. -/

/-- `t` is `s` but for what bus accesses write: the RW registers, FRAME_POS, the table memories and the environment. -/
def SameButBus (s t : State) : Prop :=
  t = { s with
    run := t.run, framePos := t.framePos, cmd := t.cmd, arg0 := t.arg0, arg1 := t.arg1, arg2 := t.arg2, arg3 := t.arg3
    arg4 := t.arg4, touchSize := t.touchSize, touchX := t.touchX, touchY := t.touchY, levelDb := t.levelDb
    mem := t.mem, inputs := t.inputs, responses := t.responses }

theorem writePlace_sameButBus (place : Place) (v : Word) (s : State) : SameButBus s (writePlace place v s) := by
  cases place with
  | reg r =>
    cases r
    case ctrl => rw [writePlace, writeReg, writeCtrl]; split <;> rfl
    all_goals rfl
  | stg k i => rfl
  | act k i => rfl
  | unmapped => rfl

/-- RUN and FRAME_POS are written only through CTRL, while not halted, and FRAME_POS only by starting the block (R23). -/
theorem writePlace_run_framePos (place : Place) (v : Word) (s : State) :
    let t := writePlace place v s
    (t.run = s.run ∧ t.framePos = s.framePos) ∨
    (place = .reg .ctrl ∧ s.halted = false ∧
      (t.framePos = s.framePos ∨ (t.framePos = 0 ∧ s.run = false ∧ t.run = true))) := by
  cases place with
  | reg r =>
    cases r
    case ctrl =>
      cases hh : s.halted
      · refine .inr ⟨rfl, rfl, ?_⟩
        simp only [writePlace, writeReg, writeCtrl, hh, Bool.false_eq_true, if_false]
        cases s.run <;> cases decide (v.toNat % 2 = 1) <;> simp
      · simp [writePlace, writeReg, writeCtrl, hh]
    all_goals exact .inl ⟨rfl, rfl⟩
  | stg k i => exact .inl ⟨rfl, rfl⟩
  | act k i => exact .inl ⟨rfl, rfl⟩
  | unmapped => exact .inl ⟨rfl, rfl⟩

/-- The table memories are written only through a staging window (R62, R64). -/
theorem writePlace_mem (place : Place) (v : Word) (s : State) :
    (writePlace place v s).mem = s.mem ∨
    ∃ k i, place = .stg k i ∧ (writePlace place v s).mem = s.mem.setWord (stgBase k + 4 * i) v := by
  cases place with
  | reg r =>
    cases r
    case ctrl => left; rw [writePlace, writeReg, writeCtrl]; split <;> rfl
    all_goals exact .inl rfl
  | stg k i => exact .inr ⟨k, i, rfl, rfl⟩
  | act k i => exact .inl rfl
  | unmapped => exact .inl rfl

/-- No bus write that runs no command reaches a byte of the active tables. -/
theorem tableByte_writePlace {p : Params} (addr : BusAddr) (v : Word) (s : State) {a : Nat} (ha : 0x3000 ≤ a) :
    tableByte (writePlace (placeOf p addr) v s) a = tableByte s a := by
  have hepoch : (writePlace (placeOf p addr) v s).tableEpoch = s.tableEpoch := by rw [writePlace_sameButBus]
  rcases writePlace_mem (placeOf p addr) v s with hmem | ⟨k, i, hplace, hmem⟩
  · exact tableByte_congr hmem hepoch a
  · have hi := (placeOf_stg hplace).2
    rw [tableByte, hmem, hepoch]
    exact byteAt_setWord_other _ _ _ (by cases k <;> simp only [stgBase] <;> omega)

theorem SameButBus.engine {s t : State} (h : SameButBus s t) : SameEngineButFramePos s t := by
  unfold SameEngineButFramePos
  rw [h]
  exact ⟨rfl, rfl, rfl, rfl, rfl, rfl, rfl, rfl, rfl, rfl⟩

/-! The halted block. -/

/-- A halted step other than reset is at most a bus access that changes neither RUN, FRAME_POS nor an active table. -/
theorem step_of_halted {s t : State} (hh : s.halted = true) (h : step s = .next t)
    (hreset : ∀ rest, s.inputs ≠ .reset :: rest) :
    SameButBus s t ∧ t.run = s.run ∧ t.framePos = s.framePos ∧ ∀ a, 0x3000 ≤ a → tableByte t a = tableByte s a := by
  rcases step_cases h with ⟨-, rfl⟩ | ⟨rest, ⟨addr, -, rfl⟩ | ⟨addr, v, -, -, hw⟩ | ⟨addr, v, -, -, rfl⟩ | ⟨-, rfl⟩ | ⟨hin, -⟩⟩
  · exact ⟨rfl, rfl, rfl, fun a _ => rfl⟩
  · exact ⟨rfl, rfl, rfl, fun a _ => rfl⟩
  · rw [writeCmd_halted (s := { s with inputs := rest }) v hh] at hw
    cases hw
    exact ⟨rfl, rfl, rfl, fun a _ => rfl⟩
  · refine ⟨writePlace_sameButBus _ v { s with inputs := rest }, ?_⟩
    rcases writePlace_run_framePos (placeOf Config.params addr) v { s with inputs := rest } with
      ⟨hrun, hpos⟩ | ⟨-, hh', -⟩
    · exact ⟨hrun, hpos, fun a ha => tableByte_writePlace addr v { s with inputs := rest } ha⟩
    · exact absurd (hh.symm.trans hh') (by decide)
  · rw [dacTick_dropped (s := { s with inputs := rest }) _ (.inr hh)]
    exact ⟨rfl, rfl, rfl, fun a _ => rfl⟩
  · exact absurd hin (hreset rest)

/-- Settles O20: a halted step other than reset writes only what bus accesses write, and not RUN. -/
theorem haltedIsStickyUntilReset : Obligations.HaltedIsStickyUntilReset := by
  intro s t hh h hreset
  obtain ⟨hsame, hrun, hpos, hbytes⟩ := step_of_halted hh h hreset
  refine ⟨?_, ?_, ?_, hrun, ?_, ?_, ?_, ?_, ?_, ?_, ?_, ?_, ?_, ?_, ?_, ?_, ?_, hpos, ?_, ?_, hbytes⟩ <;> rw [hsame]
  exact hh

/-! The engine registers. -/

/-- A CMD write of a word other than FRAME and STEP writes no engine register. -/
theorem writeCmd_engine {c : Word} {s t : State} (h : writeCmd c s = .next t)
    (hc : decode c ≠ .ok .frame ∧ decode c ≠ .ok .step) :
    SameEngineButFramePos s t ∧ t.framePos = s.framePos := by
  rcases writeCmd_cases c s with ⟨-, he⟩ | ⟨-, e, -, he⟩ | ⟨-, i, hd, he⟩ <;> rw [he] at h
  · cases h
    exact sameEngine_refl s
  · cases h
    exact sameEngine_refl s
  · exact exec_engine (s := latchCmd c s) h (fun e => hc.2 (e ▸ hd)) (fun e => hc.1 (e ▸ hd))

/-- An address that reaches a register is, with bits 1:0 cleared, that register's offset. -/
theorem and_FFFC_eq_of_placeOf {p : Params} {addr offset : BusAddr} {r : Reg} (hp : placeOf p addr = .reg r)
    (hr : ∀ e ∈ regMap, e.2 = r → e.1 = offset.toNat) : addr &&& 0xFFFC#16 = offset := by
  apply BitVec.eq_of_toNat_eq
  rw [toNat_and_FFFC]
  exact hr _ (placeOf_eq_reg_iff.1 hp) rfl

/-- Settles O56: commands by their operations, steps by what a bus access writes. -/
theorem engineRegistersAreWrittenOnlyByTheEngine : Obligations.EngineRegistersAreWrittenOnlyByTheEngine := by
  refine ⟨fun i s t h hstep => ?_, fun s t h hreset htick hcmd => ?_⟩
  · by_cases hframe : i = .frame
    · subst hframe
      exact ⟨exec_frame_outputs h, fun hne => absurd rfl hne⟩
    · obtain ⟨⟨h0, h1, hgain, hpres, hi0, hi1, hout, hcount, hdac, hscope⟩, hpos⟩ := exec_engine h hstep hframe
      exact ⟨⟨hi0, hi1, hout, hpos, hcount, hdac, hscope⟩, fun _ => ⟨h0, h1, hgain, hpres⟩⟩
  · rcases step_cases h with ⟨-, rfl⟩ | ⟨rest, ⟨addr, -, rfl⟩ | ⟨addr, v, hin, hp, hw⟩ | ⟨addr, v, hin, -, rfl⟩ |
      ⟨hin, rfl⟩ | ⟨hin, -⟩⟩
    · exact ⟨SameButBus.engine rfl, .inl rfl⟩
    · exact ⟨SameButBus.engine rfl, .inl rfl⟩
    · obtain ⟨hsame, hpos⟩ := writeCmd_engine hw
        (hcmd addr v rest hin (and_FFFC_eq_of_placeOf hp (by decide)))
      exact ⟨hsame, .inl hpos⟩
    · refine ⟨(writePlace_sameButBus _ v { s with inputs := rest }).engine, ?_⟩
      rcases writePlace_run_framePos (placeOf Config.params addr) v { s with inputs := rest } with
        ⟨-, hpos⟩ | ⟨hp, -, hpos | ⟨hpos, hrun, hrun'⟩⟩
      · exact .inl hpos
      · exact .inl hpos
      · exact .inr ⟨hpos, hrun, hrun', addr, v, rest, hin, and_FFFC_eq_of_placeOf hp (by decide)⟩
    · rw [dacTick_dropped (s := { s with inputs := rest }) _ (htick rest hin)]
      exact ⟨SameButBus.engine rfl, .inl rfl⟩
    · exact absurd hin (hreset rest)

end Sys2Proof.Machine
end

