-- ==== Sys2Proof/Proofs/PhaseRange.lean ====
section
/-! SUPPORT. The range of an oscillator's phase (10_state.md R41, 40_oscillator.md R102, R103): the accumulated phase is
never -0.0, and the normalised one lies in the table. -/

namespace Sys2Proof.Machine

namespace Binary32

/-- A finite sum has finite addends. -/
theorem isFinite_of_isFinite_add {x y : F32} (h : isFinite (add x y) = true) : isFinite x = true ∧ isFinite y = true := by
  have hnan : ¬ (isNaN x = true ∨ isNaN y = true) := fun hc => by
    rw [add_of_isNaN hc] at h
    exact absurd h (by decide)
  obtain ⟨hx, hy⟩ : isNaN x = false ∧ isNaN y = false := by simpa using hnan
  cases hxi : isInf x
  · have hxf := (isFinite_iff x).2 ⟨hx, hxi⟩
    cases hyi : isInf y
    · exact ⟨hxf, (isFinite_iff y).2 ⟨hy, hyi⟩⟩
    · rw [add_of_isInf_right hx hy hxf hyi, isFinite_iff, hyi] at h
      exact absurd h.2 (by decide)
  · rw [add_of_isInf_left hx hy hxi] at h
    split_ifs at h
    · exact absurd h (by decide)
    · rw [isFinite_iff, hxi] at h
      exact absurd h.2 (by decide)

/-- A whole number of units other than 0 does not round to zero. -/
theorem roundMag_one_ne_zero {n : Nat} (h : n ≠ 0) : roundMag n 1 ≠ 0 := by
  intro h0
  have hlt : roundMag n 1 < infMag := h0 ▸ (by decide)
  have hnear := (roundMag_nearest n one_pos hlt 1).1
  rw [h0, unitsOfMag_zero, show unitsOfMag 1 = 1 by decide, Int.abs_eq_natAbs, Int.abs_eq_natAbs] at hnear
  omega

/-- A finite sum with an addend whose sign bit is clear is never -0.0: where its sign bit is set it is negative. -/
theorem toUnits_add_neg {x y : F32} (hx : neg? x = false) (hfin : isFinite (add x y) = true)
    (hneg : neg? (add x y) = true) : toUnits (add x y) < 0 := by
  obtain ⟨hxf, hyf⟩ := isFinite_of_isFinite_add hfin
  by_cases h0 : toUnits x + toUnits y = 0
  · rw [add_zero_sum hxf hyf h0, hx, Bool.false_and] at hneg
    exact absurd hneg (by decide)
  · have hpos := unitsOfMag_eq_zero.not.2 (roundMag_one_ne_zero (Int.natAbs_ne_zero.2 h0))
    rw [add_finite hxf hyf h0] at hneg ⊢
    rw [neg?_roundSigned] at hneg
    rw [toUnits_roundSigned, if_pos hneg]
    omega

/-- The remainder by n, rounded, lies in [0, n]. -/
theorem modRounded_bounds (p : F32) {n : Nat} (hn : 1 ≤ n) (hlt : n < 2 ^ 24) :
    isFinite (modRounded p n) = true ∧ neg? (modRounded p n) = false ∧
      toUnits (modRounded p n) ≤ ((n * unitsPerOne : Nat) : Int) := by
  obtain ⟨m, hm, hv⟩ := exists_mag (e := 149) hlt (by norm_num)
  have hpos : 0 < n * unitsPerOne := Nat.mul_pos hn (by decide)
  have hrem := Int.emod_lt_of_pos (toUnits p) (show (0 : Int) < (n * unitsPerOne : Nat) by exact_mod_cast hpos)
  have hle : roundMag (toUnits p % ((n * unitsPerOne : Nat) : Int)).toNat 1 ≤ m := by
    refine roundMag_le_of_le one_pos ?_ hm.le
    rw [hv, Nat.mul_one, ← unitsPerOne]
    omega
  refine ⟨?_, neg?_roundSigned _ _ _, ?_⟩
  · simp only [isFinite, modRounded, magBits_roundSigned]
    exact decide_eq_true (hle.trans_lt hm)
  · rw [modRounded, toUnits_roundSigned, if_neg Bool.false_ne_true, show n * unitsPerOne = unitsOfMag m from hv.symm]
    rw [show n * unitsPerOne = unitsOfMag m from hv.symm] at hle
    exact_mod_cast unitsOfMag_strictMono.monotone hle

end Binary32

open Binary32

theorem phaseInTable_zero {n : Nat} (hn : 0 < n) : PhaseInTable Binary32.zero n := by
  have hpos : 0 < n * unitsPerOne := Nat.mul_pos hn (by decide)
  exact ⟨by decide, by decide, by rw [show toUnits Binary32.zero = 0 by decide]; exact_mod_cast hpos⟩

/-- Normalising a finite phase that is no -0.0 gives a phase of the table (R103). -/
theorem phaseInTable_normalizePhase {p : F32} {n : Nat} (hfin : isFinite p = true)
    (hneg : neg? p = true → toUnits p < 0) (hn : 1 ≤ n) (hlt : n < 2 ^ 24) : PhaseInTable (normalizePhase p n) n := by
  obtain ⟨hNfin, -, hN⟩ := ofNat_exact hlt
  have hNnan := isNaN_of_isFinite hNfin
  unfold normalizePhase
  split
  · next hin =>
    rw [le_eq_decide (by decide) (isNaN_of_isFinite hfin), lt_eq_decide (isNaN_of_isFinite hfin) hNnan, hN,
      Bool.and_eq_true, decide_eq_true_eq, decide_eq_true_eq] at hin
    obtain ⟨hge, hltN⟩ := hin
    refine ⟨hfin, ?_, hltN⟩
    cases hs : neg? p
    · rfl
    · exact absurd (hneg hs) (not_lt.2 hge)
  · obtain ⟨hqfin, hqneg, hqle⟩ := modRounded_bounds p hn hlt
    simp only [eq_eq_decide (isNaN_of_isFinite hqfin) hNnan, hN, decide_eq_true_eq]
    split
    · exact phaseInTable_zero hn
    · next hne => exact ⟨hqfin, hqneg, lt_of_le_of_ne hqle hne⟩

end Sys2Proof.Machine
end

