-- ==== Sys2Proof/Proofs/Invariant.lean ====
section
/-! SUPPORT. The invariant of the block's state (`Inv`) holds at reset and every step keeps it. Its clauses are about
three separate things: the table memories, each oscillator, and the record of the streams and faults. -/

namespace Sys2Proof.Machine

/-! The clauses on one oscillator. -/

/-- What `Inv` says of one oscillator: length bounded, phase in a non-empty table and never negative (R38, R41). -/
structure OscWf (p : Params) (o : Osc) : Prop where
  length_bounded : o.len.toNat ≤ p.tableCapacity
  phase_in_table : 0 < o.len.toNat → PhaseInTable o.phase o.len.toNat
  phase_not_negative : Binary32.neg? o.phase = false

theorem OscWf.processed {p : Params} {o : Osc} (h : OscWf p o) (hready : OscReady p o) : OscWf p (processedOsc o) := by
  unfold processedOsc
  split
  · exact h
  · next hlen =>
    have hpos : 0 < o.len.toNat := Nat.pos_of_ne_zero fun e => hlen (BitVec.eq_of_toNat_eq e)
    have hcap := (tableCapacity_bounds p).2
    have hfin := (hready.resolve_left hlen).1
    have hphase : PhaseInTable (normalizePhase (accumulatedPhase o) o.len.toNat) o.len.toNat :=
      phaseInTable_normalizePhase hfin (Binary32.toUnits_add_neg h.phase_not_negative hfin) hpos
        (by have := h.length_bounded; omega)
    exact ⟨h.length_bounded, fun _ => hphase, hphase.2.1⟩

/-- No operation but OSC_CONFIG takes an oscillator out of its bounds. -/
theorem OscWf.advance {p : Params} {o o' : Osc} (h : OscWf p o) (ha : OscAdvance p o o') : OscWf p o' := by
  obtain ⟨f, rfl | ⟨hready, rfl⟩⟩ := ha
  · exact ⟨h.length_bounded, h.phase_in_table, h.phase_not_negative⟩
  · exact OscWf.processed ⟨h.length_bounded, h.phase_in_table, h.phase_not_negative⟩ hready

/-- OSC_CONFIG checks the length and sets the phase to +0.0 (R100). -/
theorem OscWf.configured {p : Params} {s : State} (o : Osc) (hlen : s.arg1.toNat ≤ p.tableCapacity) :
    OscWf p (configuredOsc s o) :=
  ⟨hlen, phaseInTable_zero, rfl⟩

theorem OscWf.atReset (p : Params) : OscWf p Osc.atReset :=
  ⟨Nat.zero_le _, phaseInTable_zero, rfl⟩

/-! The clauses on the table memories. -/

/-- What `Inv` says of the table memories: canonical, and inside the tables (R62). -/
structure TablesWf (p : Params) (m : Memory) : Prop where
  canonical : Memory.wf m
  in_tables : ∀ c ∈ m, InTables p c.1

/-- A staging write stays inside the table (R62). -/
theorem TablesWf.setStgWord {p : Params} {m : Memory} (h : TablesWf p m) {i : Nat} (hi : i < p.tableCapacity)
    (k : UnitIx) (v : Word) : TablesWf p (m.setWord (stgBase k + 4 * i) v) := by
  refine ⟨setWord_wf _ _ h.canonical, fun c hc => ?_⟩
  rcases mem_setWord hc with hin | hold
  · exact ⟨k, .inl (by omega)⟩
  · exact h.in_tables c hold

/-- OSC_CONFIG's copy stays inside the table (R100). -/
theorem TablesWf.copyTable {p : Params} {s : State} (h : TablesWf p s.mem) {n : Nat} (hn : n ≤ p.tableCapacity)
    (k : UnitIx) : TablesWf p (copyTable k n s).mem := by
  refine ⟨setWords_wf _ _ _ h.canonical, fun c hc => ?_⟩
  rcases mem_setWords hc with hin | hold
  · exact ⟨k, .inr (by omega)⟩
  · exact h.in_tables c hold

/-! The clauses on the streams and the fault record. -/

/-- What `Inv` says of the streams, what counts them, and the fault record (R25, R35, R37, R77). -/
structure RecordWf (s : State) : Prop where
  streams_paired : s.scopeStream.map ScopeTuple.output = s.dacStream
  count_is_length : s.sampleCount = BitVec.ofNat 32 s.dacStream.length
  last_out : s.lastOut = s.dacStream.getLast?.getD 0
  no_fault_recorded : s.halted = false → s.faultCause = 0 ∧ s.faultInfo = 0
  fault_recorded : s.halted = true → ∃ src f, s.faultCause = causeWord src f

theorem RecordWf.atReset : RecordWf State.reset where
  streams_paired := rfl
  count_is_length := rfl
  last_out := rfl
  no_fault_recorded _ := ⟨rfl, rfl⟩
  fault_recorded h := absurd h (by decide)

/-- Taking a fault writes only the fault record (R202). -/
theorem RecordWf.takeFault {s : State} (h : RecordWf s) (src : Bool) (info : Word) (f : BlockFault) :
    RecordWf (takeFault src info f s) where
  streams_paired := h.streams_paired
  count_is_length := h.count_is_length
  last_out := h.last_out
  no_fault_recorded hh := nomatch hh
  fault_recorded _ := ⟨src, f, rfl⟩

/-- The fields that only stream steps, faults and reset write: those `RecordWf` speaks of. -/
structure SameRecord (s t : State) : Prop where
  halted : t.halted = s.halted
  faultCause : t.faultCause = s.faultCause
  faultInfo : t.faultInfo = s.faultInfo
  sampleCount : t.sampleCount = s.sampleCount
  lastOut : t.lastOut = s.lastOut
  dacStream : t.dacStream = s.dacStream
  scopeStream : t.scopeStream = s.scopeStream

theorem RecordWf.of_same {s t : State} (h : RecordWf s) (hsame : SameRecord s t) : RecordWf t where
  streams_paired := by rw [hsame.scopeStream, hsame.dacStream]; exact h.streams_paired
  count_is_length := by rw [hsame.sampleCount, hsame.dacStream]; exact h.count_is_length
  last_out := by rw [hsame.lastOut, hsame.dacStream]; exact h.last_out
  no_fault_recorded := by rw [hsame.halted, hsame.faultCause, hsame.faultInfo]; exact h.no_fault_recorded
  fault_recorded := by rw [hsame.halted, hsame.faultCause]; exact h.fault_recorded

theorem SameButUnits.record {s t : State} (h : SameButUnits s t) : SameRecord s t := by
  rw [h]
  exact ⟨rfl, rfl, rfl, rfl, rfl, rfl, rfl⟩

theorem SameButBus.record {s t : State} (h : SameButBus s t) : SameRecord s t := by
  rw [h]
  exact ⟨rfl, rfl, rfl, rfl, rfl, rfl, rfl⟩

theorem SameButBus.osc {s t : State} (h : SameButBus s t) (k : UnitIx) : t.osc k = s.osc k := by
  rw [h]
  rfl

/-- A stream step appends one matching element to each stream, counts it and keeps its sample in LAST_OUT (R181). -/
theorem streamStep_emits {p : Params} {s t : State} (h : streamStep p s = .ok t) :
    ∃ q : ScopeTuple, t.dacStream = s.dacStream ++ [q.output] ∧ t.scopeStream = s.scopeStream ++ [q] ∧
      q.control0 = t.target0 ∧ q.control1 = t.target1 ∧ t.lastOut = q.output ∧ t.sampleCount = s.sampleCount + 1 := by
  obtain ⟨-, rfl⟩ := streamStep_ok h
  rw [axesStep_eq, frameGate_eq]
  exact ⟨_, rfl, rfl, rfl, rfl, rfl, rfl⟩

/-- A stream step leaves FRAME_POS below BLOCK_SIZE (R36). -/
theorem streamStep_framePos_lt {p : Params} {s t : State} (h : streamStep p s = .ok t) :
    t.framePos.toNat < p.blockSize := by
  obtain ⟨-, rfl⟩ := streamStep_ok h
  rw [advanceCounters_framePos, BitVec.toNat_ofNat]
  exact (Nat.mod_le _ _).trans_lt (Nat.mod_lt _ (blockSize_bounds p).1)

theorem RecordWf.streamStep {p : Params} {s t : State} (h : RecordWf s) (hs : streamStep p s = .ok t) :
    RecordWf t := by
  obtain ⟨q, hdac, hscope, -, -, hout, hcount⟩ := streamStep_emits hs
  have hsame := streamStep_sameControl hs
  exact
    { streams_paired := by rw [hdac, hscope, ← h.streams_paired, List.map_append, List.map_singleton]
      count_is_length := by
        rw [hcount, hdac, h.count_is_length, List.length_append, List.length_singleton, BitVec.ofNat_add]
        rfl
      last_out := by rw [hout, hdac, List.getLast?_concat, Option.getD_some]
      no_fault_recorded := by rw [hsame.halted, hsame.faultCause, hsame.faultInfo]; exact h.no_fault_recorded
      fault_recorded := by rw [hsame.halted, hsame.faultCause]; exact h.fault_recorded }

/-! The invariant from its parts, and the changes a step can make. -/

section
variable {p : Params} {s t : State}

theorem Inv.of_parts (hmem : TablesWf p s.mem) (hosc : ∀ k, OscWf p (s.osc k)) (hpos : s.framePos.toNat < p.blockSize)
    (hrec : RecordWf s) : Inv p s where
  memory_canonical := hmem.canonical
  memory_in_tables := hmem.in_tables
  length_bounded k := (hosc k).length_bounded
  phase_in_table k := (hosc k).phase_in_table
  phase_not_negative k := (hosc k).phase_not_negative
  frame_pos_bounded := hpos
  streams_paired := hrec.streams_paired
  count_is_length := hrec.count_is_length
  last_out := hrec.last_out
  no_fault_recorded := hrec.no_fault_recorded
  fault_recorded := hrec.fault_recorded

theorem Inv.osc (h : Inv p s) (k : UnitIx) : OscWf p (s.osc k) :=
  ⟨h.length_bounded k, h.phase_in_table k, h.phase_not_negative k⟩

theorem Inv.tables (h : Inv p s) : TablesWf p s.mem := ⟨h.memory_canonical, h.memory_in_tables⟩

theorem Inv.record (h : Inv p s) : RecordWf s :=
  ⟨h.streams_paired, h.count_is_length, h.last_out, h.no_fault_recorded, h.fault_recorded⟩

theorem Inv.atReset (p : Params) : Inv p State.reset :=
  .of_parts ⟨List.Pairwise.nil, fun _ hc => absurd hc List.not_mem_nil⟩ (fun k => osc_reset k ▸ .atReset p)
    (blockSize_bounds p).1 .atReset

theorem Inv.resetBlock (p : Params) (s : State) : Inv p (resetBlock s) :=
  .of_parts (Inv.atReset p).tables (Inv.atReset p).osc (Inv.atReset p).frame_pos_bounded
    (RecordWf.atReset.of_same ⟨rfl, rfl, rfl, rfl, rfl, rfl, rfl⟩)

theorem Inv.takeFault (h : Inv p s) (src : Bool) (info : Word) (f : BlockFault) : Inv p (takeFault src info f s) :=
  .of_parts h.tables h.osc h.frame_pos_bounded (h.record.takeFault src info f)

theorem Inv.streamStep (h : Inv p s) (hs : streamStep p s = .ok t) : Inv p t :=
  .of_parts (streamStep_mem hs ▸ h.tables) (fun k => (h.osc k).advance (streamStep_oscAdvance hs k))
    (streamStep_framePos_lt hs) (h.record.streamStep hs)

theorem Inv.oscConfigure {k : UnitIx} (h : Inv p s) (hs : oscConfigure p k s = .ok t) : Inv p t := by
  obtain ⟨-, hlen, rfl⟩ := oscConfigure_ok hs
  refine .of_parts ?_ (fun j => ?_) (by simpa using h.frame_pos_bounded) (h.record.of_same (by constructor <;> simp))
  · rw [setOsc_mem]
    exact h.tables.copyTable hlen k
  · rw [osc_setOsc]
    split
    · exact .configured _ hlen
    · exact h.osc j

theorem Inv.operationOf {i : Instr} (h : Inv Config.params s) (ho : operationOf i s = .ok t) :
    Inv Config.params t := by
  by_cases hcfg : ∃ u, i = .oscConfig u
  · obtain ⟨u, rfl⟩ := hcfg
    exact h.oscConfigure ho
  · have hne : ∀ u, i ≠ .oscConfig u := fun u e => hcfg ⟨u, e⟩
    have hmem : TablesWf Config.params t.mem := operationOf_mem ho hne ▸ h.tables
    have hosc := fun k => (h.osc k).advance (operationOf_oscAdvance ho hne k)
    rcases operationOf_cases ho with ⟨-, hs⟩ | ⟨-, rfl⟩ | ⟨hsame, -⟩
    · exact h.streamStep hs
    · exact .of_parts hmem hosc h.frame_pos_bounded (h.record.of_same ⟨rfl, rfl, rfl, rfl, rfl, rfl, rfl⟩)
    · exact .of_parts hmem hosc (hsame.engine.2 ▸ h.frame_pos_bounded) (h.record.of_same hsame.record)

theorem Inv.exec {i : Instr} (h : Inv Config.params s) (he : exec i s = .next t) : Inv Config.params t := by
  apply exec_induction he
  · exact h
  · exact h.takeFault false (encode i)
  · exact fun _ _ ho => h.operationOf ho

theorem Inv.dacTick (h : Inv p s) : Inv p (dacTick p s) := by
  apply dacTick_induction (t := Machine.dacTick p s) rfl
  · exact h
  · exact h.takeFault true tickFaultInfo
  · exact fun _ hs => h.streamStep hs

/-- A bus access that leaves the table memories and FRAME_POS in their bounds keeps the invariant. -/
theorem Inv.of_sameButBus (h : Inv p s) (hsame : SameButBus s t) (hmem : TablesWf p t.mem)
    (hpos : t.framePos.toNat < p.blockSize) : Inv p t :=
  .of_parts hmem (fun k => hsame.osc k ▸ h.osc k) hpos (h.record.of_same hsame.record)

theorem Inv.writePlace (h : Inv p s) (addr : BusAddr) (v : Word) :
    Inv p (writePlace (placeOf p addr) v s) := by
  refine h.of_sameButBus (writePlace_sameButBus _ v s) ?_ ?_
  · rcases writePlace_mem (placeOf p addr) v s with hmem | ⟨k, i, hplace, hmem⟩ <;> rw [hmem]
    · exact h.tables
    · exact h.tables.setStgWord (placeOf_stg hplace).1 k v
  · rcases writePlace_run_framePos (placeOf p addr) v s with ⟨-, hpos⟩ | ⟨-, -, hpos | ⟨hpos, -, -⟩⟩ <;> rw [hpos]
    · exact h.frame_pos_bounded
    · exact h.frame_pos_bounded
    · exact (blockSize_bounds p).1

theorem Inv.writeCmd {c : Word} (h : Inv Config.params s) (hw : writeCmd c s = .next t) :
    Inv Config.params t := by
  have hlatch : Inv Config.params (latchCmd c s) := h.of_sameButBus rfl h.tables h.frame_pos_bounded
  rcases writeCmd_cases c s with ⟨-, he⟩ | ⟨-, e, -, he⟩ | ⟨-, i, -, he⟩ <;> rw [he] at hw
  · cases hw; exact hlatch
  · cases hw; exact hlatch.takeFault _ _ _
  · exact hlatch.exec hw

end

/-- Settles O51: no table byte is written, every length and phase is 0, the streams are empty and no fault is
recorded. -/
theorem resetMeetsTheInvariant : Obligations.ResetMeetsTheInvariant := Inv.atReset

/-- Settles O52: each input's effect keeps the invariant, and consuming the input touches nothing it speaks of. -/
theorem everyStepKeepsTheInvariant : Obligations.EveryStepKeepsTheInvariant := by
  intro s t h hs
  have hrest : ∀ rest, Inv Config.params { s with inputs := rest } := fun rest =>
    h.of_sameButBus rfl h.tables h.frame_pos_bounded
  rcases step_cases hs with ⟨-, rfl⟩ | ⟨rest, ⟨addr, -, rfl⟩ | ⟨addr, v, -, -, hw⟩ | ⟨addr, v, -, -, rfl⟩ | ⟨-, rfl⟩ |
    ⟨-, rfl⟩⟩
  · exact h
  · exact h.of_sameButBus rfl h.tables h.frame_pos_bounded
  · exact (hrest rest).writeCmd hw
  · exact (hrest rest).writePlace addr v
  · exact (hrest rest).dacTick
  · exact .resetBlock _ _

end Sys2Proof.Machine
end

