-- ==== Sys2Proof/Proofs/BusAccess.lean ====
section
/-! SUPPORT. The bus and the table windows (20_memory.md R60 to R64, R68): which addresses reach no register, what a read
and a write there do, and that every input answers a next state. -/

namespace Sys2Proof.Machine

/-! Every input answers. -/

theorem writeCmd_next (c : Word) (s : State) : ∃ t, writeCmd c s = .next t := by
  rcases writeCmd_cases c s with ⟨-, h⟩ | ⟨-, e, -, h⟩ | ⟨-, i, -, h⟩ <;> rw [h]
  · exact ⟨_, rfl⟩
  · exact ⟨_, rfl⟩
  · exact exec_next i _

theorem applyInput_next (p : Params) (i : Input) (s : State) : ∃ t, applyInput p i s = .next t := by
  cases i with
  | busRead addr => exact ⟨_, rfl⟩
  | busWrite addr v =>
    by_cases hp : placeOf p addr = .reg .cmd
    · rw [applyInput, memWrite_cmd v s hp]; exact writeCmd_next v s
    · exact ⟨_, memWrite_not_cmd v s hp⟩
  | tick => exact ⟨_, rfl⟩
  | reset => exact ⟨_, rfl⟩

/-! Where an address is decoded. -/

/-- Clearing bits 1:0 twice is clearing them once. -/
theorem wordAddr_and_FFFC (addr : BusAddr) : wordAddr (addr &&& 0xFFFC#16) = wordAddr addr := by
  rw [wordAddr, toNat_and_FFFC, wordAddr]
  omega

/-- An address is decoded by its word address (R61). -/
theorem placeOf_and_FFFC (p : Params) (addr : BusAddr) : placeOf p (addr &&& 0xFFFC#16) = placeOf p addr := by
  rw [placeOf, placeOf, wordAddr_and_FFFC]

/-- The addresses outside the register offsets of R21 and the windows of R63. -/
def OutsideMap (a : Nat) : Prop :=
  0x038 ≤ a ∧ a < 0x040 ∨ 0x070 ≤ a ∧ a < 0x100 ∨ 0x114 ≤ a ∧ a < 0x120 ∨ 0x134 ≤ a ∧ a < 0x180 ∨
    0x188 ≤ a ∧ a < 0x190 ∨ 0x198 ≤ a ∧ a < 0x1000 ∨ 0x5000 ≤ a

/-- The register offsets lie between the ranges of `OutsideMap`. -/
theorem regMap_ranges : ∀ e ∈ regMap, e.1 < 0x038 ∨ 0x040 ≤ e.1 ∧ e.1 < 0x070 ∨ 0x100 ≤ e.1 ∧ e.1 < 0x114 ∨
    0x120 ≤ e.1 ∧ e.1 < 0x134 ∨ 0x180 ≤ e.1 ∧ e.1 < 0x188 ∨ 0x190 ≤ e.1 ∧ e.1 < 0x198 := by decide

theorem placeOf_outsideMap {p : Params} {addr : BusAddr} (h : OutsideMap addr.toNat) : placeOf p addr = .unmapped := by
  unfold OutsideMap at h
  have hreg : regMap.lookup (wordAddr addr) = none := lookup_none fun e he => by
    have hrange := regMap_ranges e he
    unfold wordAddr
    omega
  have hwindow : wordAddr addr < 0x1000 ∨ 0x5000 ≤ wordAddr addr := by unfold wordAddr; omega
  rw [placeOf, hreg, windowOf]
  simp only
  rw [if_neg (by omega), if_neg (by omega), if_neg (by omega), if_neg (by omega)]

/-! What an access there does. -/

section
variable {p : Params} {addr : BusAddr} (s : State)

theorem memRead_unmapped (h : placeOf p addr = .unmapped) : memRead p addr s = 0 := by rw [memRead, h, readPlace]

theorem memRead_act {k : UnitIx} {i : Nat} (h : placeOf p addr = .act k i) :
    memRead p addr s = if i < (s.osc k).len.toNat then actWord s k i else 0 := by rw [memRead, h, readPlace]

theorem memRead_stg {k : UnitIx} {i : Nat} (h : placeOf p addr = .stg k i) : memRead p addr s = stgWord s k i := by
  rw [memRead, h, readPlace]

theorem memWrite_unmapped (v : Word) (h : placeOf p addr = .unmapped) : memWrite p addr v s = .next s := by
  rw [memWrite_not_cmd v s (by simp [h]), h, writePlace]

theorem memWrite_act (v : Word) {k : UnitIx} {i : Nat} (h : placeOf p addr = .act k i) :
    memWrite p addr v s = .next s := by
  rw [memWrite_not_cmd v s (by simp [h]), h, writePlace]

theorem memWrite_stg (v : Word) {k : UnitIx} {i : Nat} (h : placeOf p addr = .stg k i) :
    memWrite p addr v s = .next (setStgWord k i v s) := by
  rw [memWrite_not_cmd v s (by simp [h]), h, writePlace]

end

/-- No read depends on the inputs still to come. -/
theorem memRead_setInputs (p : Params) (addr : BusAddr) (s : State) (rest : List Input) :
    memRead p addr { s with inputs := rest } = memRead p addr s := by
  unfold memRead
  cases placeOf p addr with
  | reg r => cases r <;> rfl
  | stg k i => rfl
  | act k i => cases k <;> rfl
  | unmapped => rfl

/-- A register that is neither CTRL, CMD nor a plain RW register is read-only (R21, R64). -/
theorem writeReg_readOnly {r : Reg} (hcmd : r ≠ .cmd) (hctrl : r ≠ .ctrl) (hplain : ¬ PlainRwReg r) (v : Word)
    (s : State) : writeReg r v s = s := by
  unfold PlainRwReg at hplain
  cases r
  case cmd => exact absurd rfl hcmd
  case ctrl => exact absurd rfl hctrl
  case arg0 | arg1 | arg2 | arg3 | arg4 | touchSize | touchX | touchY | levelDb => exact absurd (by decide) hplain
  all_goals rfl

/-! Obligations. -/

/-- Settles O8: every input's effect is a next state, and so is a wait. -/
theorem everyStepAnswersANextState : Obligations.EveryStepAnswersANextState := fun s => by
  cases hin : s.inputs with
  | nil => exact ⟨s, step_nil hin⟩
  | cons i rest => rw [step_cons hin]; exact applyInput_next _ i _

/-- Settles O9: the read sees the state with its own input consumed, which `memRead` does not look at. -/
theorem busReadHasNoSideEffect : Obligations.BusReadHasNoSideEffect := fun s addr rest hin => by
  rw [step_cons hin, applyInput, busRead, memRead_setInputs]

/-- Settles O10: an access uses its address only through the place it reaches. -/
theorem addressLowBitsAreIgnored : Obligations.AddressLowBitsAreIgnored := fun p addr v s => by
  simp only [memRead, memWrite, placeOf_and_FFFC, and_self]

/-- Settles O15: each of these addresses reaches an active word, a read-only register or nothing. -/
theorem activeWordsReadAndOtherAccessesAreAbsorbed : Obligations.ActiveWordsReadAndOtherAccessesAreAbsorbed := by
  intro p addr v s
  refine ⟨fun i hi => ?_, fun i hcap hi => ?_, fun h => ?_, fun k i h => ⟨fun hlen => ?_, memWrite_act s v h⟩,
    fun h => ⟨memRead_unmapped s h, memWrite_unmapped s v h⟩, fun r h hcmd hctrl hplain => ?_⟩
  · have hplace := placeOf_act_addr (p := p) hi
    exact ⟨memRead_act s (hplace .k0), memRead_act s (hplace .k1), memWrite_act s v (hplace .k0),
      memWrite_act s v (hplace .k1)⟩
  · have hplace : ∀ k, placeOf p (BitVec.ofNat 16 (stgBase k + 4 * i)) = .unmapped := fun k => by
      rw [placeOf_stg_addr hi, if_neg (by omega)]
    exact ⟨memRead_unmapped s (hplace .k0), memRead_unmapped s (hplace .k1), memWrite_unmapped s v (hplace .k0),
      memWrite_unmapped s v (hplace .k1)⟩
  · have hplace : placeOf p addr = .unmapped := placeOf_outsideMap h
    exact ⟨memRead_unmapped s hplace, memWrite_unmapped s v hplace⟩
  · rw [memRead_act s h, if_neg (by omega)]
  · rw [memWrite_reg v s (placeOf_eq_reg_iff.1 h) hcmd, writeReg_readOnly hcmd hctrl hplain]

/-- Settles O16: the address reaches the staging word, whose write is read back and stores nothing else. -/
theorem stagingWordIsStoredAndReadBack : Obligations.StagingWordIsStoredAndReadBack := by
  intro p k i v s hi a
  have ha : a = stgBase k + 4 * i := by cases k <;> rfl
  have hplace : placeOf p (BitVec.ofNat 16 a) = .stg k i := by
    rw [ha, placeOf_stg_addr (by have := tableCapacity_bounds p; omega), if_pos hi]
  refine ⟨setStgWord k i v s, memWrite_stg s v hplace, ?_, stgWord_setStgWord_self k i v s,
    fun x hx => tableByte_setStgWord k i v s x (by omega), rfl⟩
  rw [memRead_stg _ hplace, stgWord_setStgWord_self]

end Sys2Proof.Machine
end

