-- ==== Sys2Proof/Proofs/StreamGrowth.lean ====
section
/-! SUPPORT. The streams only grow, together and with SAMPLE_COUNT (20_memory.md R77, 44_engine_stream.md R184, R185). -/

namespace Sys2Proof.Machine

/-- From `s` to `t` the streams and SAMPLE_COUNT stay, or one sample is emitted to both and counted (R77, R37). -/
def EmitsAtMostOne (s t : State) : Prop :=
  (t.dacStream = s.dacStream ∧ t.scopeStream = s.scopeStream ∧ t.sampleCount = s.sampleCount) ∨
  (∃ q : ScopeTuple, t.dacStream = s.dacStream ++ [q.output] ∧ t.scopeStream = s.scopeStream ++ [q] ∧
    q.control0 = t.target0 ∧ q.control1 = t.target1 ∧ t.lastOut = q.output ∧ t.sampleCount = s.sampleCount + 1)

theorem EmitsAtMostOne.refl (s : State) : EmitsAtMostOne s s := .inl ⟨rfl, rfl, rfl⟩

theorem SameRecord.emitsAtMostOne {s t : State} (h : SameRecord s t) : EmitsAtMostOne s t :=
  .inl ⟨h.dacStream, h.scopeStream, h.sampleCount⟩

theorem EmitsAtMostOne.exec {i : Instr} {s t : State} (h : exec i s = .next t) : EmitsAtMostOne s t := by
  apply exec_induction h
  · exact .refl s
  · exact fun f => .inl ⟨rfl, rfl, rfl⟩
  · intro _ u hu
    rcases operationOf_cases hu with ⟨-, hstep⟩ | ⟨-, rfl⟩ | ⟨hsame, -⟩
    · exact .inr (streamStep_emits hstep)
    · exact .inl ⟨rfl, rfl, rfl⟩
    · exact hsame.record.emitsAtMostOne

theorem EmitsAtMostOne.dacTick (p : Params) (s : State) : EmitsAtMostOne s (dacTick p s) :=
  dacTick_induction (R := EmitsAtMostOne s) rfl (.refl s) (fun _ => .inl ⟨rfl, rfl, rfl⟩)
    fun _ hu => .inr (streamStep_emits hu)

theorem EmitsAtMostOne.writeCmd {c : Word} {s t : State} (h : writeCmd c s = .next t) : EmitsAtMostOne s t := by
  rcases writeCmd_cases c s with ⟨-, he⟩ | ⟨-, e, -, he⟩ | ⟨-, i, -, he⟩ <;> rw [he] at h
  · cases h; exact .inl ⟨rfl, rfl, rfl⟩
  · cases h; exact .inl ⟨rfl, rfl, rfl⟩
  · exact EmitsAtMostOne.exec (s := latchCmd c s) h

/-- Settles O57: only a stream step emits, and every other input but reset leaves the streams alone. -/
theorem streamsOnlyGrowTogether : Obligations.StreamsOnlyGrowTogether := by
  intro s t h hreset
  change EmitsAtMostOne s t
  rcases step_cases h with ⟨-, rfl⟩ | ⟨rest, ⟨addr, -, rfl⟩ | ⟨addr, v, -, -, hw⟩ | ⟨addr, v, -, -, rfl⟩ | ⟨-, rfl⟩ |
    ⟨hin, -⟩⟩
  · exact .refl t
  · exact .inl ⟨rfl, rfl, rfl⟩
  · exact EmitsAtMostOne.writeCmd (s := { s with inputs := rest }) hw
  · exact (writePlace_sameButBus _ v { s with inputs := rest }).record.emitsAtMostOne
  · exact EmitsAtMostOne.dacTick Config.params { s with inputs := rest }
  · exact absurd hin (hreset rest)

end Sys2Proof.Machine
end

