-- ==== Sys2Proof/Proofs/StagingIsolation.lean ====
section
/-! SUPPORT. Staging bytes reach nothing but bus reads and OSC_CONFIG (20_memory.md R75, 70_reset_and_hazards.md R244).
The table memories are replaced by any others whose active bytes are the same: every operation but OSC_CONFIG then does
the same to everything else, since it reads the memories only as active words. -/

namespace Sys2Proof.Machine

/-- The state with other table memories. -/
def State.withMem (s : State) (m : Memory) : State := { s with mem := m }

/-- The memories `m` read the same as those of `s` from the active windows up. -/
def SameActive (s : State) (m : Memory) : Prop := ∀ a, 0x3000 ≤ a → tableByte s a = tableByte (s.withMem m) a

theorem SameButStaging.exists_withMem {s t : State} (h : SameButStaging s t) :
    ∃ m, SameActive s m ∧ t = s.withMem m :=
  ⟨t.mem, fun a ha => by rw [h.active a ha, State.withMem, h.fields], h.fields.symm⟩

theorem SameActive.sameButStaging {s : State} {m : Memory} (h : SameActive s m) : SameButStaging s (s.withMem m) :=
  ⟨rfl, h⟩

theorem SameActive.of_mem_eq {s t : State} {m : Memory} (h : SameActive s m) (hmem : t.mem = s.mem)
    (hepoch : t.tableEpoch = s.tableEpoch) : SameActive t m := fun a ha => by
  rw [tableByte_congr hmem hepoch, h a ha]
  exact (tableByte_congr (s := s.withMem m) (t := t.withMem m) rfl hepoch a).symm

theorem SameActive.actWord {s : State} {m : Memory} (h : SameActive s m) (k : UnitIx) (i : Nat) :
    actWord (s.withMem m) k i = actWord s k i := (actWord_congr k i h).symm

/-! What does not read the memories commutes with their replacement. -/

theorem halted_withMem (s : State) (m : Memory) : (s.withMem m).halted = s.halted := rfl

theorem commandFault?_withMem (i : Instr) (s : State) (m : Memory) :
    commandFault? i (s.withMem m) = commandFault? i s := rfl

theorem osc_withMem (s : State) (m : Memory) (k : UnitIx) : (s.withMem m).osc k = s.osc k := by cases k <;> rfl

theorem setOsc_withMem (s : State) (m : Memory) (k : UnitIx) (o : Osc) :
    (s.withMem m).setOsc k o = (s.setOsc k o).withMem m := by cases k <;> rfl

theorem axesStep_withMem (s : State) (m : Memory) : axesStep (s.withMem m) = (axesStep s).withMem m := by
  rw [axesStep_eq, axesStep_eq]; rfl

theorem frameGate_withMem (p : Params) (s : State) (m : Memory) :
    frameGate p (s.withMem m) = (frameGate p s).withMem m := by
  rw [frameGate_eq, frameGate_eq]; rfl

theorem readReg_withMem (p : Params) (s : State) (m : Memory) (r : Reg) :
    readReg p (s.withMem m) r = readReg p s r := by
  cases r <;> simp only [readReg, osc_withMem] <;> rfl

theorem settle_withMem (src : Bool) (info : Word) (s : State) (m : Memory) (a : Attempt) :
    settle src info (s.withMem m) (a.map (·.withMem m)) = (settle src info s a).withMem m := by
  cases a <;> rfl

/-! What reads them reads active words. -/

theorem processedSample_withMem {s : State} {m : Memory} (h : SameActive s m) (k : UnitIx) :
    processedSample (s.withMem m) k = processedSample s k := by
  simp only [processedSample, tableLookup, osc_withMem, h.actWord]

theorem oscProcess_withMem {s : State} {m : Memory} (h : SameActive s m) (p : Params) (k : UnitIx) :
    oscProcess p k (s.withMem m) = (oscProcess p k s).map fun q => (q.1, q.2.withMem m) := by
  have hosc := osc_withMem s m k
  by_cases hready : OscReady p (s.osc k)
  · rw [oscProcess_ready (hosc ▸ hready), oscProcess_ready hready, processedSample_withMem h, hosc, setOsc_withMem]
    rfl
  · rw [oscProcess_not_ready (hosc ▸ hready), oscProcess_not_ready hready, hosc]
    rfl

theorem sampleStep_withMem {s : State} {m : Memory} (h : SameActive s m) (p : Params) :
    sampleStep p (s.withMem m) = (sampleStep p s).map (·.withMem m) := by
  have haxes : SameActive (axesStep s) m := h.of_mem_eq (by rw [axesStep_eq]) (by rw [axesStep_eq])
  unfold sampleStep
  rw [axesStep_withMem, oscProcess_withMem haxes]
  cases h0 : oscProcess p .k0 (axesStep s) with
  | error f => rfl
  | ok q =>
    obtain ⟨c, t⟩ := q
    obtain ⟨-, -, rfl⟩ := oscProcess_ok h0
    simp only [Except.map, oscProcess_withMem (haxes.of_mem_eq (setOsc_mem ..) (setOsc_tableEpoch ..))]
    cases oscProcess p .k1 _ <;> rfl

theorem streamStep_withMem {s : State} {m : Memory} (h : SameActive s m) (p : Params) :
    streamStep p (s.withMem m) = (streamStep p s).map (·.withMem m) := by
  have hgate : SameActive (frameGate p s) m := h.of_mem_eq (by rw [frameGate_eq]) (by rw [frameGate_eq])
  unfold streamStep
  rw [frameGate_withMem, sampleStep_withMem hgate]
  cases sampleStep p (frameGate p s) <;> rfl

theorem operationOf_withMem {s : State} {m : Memory} (h : SameActive s m) {i : Instr} (hne : ∀ u, i ≠ .oscConfig u) :
    operationOf i (s.withMem m) = (operationOf i s).map (·.withMem m) := by
  cases i
  case oscConfig u => exact absurd rfl (hne u)
  case step => exact streamStep_withMem h Config.params
  case oscProcess u =>
    simp only [operationOf, oscProcessCommand, oscProcess_withMem h]
    cases oscProcess Config.params (unitOf u) s <;> rfl
  case smoothConfig u =>
    simp only [operationOf, smoothConfigure, apply_ite (Except.map _)]
    cases unitOf u <;> rfl
  case map =>
    simp only [operationOf, mapCommand, apply_ite (Except.map _)]
    rfl
  case oscSetfreq u | smoothProcess u | smoothSetstate u | smoothSetcoef u =>
    simp only [operationOf]
    cases unitOf u <;> rfl
  all_goals rfl

/-! Commands, ticks and bus accesses. -/

theorem exec_withMem {s s' : State} {m : Memory} (h : SameActive s m) {i : Instr} (hne : ∀ u, i ≠ .oscConfig u)
    (he : exec i s = .next s') : exec i (s.withMem m) = .next (s'.withMem m) := by
  rw [exec_eq_runCommand, runCommand] at he ⊢
  rw [operationOf_withMem h hne, settle_withMem, commandFault?_withMem, halted_withMem]
  cases hh : s.halted <;> simp only [hh, if_true, if_false, Bool.false_eq_true] at he ⊢
  · cases hf : commandFault? i s <;> simp only [hf] at he ⊢ <;> cases he <;> rfl
  · cases he; rfl

theorem dacTick_withMem {s : State} {m : Memory} (h : SameActive s m) (p : Params) :
    dacTick p (s.withMem m) = (dacTick p s).withMem m := by
  unfold dacTick
  rw [streamStep_withMem h, settle_withMem]
  exact (apply_ite (fun u : State => u.withMem m) ..).symm

theorem SameButStaging.exec {s t s' t' : State} (h : SameButStaging s t) {i : Instr} (hne : ∀ u, i ≠ .oscConfig u)
    (hs : exec i s = .next s') (ht : exec i t = .next t') : SameButStaging s' t' := by
  obtain ⟨m, hm, rfl⟩ := h.exists_withMem
  rw [exec_withMem hm hne hs] at ht
  cases ht
  apply SameActive.sameButStaging
  apply exec_induction hs
  · exact hm
  · exact fun f => hm.of_mem_eq rfl rfl
  · exact fun _ u hu => hm.of_mem_eq (operationOf_mem hu hne) (operationOf_sameControl hu).tableEpoch

theorem SameButStaging.dacTick {s t : State} (h : SameButStaging s t) (p : Params) :
    SameButStaging (dacTick p s) (dacTick p t) := by
  obtain ⟨m, hm, rfl⟩ := h.exists_withMem
  rw [dacTick_withMem hm]
  apply SameActive.sameButStaging
  apply dacTick_induction (R := (SameActive · m)) (p := p) (s := s) rfl
  · exact hm
  · exact fun f => hm.of_mem_eq rfl rfl
  · exact fun u hu => hm.of_mem_eq (streamStep_mem hu) (streamStep_sameControl hu).tableEpoch

/-- A change that neither reads nor writes the table memories keeps the relation. -/
theorem SameButStaging.map {s t : State} (h : SameButStaging s t) (f : State → State)
    (hcomm : ∀ u m, f (u.withMem m) = (f u).withMem m) (hmem : (f s).mem = s.mem)
    (hepoch : (f s).tableEpoch = s.tableEpoch) : SameButStaging (f s) (f t) := by
  obtain ⟨m, hm, rfl⟩ := h.exists_withMem
  rw [hcomm]
  exact (hm.of_mem_eq hmem hepoch).sameButStaging

theorem SameButStaging.halted {s t : State} (h : SameButStaging s t) : t.halted = s.halted := by rw [← h.fields]

theorem SameButStaging.inputs {s t : State} (h : SameButStaging s t) : t.inputs = s.inputs := by rw [← h.fields]

theorem SameButStaging.writeCmd {s t s' t' : State} (h : SameButStaging s t) {c : Word}
    (hne : ∀ u, decode c ≠ .ok (.oscConfig u)) (hs : writeCmd c s = .next s') (ht : writeCmd c t = .next t') :
    SameButStaging s' t' := by
  have hlatch := h.map (latchCmd c) (fun _ _ => rfl) rfl rfl
  rcases writeCmd_cases c s with ⟨hh, he⟩ | ⟨hh, e, hd, he⟩ | ⟨hh, i, hd, he⟩ <;> rw [he] at hs <;> rw [← h.halted] at hh
  · rw [writeCmd_halted c hh] at ht
    cases hs; cases ht
    exact hlatch
  · simp only [Machine.writeCmd, hh, hd, Bool.false_eq_true, if_false] at ht
    cases hs; cases ht
    exact hlatch.map (takeFault false c ⟨.illegalCmd, e.unit⟩) (fun _ _ => rfl) rfl rfl
  · rw [writeCmd_legal hh hd] at ht
    exact hlatch.exec (fun u hu => hne u (hu ▸ hd)) hs ht

/-- A staging place lies in the staging windows (R63). -/
theorem placeOf_stg_window {p : Params} {addr : BusAddr} {k : UnitIx} {i : Nat} (h : placeOf p addr = .stg k i) :
    0x1000 ≤ addr.toNat ∧ addr.toNat < 0x3000 := by
  unfold placeOf windowOf wordAddr at h
  by_contra hout
  split at h
  · cases h
  · simp only at h
    rw [if_neg (by omega), if_neg (by omega)] at h
    split at h
    · cases h
    · split at h <;> cases h

theorem SameButStaging.memRead {s t : State} (h : SameButStaging s t) (p : Params) {addr : BusAddr}
    (hout : ¬ (0x1000 ≤ addr.toNat ∧ addr.toNat < 0x3000)) : memRead p addr t = memRead p addr s := by
  obtain ⟨m, hm, rfl⟩ := h.exists_withMem
  unfold Machine.memRead
  cases hp : placeOf p addr with
  | reg r => exact readReg_withMem p s m r
  | stg k i => exact absurd (placeOf_stg_window hp) hout
  | act k i => simp only [readPlace, osc_withMem, hm.actWord]
  | unmapped => rfl

/-- A bus write that runs no command writes the same to every field but the table memories, and no active byte. -/
theorem SameButStaging.writePlace {s t : State} (h : SameButStaging s t) (p : Params) (addr : BusAddr) (v : Word) :
    SameButStaging (writePlace (placeOf p addr) v s) (writePlace (placeOf p addr) v t) := by
  refine ⟨?_, fun a ha => by rw [tableByte_writePlace _ _ _ ha, tableByte_writePlace _ _ _ ha, h.active a ha]⟩
  rw [← h.fields]
  cases placeOf p addr with
  | reg r =>
    cases r
    case ctrl => simp only [Machine.writePlace, writeReg, writeCtrl]; split <;> rfl
    all_goals rfl
  | stg k i => rfl
  | act k i => rfl
  | unmapped => rfl

theorem SameButStaging.resetBlock {s t : State} (h : SameButStaging s t) :
    SameButStaging (resetBlock s) (resetBlock t) := by
  rw [← h.fields]
  exact ⟨rfl, fun _ _ => rfl⟩

theorem SameButStaging.step {s t s' t' : State} (h : SameButStaging s t) (hs : step s = .next s')
    (ht : step t = .next t')
    (hread : ∀ a rest, s.inputs = .busRead a :: rest → ¬ (0x1000 ≤ a.toNat ∧ a.toNat < 0x3000))
    (hcmd : ∀ a c rest u, s.inputs = .busWrite a c :: rest → a &&& 0xFFFC#16 = 0x01C#16 →
      decode c ≠ .ok (.oscConfig u)) : SameButStaging s' t' := by
  cases hin : s.inputs with
  | nil =>
    rw [step_nil hin] at hs
    rw [step_nil (h.inputs.trans hin)] at ht
    cases hs; cases ht
    exact h
  | cons input rest =>
    have hrest := h.map (fun u => { u with inputs := rest }) (fun _ _ => rfl) rfl rfl
    rw [step_cons hin] at hs
    rw [step_cons (h.inputs.trans hin)] at ht
    cases input with
    | busRead addr =>
      cases hs; cases ht
      simp only [Machine.busRead, hrest.memRead Config.params (hread addr rest hin)]
      exact hrest.map (fun u => { u with responses := u.responses ++ [_] }) (fun _ _ => rfl) rfl rfl
    | busWrite addr v =>
      by_cases hp : placeOf Config.params addr = .reg .cmd
      · rw [applyInput, memWrite_cmd v _ hp] at hs ht
        have haddr := and_FFFC_eq_of_placeOf (offset := 0x01C#16) hp (by decide)
        exact hrest.writeCmd (fun u => hcmd addr v rest u hin haddr) hs ht
      · rw [applyInput, memWrite_not_cmd v _ hp] at hs ht
        cases hs; cases ht
        exact hrest.writePlace Config.params addr v
    | tick => cases hs; cases ht; exact hrest.dacTick Config.params
    | reset => cases hs; cases ht; exact hrest.resetBlock

/-- Settles O58: replacing the staging bytes commutes with each command, tick and bus access that reads no staging
word. -/
theorem stagingIsInvisibleUntilConfigured : Obligations.StagingIsInvisibleUntilConfigured := fun _ _ h =>
  ⟨h.dacTick, fun _ _ _ hne hs ht => h.exec hne hs ht, fun _ _ hs ht hread hcmd => h.step hs ht hread hcmd⟩

end Sys2Proof.Machine
end

