-- ==== Sys2Proof/Proofs/Encoding.lean ====
section
/-! SUPPORT. The command words (30_encoding.md R81 to R86): which words decode, to what, and the faults of the checks
between a CMD write and a command's effect. All but the round trip of `encode` goes through `decodeOpcode_cases`, which
reads the opcode table once. -/

namespace Sys2Proof.Machine

/-! The UNIT checks. -/

theorem decodeUnitCommand_error {u : UnitField} {i : Instr} {e : DecodeError} :
    decodeUnitCommand u i = .error e ↔ 1 < u.toNat ∧ e = .badUnit u := by
  unfold decodeUnitCommand
  split
  next hle => simp [Nat.not_lt.2 hle]
  next hgt => simp [Nat.not_le.1 hgt, eq_comm]

theorem decodePlainCommand_error {u : UnitField} {i : Instr} {e : DecodeError} :
    decodePlainCommand u i = .error e ↔ u.toNat ≠ 0 ∧ e = .badUnit u := by
  unfold decodePlainCommand
  split
  next h0 => simp [h0]
  next h0 => simp [h0, eq_comm]

/-! The opcode table. -/

/-- Everything the opcode table gives (R83): no command from 0x0E on, a unit command for 1 to 7, another command for 0
and 8 to 0x0D. -/
theorem decodeOpcode_cases (op : Nat) (u : UnitField) :
    (0x0E ≤ op ∧ decodeOpcode op u = .error .badOpcode) ∨
    ((1 ≤ op ∧ op ≤ 7) ∧
      ∃ i, opcodeOf i = op ∧ i.unitField = u ∧ decodeOpcode op u = decodeUnitCommand u i) ∨
    ((op = 0 ∨ (8 ≤ op ∧ op ≤ 0x0D)) ∧
      ∃ i, opcodeOf i = op ∧ i.unitField = 0 ∧ decodeOpcode op u = decodePlainCommand u i) := by
  by_cases hbad : 0x0E ≤ op
  · obtain ⟨n, rfl⟩ := Nat.exists_eq_add_of_le' hbad
    exact .inl ⟨hbad, rfl⟩
  by_cases hunit : 1 ≤ op ∧ op ≤ 7
  · refine .inr (.inl ⟨hunit, ?_⟩)
    obtain ⟨h1, h7⟩ := hunit
    interval_cases op
    exacts [⟨.oscConfig u, rfl, rfl, rfl⟩, ⟨.oscSetfreq u, rfl, rfl, rfl⟩, ⟨.oscProcess u, rfl, rfl, rfl⟩,
      ⟨.smoothConfig u, rfl, rfl, rfl⟩, ⟨.smoothProcess u, rfl, rfl, rfl⟩, ⟨.smoothSetstate u, rfl, rfl, rfl⟩,
      ⟨.smoothSetcoef u, rfl, rfl, rfl⟩]
  · have hplain : op = 0 ∨ (8 ≤ op ∧ op ≤ 0x0D) := by omega
    refine .inr (.inr ⟨hplain, ?_⟩)
    obtain rfl | ⟨h8, hD⟩ := hplain
    · exact ⟨.nop, rfl, rfl, rfl⟩
    · interval_cases op
      exacts [⟨.map, rfl, rfl, rfl⟩, ⟨.am, rfl, rfl, rfl⟩, ⟨.gainDb, rfl, rfl, rfl⟩, ⟨.outScale, rfl, rfl, rfl⟩,
        ⟨.frame, rfl, rfl, rfl⟩, ⟨.step, rfl, rfl, rfl⟩]

/-- A command decoded from an opcode and a UNIT has these fields and is well formed. -/
theorem decodeOpcode_ok {op : Nat} {u : UnitField} {i : Instr} (h : decodeOpcode op u = .ok i) :
    opcodeOf i = op ∧ i.unitField = u ∧ WellFormed i = true := by
  obtain ⟨-, hd⟩ | ⟨-, j, hop, hu, hd⟩ | ⟨-, j, hop, hu, hd⟩ := decodeOpcode_cases op u <;> rw [hd] at h
  · cases h
  · obtain ⟨hle, rfl⟩ := decodeUnitCommand_ok.1 h
    exact ⟨hop, hu, decide_eq_true (hu ▸ hle)⟩
  · obtain ⟨h0, rfl⟩ := decodePlainCommand_ok.1 h
    exact ⟨hop, hu.trans (BitVec.eq_of_toNat_eq h0).symm, decide_eq_true (by rw [hu]; decide)⟩

/-- The opcode and UNIT of a well-formed command decode to it. -/
theorem decodeOpcode_opcodeOf {i : Instr} (h : WellFormed i = true) : decodeOpcode (opcodeOf i) i.unitField = .ok i := by
  have hle : i.unitField.toNat ≤ 1 := of_decide_eq_true h
  cases i
  case nop | map | am | gainDb | outScale | frame | step => rfl
  all_goals exact decodeUnitCommand_ok.2 ⟨hle, rfl⟩

/-- The UNIT check of R82 fails: UNIT above 1 on a unit command, not 0 on another. -/
def UnitIllegal (op u : Nat) : Prop :=
  ((1 ≤ op ∧ op ≤ 7) ∧ 1 < u) ∨ ((op = 0 ∨ (8 ≤ op ∧ op ≤ 0x0D)) ∧ u ≠ 0)

/-- Only a word with a legal opcode is held to the UNIT check. -/
theorem UnitIllegal.opcode_lt {op u : Nat} (h : UnitIllegal op u) : op < 0x0E := by
  rcases h with ⟨hop, -⟩ | ⟨hop, -⟩ <;> omega

/-- The opcode check and the UNIT check of R82, with the reason each gives. -/
theorem decodeOpcode_error {op : Nat} {u : UnitField} {e : DecodeError} :
    decodeOpcode op u = .error e ↔
      (0x0E ≤ op ∧ e = .badOpcode) ∨ (UnitIllegal op u.toNat ∧ e = .badUnit u) := by
  unfold UnitIllegal
  obtain ⟨hop, hd⟩ | ⟨hop, i, -, -, hd⟩ | ⟨hop, i, -, -, hd⟩ := decodeOpcode_cases op u <;> rw [hd]
  · have h17 : ¬ (1 ≤ op ∧ op ≤ 7) := by omega
    have h8D : ¬ (op = 0 ∨ (8 ≤ op ∧ op ≤ 0x0D)) := by omega
    simp [hop, h17, h8D, eq_comm]
  · have hE : ¬ 0x0E ≤ op := by omega
    have h8D : ¬ (op = 0 ∨ (8 ≤ op ∧ op ≤ 0x0D)) := by omega
    simp only [decodeUnitCommand_error, hop, hE, h8D, false_and, true_and, or_false, false_or, and_self]
  · have hE : ¬ 0x0E ≤ op := by omega
    have h17 : ¬ (1 ≤ op ∧ op ≤ 7) := by omega
    simp only [decodePlainCommand_error, hop, hE, h17, false_and, true_and, false_or]

/-! Words. -/

/-- A word decodes to a command exactly where it is the encoding of that command and the command is well formed. -/
theorem decode_ok_iff {c : Word} {i : Instr} : decode c = .ok i ↔ encode i = c ∧ WellFormed i = true := by
  constructor
  · intro h
    by_cases hr : reservedField c = 0
    · rw [decode, if_neg (not_not.2 hr)] at h
      obtain ⟨hop, hu, hwf⟩ := decodeOpcode_ok h
      exact ⟨by rw [encode, hop, hu, word_of_fields hr], hwf⟩
    · rw [decode, if_pos hr] at h
      cases h
  · rintro ⟨rfl, hwf⟩
    obtain ⟨hr, hop, hu⟩ := encode_fields i
    rw [decode, if_neg (not_not.2 hr), hop, hu, decodeOpcode_opcodeOf hwf]

/-- The UNIT field as a number (R81). -/
theorem toNat_unitFieldOf (c : Word) : (unitFieldOf c).toNat = c.toNat / 256 % 16 := BitVec.toNat_ofNat ..

/-- The illegal words with the reason each gives, in the order of the checks of R82. -/
theorem decode_error_iff {c : Word} {e : DecodeError} :
    decode c = .error e ↔
      (c.toNat / 4096 ≠ 0 ∧ e = .reservedBits) ∨
      (c.toNat / 4096 = 0 ∧ ((0x0E ≤ c.toNat % 256 ∧ e = .badOpcode) ∨
        (UnitIllegal (c.toNat % 256) (c.toNat / 256 % 16) ∧ e = .badUnit (unitFieldOf c)))) := by
  rw [decode, reservedField, opcodeField]
  by_cases hr : c.toNat / 4096 = 0
  · rw [if_neg (not_not.2 hr), decodeOpcode_error, toNat_unitFieldOf]
    simp only [hr, ne_eq, not_true_eq_false, false_and, false_or, true_and]
  · rw [if_pos hr]
    simp [hr, eq_comm]

/-- The unit an illegal word's fault records (R82, R200). -/
theorem unit_of_decode_error {c : Word} {e : DecodeError} (h : decode c = .error e) :
    e.unit = if c.toNat / 4096 ≠ 0 ∨ 0x0E ≤ c.toNat % 256 then 0 else BitVec.ofNat 4 (c.toNat / 256) := by
  obtain ⟨hr, rfl⟩ | ⟨hr, ⟨hop, rfl⟩ | ⟨hu, rfl⟩⟩ := decode_error_iff.1 h
  · exact (if_pos (.inl hr)).symm
  · exact (if_pos (.inr hop)).symm
  · have hop := hu.opcode_lt
    exact (if_neg (by omega)).symm

/-! The faults of the checks. -/

theorem writeCmd_illegal {s : State} {c : Word} {e : DecodeError} (hh : s.halted = false) (hd : decode c = .error e) :
    writeCmd c s = .next (takeFault false c ⟨.illegalCmd, e.unit⟩ (latchCmd c s)) := by
  simp [writeCmd, hh, hd]

/-- A command that fails a check takes the fault of that check (R82, R202). -/
theorem exec_of_commandFault? {i : Instr} {s : State} {f : BlockFault} (hh : s.halted = false)
    (hf : commandFault? i s = some f) : exec i s = .next (takeFault false (encode i) f s) := by
  simp [exec_eq_runCommand, runCommand, hh, hf]

theorem commandFault?_of_not_wellFormed {i : Instr} (s : State) (h : WellFormed i = false) :
    commandFault? i s = some ⟨.illegalCmd, i.unitField⟩ :=
  if_pos (not_le.1 (of_decide_eq_false h))

theorem commandFault?_of_not_runSafe {i : Instr} {s : State} (h : WellFormed i = true) (hr : s.run = true)
    (hs : runSafe i = false) : commandFault? i s = some ⟨.cmdWhileRun, i.unitField⟩ := by
  have hle : i.unitField.toNat ≤ 1 := of_decide_eq_true h
  rw [commandFault?, if_neg (not_lt.2 hle), if_pos (by rw [hr, hs]; rfl)]

/-- RUN_SAFE_OPS as a list (R83). -/
theorem runSafe_iff {i : Instr} : runSafe i = true ↔ i ∈ [Instr.nop, .map, .am, .gainDb, .outScale] := by
  cases i <;> simp [runSafe]

/-! Obligations. -/

/-- Settles O1: the encoding's fields are the command's opcode and UNIT, which the table reads back. -/
theorem decodeOfEncodeIsTheCommand : Obligations.DecodeOfEncodeIsTheCommand := fun _ hwf =>
  decode_ok_iff.2 ⟨rfl, hwf⟩

/-- Settles O2: the decoded command has the word's fields, and a word with no reserved bit set is its fields. -/
theorem decodedWordIsItsEncoding : Obligations.DecodedWordIsItsEncoding := fun _ _ h =>
  decode_ok_iff.1 h

/-- Settles O3: a word is illegal where one of the checks fails, each of which gives a reason. -/
theorem illegalWordsAreTheFourKinds : Obligations.IllegalWordsAreTheFourKinds := by
  intro c
  constructor
  · rintro ⟨e, he⟩
    obtain ⟨hr, -⟩ | ⟨-, ⟨hop, -⟩ | ⟨hu, -⟩⟩ := decode_error_iff.1 he
    · exact .inl hr
    · exact .inr (.inl hop)
    · exact .inr (.inr hu)
  · intro h
    by_cases hr : c.toNat / 4096 = 0
    · obtain hop | hu := h.resolve_left (not_not.2 hr)
      · exact ⟨_, decode_error_iff.2 (.inr ⟨hr, .inl ⟨hop, rfl⟩⟩)⟩
      · exact ⟨_, decode_error_iff.2 (.inr ⟨hr, .inr ⟨hu, rfl⟩⟩)⟩
    · exact ⟨_, decode_error_iff.2 (.inl ⟨hr, rfl⟩)⟩

/-- Settles O6: the CMD write latches the word and takes the fault of the check that fails. -/
theorem illegalWordTakesIllegalCmd : Obligations.IllegalWordTakesIllegalCmd := by
  rintro s c rest hin hh ⟨e, he⟩
  rw [← unit_of_decode_error he]
  exact (step_cmdWrite hin).trans (writeCmd_illegal (s := { s with inputs := rest }) hh he)

/-- Settles O19: the UNIT check comes first, and a command that passes it is then held to RUN_SAFE_OPS. -/
theorem commandChecksFaultInOrder : Obligations.CommandChecksFaultInOrder := by
  refine fun i s hh => ⟨fun hwf => ?_, fun hwf hrun hmem => ?_⟩
  · exact exec_of_commandFault? hh (commandFault?_of_not_wellFormed s hwf)
  · have hsafe : runSafe i = false := Bool.eq_false_iff.2 (mt runSafe_iff.1 hmem)
    exact exec_of_commandFault? hh (commandFault?_of_not_runSafe hwf hrun hsafe)

/-- Settles O4: the words of the opcode table, by evaluation. -/
theorem writtenWordsDecode : Obligations.WrittenWordsDecode :=
  ⟨rfl, rfl, rfl, rfl, rfl, rfl, rfl, rfl, rfl, rfl⟩

end Sys2Proof.Machine
end

