-- ==== Sys2Proof/Proofs/OscillatorPhase.lean ====
section
/-! SUPPORT. The phase and the table lookup in binary32 (40_oscillator.md R103, R104). One fact carries them: the remainder
of a value of the format by a whole number is a value of the format. For a modulus n it makes the wrapped phase exact, for
the modulus 1 the fraction of the lookup. -/

namespace Sys2Proof.Machine

namespace Binary32

/-! Remainders and floors. -/

/-- The remainder of a value by a whole number is a value: it is a multiple of the same power of two, or of 1, and its
significand is no longer. -/
theorem exists_mag_mod (m : Nat) {n : Nat} (hn : 1 ≤ n) (hlt : n < 2 ^ 24) :
    ∃ m', m' < infMag ∧ unitsOfMag m' = unitsOfMag m % (n * unitsPerOne) := by
  obtain ⟨e, q, rfl, h, hq⟩ := exists_step m
  rw [unitsOfMag_step h hq.le, unitsPerOne]
  rcases Nat.le_total e 149 with he | he
  · have hsplit : n * 2 ^ 149 = n * 2 ^ (149 - e) * 2 ^ e := by
      rw [Nat.mul_assoc, ← Nat.pow_add, Nat.sub_add_cancel he]
    rw [hsplit, Nat.mul_mod_mul_right]
    exact exists_mag ((Nat.mod_le _ _).trans_lt hq) (by omega)
  · have hsplit : q * 2 ^ e = q * 2 ^ (e - 149) * 2 ^ 149 := by
      rw [Nat.mul_assoc, ← Nat.pow_add, Nat.sub_add_cancel he]
    rw [hsplit, Nat.mul_mod_mul_right]
    exact exists_mag ((Nat.mod_lt _ hn).trans hlt) (by norm_num)

/-- The remainder of a pattern whose value is not negative, in units. -/
theorem exists_mag_emod {p : F32} (hp : 0 ≤ toUnits p) {n : Nat} (hn : 1 ≤ n) (hlt : n < 2 ^ 24) :
    ∃ m, m < infMag ∧ (unitsOfMag m : Int) = toUnits p % ((n * unitsPerOne : Nat) : Int) := by
  obtain ⟨m, hm, hv⟩ := exists_mag_mod (magBits p) hn hlt
  refine ⟨m, hm, ?_⟩
  rw [← Int.natAbs_of_nonneg hp, natAbs_toUnits, hv, magnitude, Int.natCast_emod]

theorem floorInt_eq_ediv (p : F32) : floorInt p = toUnits p / (2 ^ 149 : Int) := by
  rw [floorInt, unitsPerOne]; norm_cast

theorem floorInt_ofNat {i : Nat} (h : i < 2 ^ 24) : floorInt (ofNat i) = i := by
  rw [floorInt, (ofNat_exact h).2.2, Nat.cast_mul, Int.mul_ediv_cancel _ (by decide)]

/-- The table sizes in units are positive. -/
theorem units_pos {n : Nat} (hn : 1 ≤ n) : (0 : Int) < ((n * unitsPerOne : Nat) : Int) := by
  exact_mod_cast Nat.mul_pos hn (by decide : 0 < unitsPerOne)

theorem floorInt_toNat {p : F32} (hp : 0 ≤ toUnits p) : ((floorInt p).toNat : Int) = floorInt p :=
  Int.toNat_of_nonneg (Int.ediv_nonneg hp (by decide))

theorem floorInt_toNat_lt {p : F32} (hp : 0 ≤ toUnits p) {n : Nat} (h : toUnits p < ((n * unitsPerOne : Nat) : Int)) :
    (floorInt p).toNat < n := by
  have hlt : floorInt p < (n : Int) := Int.ediv_lt_of_lt_mul (by decide) (by exact_mod_cast h)
  have hnat := floorInt_toNat hp
  omega

/-- What the floor leaves of a phase, in units, is the remainder by 1.0. -/
theorem toUnits_sub_floorInt {p : F32} (hp : 0 ≤ toUnits p) :
    toUnits p - (((floorInt p).toNat * unitsPerOne : Nat) : Int) = toUnits p % (unitsPerOne : Int) := by
  rw [Nat.cast_mul, floorInt_toNat hp, floorInt, Int.emod_def, Int.mul_comm]

/-- The fraction of a lookup needs no rounding (R104). -/
theorem toUnits_fraction {p : F32} (hfin : isFinite p = true) (hp : 0 ≤ toUnits p)
    (hlt : (floorInt p).toNat < 2 ^ 24) :
    toUnits (sub p (ofNat (floorInt p).toNat)) = toUnits p % (unitsPerOne : Int) := by
  obtain ⟨hifin, -, hi⟩ := ofNat_exact hlt
  obtain ⟨m, hm, hv⟩ := exists_mag_emod hp le_rfl (by norm_num)
  have hsum : toUnits p + toUnits (negate (ofNat (floorInt p).toNat)) = toUnits p % (unitsPerOne : Int) := by
    rw [toUnits_negate, hi, ← sub_eq_add_neg, toUnits_sub_floorInt hp]
  rw [sub, toUnits_add_exact hfin ((isFinite_negate _).trans hifin) hm, hsum]
  rw [hsum, ← Int.natAbs_natCast (unitsOfMag m), hv, Nat.one_mul]

/-! Products and differences of the lookup at a fraction of zero. -/

protected theorem mul_comm (x y : F32) : mul x y = mul y x := by
  have hspecial : (isInf x && isZero y || isZero x && isInf y) = (isInf y && isZero x || isZero y && isInf x) := by
    rw [Bool.or_comm, Bool.and_comm (isZero x), Bool.and_comm (isInf x)]
  rw [mul, mul, Bool.or_comm (isNaN x), Bool.or_comm (isInf x), hspecial, bne_comm, Nat.mul_comm (magnitude x)]

theorem mul_one_left {x : F32} (h : isNaN x = false) : mul one x = x := (Binary32.mul_comm one x).trans (mul_one_right h)

theorem isZero_mul_zero_left {y : F32} (hy : isFinite y = true) : isZero (mul zero y) = true := by
  have hmag : magnitude zero = 0 := by decide
  rw [mul_finite (by decide) hy, hmag, Nat.zero_mul, isZero, magBits_roundSigned]
  decide

theorem sub_ofNat_self {i : Nat} (h : i < 2 ^ 24) : sub (ofNat i) (ofNat i) = zero := by
  obtain ⟨hfin, hpos, -⟩ := ofNat_exact h
  rw [sub_of_zero_difference hfin hfin (Int.sub_self _), if_neg fun hz => ?_]
  · rfl
  · exact Bool.false_ne_true (hpos.symm.trans (eq_negZero_iff.1 hz.1).1)

/-! The position of a finite phase against the table. -/

theorem zero_le_iff_toUnits {p : F32} (hfin : isFinite p = true) : le zero p = true ↔ 0 ≤ toUnits p := by
  rw [le_eq_decide (by decide) (isNaN_of_isFinite hfin), decide_eq_true_iff]; rfl

theorem lt_zero_iff_toUnits {p : F32} (hfin : isFinite p = true) : lt p zero = true ↔ toUnits p < 0 := by
  rw [lt_eq_decide (isNaN_of_isFinite hfin) (by decide), decide_eq_true_iff]; rfl

theorem lt_ofNat_iff_toUnits {p : F32} (hfin : isFinite p = true) {n : Nat} (hlt : n < 2 ^ 24) :
    lt p (ofNat n) = true ↔ toUnits p < ((n * unitsPerOne : Nat) : Int) := by
  obtain ⟨hNfin, -, hN⟩ := ofNat_exact hlt
  rw [lt_eq_decide (isNaN_of_isFinite hfin) (isNaN_of_isFinite hNfin), decide_eq_true_iff, hN]

theorem ofNat_le_iff_toUnits {p : F32} (hfin : isFinite p = true) {n : Nat} (hlt : n < 2 ^ 24) :
    le (ofNat n) p = true ↔ ((n * unitsPerOne : Nat) : Int) ≤ toUnits p := by
  obtain ⟨hNfin, -, hN⟩ := ofNat_exact hlt
  rw [le_eq_decide (isNaN_of_isFinite hNfin) (isNaN_of_isFinite hfin), decide_eq_true_iff, hN]

/-! The rounded remainder. -/

/-- `modRounded` is the exact remainder rounded to nearest, ties to even (R14). -/
theorem rounded_modRounded (p : F32) {n : Nat} (hn : 1 ≤ n) :
    Rounded (modRounded p n) (toUnits p % ((n * unitsPerOne : Nat) : Int)) 1 := by
  have hnonneg := Int.emod_nonneg (toUnits p) (units_pos hn).ne'
  rw [modRounded, ← Int.natAbs_of_nonneg hnonneg, Int.toNat_natCast]
  exact rounded_roundSigned (den := 1) one_pos (fun _ => (decide_eq_false (by omega)).symm)

/-- Of a value that is not negative the remainder needs no rounding (R103). -/
theorem toUnits_modRounded {p : F32} (hp : 0 ≤ toUnits p) {n : Nat} (hn : 1 ≤ n) (hlt : n < 2 ^ 24) :
    toUnits (modRounded p n) = toUnits p % ((n * unitsPerOne : Nat) : Int) := by
  obtain ⟨m, hm, hv⟩ := exists_mag_emod hp hn hlt
  rw [modRounded, toUnits_roundSigned, if_neg Bool.false_ne_true, ← hv, Int.toNat_natCast,
    unitsOfMag_roundMag_of_value hm]

end Binary32

open Binary32

/-! The normalised phase (R103). -/

section
variable {p : F32} (hfin : isFinite p = true) {n : Nat} (hn : 1 ≤ n) (hlt : n < 2 ^ 24)
include hfin hlt

theorem normalizePhase_inside (h0 : 0 ≤ toUnits p) (h1 : toUnits p < ((n * unitsPerOne : Nat) : Int)) :
    normalizePhase p n = p := by
  rw [normalizePhase, (zero_le_iff_toUnits hfin).2 h0, (lt_ofNat_iff_toUnits hfin hlt).2 h1]; rfl

include hn

theorem normalizePhase_outside (h : ¬ (0 ≤ toUnits p ∧ toUnits p < ((n * unitsPerOne : Nat) : Int))) :
    normalizePhase p n =
      if toUnits (modRounded p n) = ((n * unitsPerOne : Nat) : Int) then Binary32.zero else modRounded p n := by
  obtain ⟨hqfin, -, -⟩ := modRounded_bounds p hn hlt
  obtain ⟨hNfin, -, hN⟩ := ofNat_exact hlt
  rw [← zero_le_iff_toUnits hfin, ← lt_ofNat_iff_toUnits hfin hlt, ← Bool.and_eq_true] at h
  simp only [normalizePhase, if_neg h, eq_eq_decide (isNaN_of_isFinite hqfin) (isNaN_of_isFinite hNfin), hN,
    decide_eq_true_eq]

/-- A phase that is not negative is wrapped with no rounding. -/
theorem toUnits_normalizePhase (h0 : 0 ≤ toUnits p) :
    toUnits (normalizePhase p n) = toUnits p % ((n * unitsPerOne : Nat) : Int) := by
  by_cases h1 : toUnits p < ((n * unitsPerOne : Nat) : Int)
  · rw [normalizePhase_inside hfin hlt h0 h1, Int.emod_eq_of_lt h0 h1]
  · have hexact := toUnits_modRounded h0 hn hlt
    have hne := (Int.emod_lt_of_pos (toUnits p) (units_pos hn)).ne
    rw [normalizePhase_outside hfin hn hlt (fun h => h1 h.2), if_neg (hexact ▸ hne), hexact]

/-- The phase -0.0, the one that `phaseInTable_normalizePhase` leaves out, is returned as it is. -/
theorem normalizePhase_bounds : isFinite (normalizePhase p n) = true ∧ 0 ≤ toUnits (normalizePhase p n) ∧
    toUnits (normalizePhase p n) < ((n * unitsPerOne : Nat) : Int) := by
  by_cases h0 : toUnits p = 0
  · have h1 : toUnits p < ((n * unitsPerOne : Nat) : Int) := h0 ▸ units_pos hn
    rw [normalizePhase_inside hfin hlt h0.ge h1]
    exact ⟨hfin, h0.ge, h1⟩
  · have hneg : neg? p = true → toUnits p < 0 := fun hs => lt_of_le_of_ne (toUnits_nonpos_of_neg hs) h0
    obtain ⟨hqfin, hqneg, hqlt⟩ := phaseInTable_normalizePhase hfin hneg hn hlt
    exact ⟨hqfin, toUnits_nonneg_of_not_neg hqneg, hqlt⟩

end

/-- Settles O29: inside the table the phase stays, outside it is the rounded remainder, which for p ≥ N is exact. -/
theorem normalizedPhaseIsTheRoundedRemainder : Obligations.NormalizedPhaseIsTheRoundedRemainder := by
  intro p n hfin hn hle q N r
  have hlt : n < 2 ^ 24 := by omega
  obtain ⟨hqfin, hq0, hq1⟩ := normalizePhase_bounds hfin hn hlt
  have hNp : le (ofNat n) p = true ↔ N ≤ toUnits p := ofNat_le_iff_toUnits hfin hlt
  have hNpos : 0 < N := units_pos hn
  refine ⟨⟨hqfin, (zero_le_iff_toUnits hqfin).2 hq0, (lt_ofNat_iff_toUnits hqfin hlt).2 hq1⟩,
    fun h0 h1 => ?_, fun h => ?_, fun h => ?_⟩
  · exact normalizePhase_inside hfin hlt ((zero_le_iff_toUnits hfin).1 h0) ((lt_ofNat_iff_toUnits hfin hlt).1 h1)
  · exact toUnits_normalizePhase hfin hn hlt (hNpos.le.trans (hNp.1 h))
  · have hout : ¬ (0 ≤ toUnits p ∧ toUnits p < N) := by
      rintro ⟨h0, h1⟩
      rcases h with hneg | hge
      · exact absurd ((lt_zero_iff_toUnits hfin).1 hneg) (not_lt.2 h0)
      · exact absurd h1 (not_lt.2 (hNp.1 hge))
    exact ⟨modRounded p n, rounded_modRounded p hn, neg?_roundSigned _ _ _, normalizePhase_outside hfin hn hlt hout⟩

/-! The lookup (R104). -/

/-- Settles O30: the fraction is the remainder of the phase by 1.0. -/
theorem lookupIndexInRangeAndFractionExact : Obligations.LookupIndexInRangeAndFractionExact := by
  intro p n hfin h0 h1 hle i0
  replace h0 := (zero_le_iff_toUnits hfin).1 h0
  replace h1 := (lt_ofNat_iff_toUnits hfin (by omega)).1 h1
  have hi0 : i0 < n := floorInt_toNat_lt h0 h1
  have hfrac : toUnits (sub p (ofNat i0)) = toUnits p % (unitsPerOne : Int) :=
    toUnits_fraction hfin h0 (show i0 < 2 ^ 24 by omega)
  refine ⟨hi0, hfrac.trans (toUnits_sub_floorInt h0).symm, ?_⟩
  rw [hfrac]
  exact ⟨Int.emod_nonneg _ (by decide), Int.emod_lt_of_pos _ (by decide)⟩

/-- Settles O31: the fraction is +0, so the entry is taken once and the next one no time. -/
theorem integerPhaseReturnsTheTableWord : Obligations.IntegerPhaseReturnsTheTableWord := by
  intro s k i n hi hle
  have hlt : i < 2 ^ 24 := by omega
  have hfloor : (floorInt (ofNat i)).toNat = i := by rw [floorInt_ofNat hlt]; rfl
  refine ⟨fun hinterp => ?_, fun hinterp hnan hnegz hfin => ?_⟩
  · rw [tableLookup_truncated _ _ hinterp, hfloor]
  · have hone : sub one zero = one := by decide
    rw [tableLookup_interpolated _ _ hinterp, hfloor, sub_ofNat_self hlt, hone, mul_one_left hnan]
    exact add_zero_right hnan (isZero_mul_zero_left hfin) (fun h => absurd h hnegz)

end Sys2Proof.Machine
end

