-- ==== Sys2Proof/Proofs/OscillatorCommands.lean ====
section
/-! SUPPORT. The oscillator's commands (40_oscillator.md R100 to R102): what OSC_CONFIG, OSC_SETFREQ and OSC_PROCESS commit,
and the faults they take. -/

namespace Sys2Proof.Machine

/-! What the operations answer. -/

theorem oscConfigure_eq_ok {p : Params} (k : UnitIx) {s : State} (hrate : Binary32.gt s.arg0 Binary32.zero = true)
    (hlen : s.arg1.toNat ≤ p.tableCapacity) :
    oscConfigure p k s = .ok ((copyTable k s.arg1.toNat s).setOsc k (configuredOsc s (s.osc k))) := by
  simp [oscConfigure, oscSampleRateArg, oscLengthArg, asU32, hrate, Nat.not_lt.2 hlen]

theorem oscConfigure_badSampleRate (p : Params) (k : UnitIx) {s : State}
    (hrate : Binary32.gt s.arg0 Binary32.zero = false) :
    oscConfigure p k s = .error ⟨.badSampleRate, unitNumber k⟩ := by
  simp [oscConfigure, oscSampleRateArg, hrate]

theorem oscConfigure_badLength {p : Params} (k : UnitIx) {s : State} (hrate : Binary32.gt s.arg0 Binary32.zero = true)
    (hlen : p.tableCapacity < s.arg1.toNat) : oscConfigure p k s = .error ⟨.badLength, unitNumber k⟩ := by
  simp [oscConfigure, oscSampleRateArg, oscLengthArg, asU32, hrate, hlen]

/-- The command adds the write of RESULT to `osc_process` (R102). -/
theorem oscProcessCommand_ready {p : Params} {k : UnitIx} {s : State} (h : OscReady p (s.osc k)) :
    oscProcessCommand p k s = .ok ((s.setOsc k (processedOsc (s.osc k))).setResult (processedSample s k)) := by
  rw [oscProcessCommand, oscProcess_ready h]

theorem oscProcessCommand_error {p : Params} {k : UnitIx} {s : State} {f : BlockFault}
    (h : oscProcess p k s = .error f) : oscProcessCommand p k s = .error f := by
  rw [oscProcessCommand, h]

theorem setOsc_osc_self (s : State) (k : UnitIx) : s.setOsc k (s.osc k) = s := by cases k <;> rfl

theorem len_ne_zero_of_toNat {o : Osc} (h : o.len.toNat ≠ 0) : o.len ≠ 0 := fun h0 => h (by rw [h0]; rfl)

/-- With a table, an oscillator is ready exactly where its accumulated phase raises no fault (R102). -/
theorem oscReady_iff {p : Params} {o : Osc} (hlen : o.len ≠ 0) : OscReady p o ↔
    Binary32.isFinite (accumulatedPhase o) = true ∧
      (Binary32.lt (accumulatedPhase o) Binary32.zero = false ∨ p.negPhase = .wrap) :=
  or_iff_right hlen

/-- INTERP is bit 0 of its argument (R84). -/
theorem asFlag_eq_getLsbD (w : Word) : asFlag w = w.getLsbD 0 := by
  rw [asFlag, BitVec.getLsbD, Nat.testBit_zero]

/-! OSC_CONFIG and OSC_SETFREQ. -/

/-- Settles O23: the operation's state is the table copy with the registers written over it. -/
theorem oscConfigCompletes : Obligations.OscConfigCompletes := by
  intro u s hrun hrate hlen
  refine ⟨_, exec_ok hrun (oscConfigure_eq_ok (unitOf u) hrate hlen), ?_, fun i hi => ?_, fun a ha => ?_, ?_⟩
  · rw [osc_setOsc_self, configuredOsc, oscInterpArg, asFlag_eq_getLsbD]; rfl
  · rw [actWord_setOsc]
    exact actWord_copyTable _ _ _ _ hi
  · rw [tableByte_setOsc]
    exact tableByte_copyTable _ _ _ _ (by omega)
  · rw [osc_setOsc_self]
    cases unitOf u <;> rfl

/-- Settles O24: the length is looked at only where the sample rate passes. -/
theorem oscConfigFaultsInOrder : Obligations.OscConfigFaultsInOrder := by
  intro u s hrun
  have hu : unitNumber (unitOf u) = u := unitNumber_of_mayRun hrun
  refine ⟨fun hrate => ?_, fun hrate hlen => ?_⟩
  · rw [exec_error hrun (oscConfigure_badSampleRate _ (unitOf u) hrate), hu]; rfl
  · rw [exec_error hrun (oscConfigure_badLength (unitOf u) hrate hlen), hu]; rfl

/-- Settles O25: OSC_SETFREQ has no check of its own. -/
theorem oscSetfreqStoresTheFrequency : Obligations.OscSetfreqStoresTheFrequency :=
  ⟨rfl, rfl, fun _ _ hrun => exec_ok hrun rfl⟩

/-! OSC_PROCESS. -/

/-- Settles O26: an oscillator with an empty table is ready, its sample is +0.0 and its registers stay. -/
theorem oscProcessOfAnEmptyTableIsSilent : Obligations.OscProcessOfAnEmptyTableIsSilent := by
  intro u s hrun hlen
  have hready : OscReady Config.params (s.osc (unitOf u)) := .inl hlen
  rw [exec_ok hrun (oscProcessCommand_ready hready), processedOsc, if_pos hlen, processedSample, if_pos hlen,
    setOsc_osc_self]
  rfl

/-- Settles O27: the oscillator is ready, and both cases of the lookup are read off its equations. -/
theorem oscProcessAdvancesThePhaseAndReads : Obligations.OscProcessAdvancesThePhaseAndReads := by
  intro u s hrun o n p hn hfin hneg q i0 frac x y
  have hp : accumulatedPhase (s.osc (unitOf u)) = p := accumulatedPhase_eq _
  have hlen : (s.osc (unitOf u)).len ≠ 0 := len_ne_zero_of_toNat hn
  have hready : OscReady Config.params (s.osc (unitOf u)) := (oscReady_iff hlen).2 (hp ▸ ⟨hfin, hneg⟩)
  have hsample : processedSample s (unitOf u) = if o.interp = true then
      Binary32.add (Binary32.mul (Binary32.sub 0x3F800000#32 frac) x) (Binary32.mul frac y) else x := by
    rw [processedSample, if_neg hlen, hp]
    split
    · next hi => rw [tableLookup_interpolated _ _ hi, Binary32.floorInt_eq_ediv]; rfl
    · next hi => rw [tableLookup_truncated _ _ (Bool.eq_false_iff.2 hi), Binary32.floorInt_eq_ediv]
  rw [exec_ok hrun (oscProcessCommand_ready hready), hsample, processedOsc, if_neg hlen, hp]
  rfl

/-- Settles O28: an oscillator that is not ready raises the fault of its accumulated phase, one that is raises none. -/
theorem oscProcessFaultsInOrder : Obligations.OscProcessFaultsInOrder := by
  intro p k s hn o acc
  have hacc : accumulatedPhase (s.osc k) = acc := accumulatedPhase_eq _
  have hlen : (s.osc k).len ≠ 0 := len_ne_zero_of_toNat hn
  refine ⟨fun hfin => ?_, fun hfin hneg hpol => ?_, fun hfin hpol => ?_, fun u f hrun hu hf => ?_⟩
  · have hnot : ¬ OscReady p (s.osc k) := by simp [oscReady_iff hlen, hacc, hfin]
    rw [oscProcess_not_ready hnot, hacc, if_neg (Bool.eq_false_iff.1 hfin)]
  · have hneg : Binary32.lt acc Binary32.zero = true := hneg
    have hnot : ¬ OscReady p (s.osc k) := by simp [oscReady_iff hlen, hacc, hneg, hpol]
    rw [oscProcess_not_ready hnot, hacc, if_pos hfin]
  · exact ⟨_, _, oscProcess_ready ((oscReady_iff hlen).2 ⟨hacc ▸ hfin, .inr hpol⟩)⟩
  · exact exec_error hrun (oscProcessCommand_error (hu ▸ hf))

end Sys2Proof.Machine
end

