-- ==== Sys2Proof/Proofs/IdealOscillator.lean ====
section
/-! SUPPORT. The oscillator in exact arithmetic (00_scope.md R12; 40_oscillator.md R103 to R105), and the binary32 phase
against it. The normalised phase is the one number of [0, n) that differs from the phase by whole tables; what is said of
it follows from that. -/

namespace Sys2Proof.Machine.Ideal

section
variable {α : Type} [Field α] [LinearOrder α] [FloorRing α] {n : Nat}

/-! The definitions in any field with a floor. -/

theorem eq_normalize_add_tables (p : α) : p = normalize p n + ⌊p / n⌋ * n := by rw [normalize]; ring

theorem lookup_interpolated {o : Osc α} (p : α) (h : o.interp = true) :
    lookup o p = (1 - (p - ⌊p⌋.toNat)) * o.table.getD ⌊p⌋.toNat 0 +
      (p - ⌊p⌋.toNat) * o.table.getD ((⌊p⌋.toNat + 1) % o.table.length) 0 := by
  rw [lookup, if_pos h]; rfl

variable [IsStrictOrderedRing α]

/-! The normalised phase. -/

theorem normalize_mem (p : α) (hn : 1 ≤ n) : 0 ≤ normalize p n ∧ normalize p n < n := by
  have hpos : (0 : α) < n := by exact_mod_cast hn
  rw [normalize, mul_comm]
  exact ⟨Int.sub_floor_div_mul_nonneg p hpos, Int.sub_floor_div_mul_lt p hpos⟩

theorem normalize_add_intCast_mul (y : α) (j : ℤ) (hn : 1 ≤ n) : normalize (y + j * n) n = normalize y n := by
  have hne : (n : α) ≠ 0 := by exact_mod_cast Nat.one_le_iff_ne_zero.1 hn
  rw [normalize, normalize, add_div, mul_div_cancel_right₀ _ hne, Int.floor_add_intCast]
  push_cast; ring

theorem normalize_of_mem {y : α} (hn : 1 ≤ n) (h0 : 0 ≤ y) (h1 : y < n) : normalize y n = y := by
  have hpos : (0 : α) < n := by exact_mod_cast hn
  have hfloor : ⌊y / n⌋ = 0 := Int.floor_eq_zero_iff.2 ⟨div_nonneg h0 hpos.le, (div_lt_one hpos).2 h1⟩
  rw [normalize, hfloor]; simp

/-- Range and congruence determine the normalised phase. -/
theorem normalize_eq_of_mem {p y : α} {j : ℤ} (hn : 1 ≤ n) (h0 : 0 ≤ y) (h1 : y < n) (h : p = y + j * n) :
    normalize p n = y := by
  rw [h, normalize_add_intCast_mul y j hn, normalize_of_mem hn h0 h1]

/-- An increment may be added before or after the phase is normalised. -/
theorem normalize_normalize_add (p inc : α) (hn : 1 ≤ n) :
    normalize (normalize p n + inc) n = normalize (p + inc) n := by
  conv_rhs => rw [eq_normalize_add_tables (n := n) p, add_right_comm, normalize_add_intCast_mul _ _ hn]

/-- Calls of one increment add up (R105). -/
theorem normalize_add_iterate {x : α} (inc : α) (hn : 1 ≤ n) (h0 : 0 ≤ x) (h1 : x < n) (m : Nat) :
    (fun y => normalize (y + inc) n)^[m] x = normalize (x + m * inc) n := by
  induction m with
  | zero => simp [normalize_of_mem hn h0 h1]
  | succ m ih =>
    rw [Function.iterate_succ_apply', ih, normalize_normalize_add _ _ hn]
    push_cast; ring_nf

/-! The loop of the source. -/

/-- The body of "While `readPointer ≥ N`, subtract `N`" (R103). -/
def subtractTable (n : Nat) (x : α) : α := if (n : α) ≤ x then x - n else x

theorem subtractTable_iterate (p : α) (m : Nat) (h : m * n ≤ p) :
    (subtractTable n)^[m] p = p - m * n := by
  induction m with
  | zero => simp
  | succ m ih =>
    push_cast at h
    have hstep : (n : α) ≤ p - m * n := by linarith
    rw [Function.iterate_succ_apply', ih (by linarith [(Nat.cast_nonneg n : (0 : α) ≤ n)]), subtractTable, if_pos hstep]
    push_cast; ring

theorem normalize_eq_iterate {p : α} (hn : 1 ≤ n) (hp : 0 ≤ p) :
    ∃ m : Nat, normalize p n = (subtractTable n)^[m] p := by
  have hpos : (0 : α) < n := by exact_mod_cast hn
  have hle : (⌊p / n⌋₊ : α) * n ≤ p := (le_div_iff₀ hpos).1 (Nat.floor_le (div_nonneg hp hpos.le))
  refine ⟨⌊p / n⌋₊, ?_⟩
  rw [subtractTable_iterate p _ hle, normalize, ← natCast_floor_eq_intCast_floor (div_nonneg hp hpos.le), mul_comm]

/-! The lookup (R104). -/

theorem fraction_mem {p : α} (hp : 0 ≤ p) : 0 ≤ p - ⌊p⌋.toNat ∧ p - ⌊p⌋.toNat ≤ 1 := by
  rw [Int.floor_toNat]
  exact ⟨sub_nonneg.2 (Nat.floor_le hp), by linarith [Nat.lt_floor_add_one p]⟩

/-- The interpolated sample is a convex combination of the two entries. -/
theorem lookup_between {o : Osc α} {p : α} (h : o.interp = true) (hp : 0 ≤ p) :
    min (o.table.getD ⌊p⌋.toNat 0) (o.table.getD ((⌊p⌋.toNat + 1) % o.table.length) 0) ≤ lookup o p ∧
    lookup o p ≤ max (o.table.getD ⌊p⌋.toNat 0) (o.table.getD ((⌊p⌋.toNat + 1) % o.table.length) 0) := by
  obtain ⟨hfrac0, hfrac1⟩ := fraction_mem hp
  rw [lookup_interpolated p h, ← smul_eq_mul, ← smul_eq_mul]
  exact ⟨Convex.min_le_combo _ _ (by linarith) hfrac0 (by ring), Convex.combo_le_max _ _ (by linarith) hfrac0 (by ring)⟩

/-! The binary32 phase. -/

theorem value_mem {x : F32} (h0 : 0 ≤ Binary32.toUnits x)
    (h1 : Binary32.toUnits x < ((n * Binary32.unitsPerOne : Nat) : Int)) : 0 ≤ value α x ∧ value α x < n := by
  have h0' : (0 : α) ≤ Binary32.toUnits x := by exact_mod_cast h0
  have h1' : (Binary32.toUnits x : α) < n * 2 ^ 149 := by exact_mod_cast h1
  exact ⟨div_nonneg h0' (by positivity), (div_lt_iff₀ (by positivity)).2 h1'⟩

/-- A phase that is not negative is normalised in binary32 as in exact arithmetic: its remainder needs no rounding. -/
theorem value_normalizePhase {p : F32} (hfin : Binary32.isFinite p = true) (hp : 0 ≤ Binary32.toUnits p) (hn : 1 ≤ n)
    (hlt : n < 2 ^ 24) : value α (normalizePhase p n) = normalize (value α p) n := by
  have hrem := toUnits_normalizePhase hfin hn hlt hp
  have hdiv := Int.emod_add_mul_ediv (Binary32.toUnits p) ((n * Binary32.unitsPerOne : Nat) : Int)
  rw [← hrem] at hdiv
  obtain ⟨-, hq0, hq1⟩ := normalizePhase_bounds hfin hn hlt
  obtain ⟨h0, h1⟩ := value_mem (α := α) hq0 hq1
  refine (normalize_eq_of_mem hn h0 h1 (j := Binary32.toUnits p / ((n * Binary32.unitsPerOne : Nat) : Int)) ?_).symm
  generalize Binary32.toUnits p / ((n * Binary32.unitsPerOne : Nat) : Int) = j at hdiv
  have hunits : (Binary32.toUnits p : α) = Binary32.toUnits (normalizePhase p n) + j * n * 2 ^ 149 := by
    rw [← hdiv, Binary32.unitsPerOne]; push_cast; ring
  rw [value, value, hunits, add_div, mul_div_cancel_right₀ _ (by positivity)]

end

/-- Settles O32: the phase by its range and congruence, the sample as a convex combination of two entries. -/
theorem idealOscillatorReadsItsTable : Obligations.IdealOscillatorReadsItsTable := by
  refine ⟨fun p n hn => ?_, fun x inc n m hn h0 h1 => normalize_add_iterate inc hn h0 h1 m,
    fun o p hinterp h0 _ => ⟨lookup_interpolated p hinterp, lookup_between hinterp h0⟩, fun p n hfin h0 hn hle => ?_⟩
  · obtain ⟨h0, h1⟩ := normalize_mem p hn
    exact ⟨h0, h1, ⟨_, eq_normalize_add_tables p⟩, normalize_eq_iterate hn⟩
  · exact value_normalizePhase hfin ((Binary32.zero_le_iff_toUnits hfin).1 h0) hn (by omega)

end Sys2Proof.Machine.Ideal
end

