-- ==== Sys2Proof/Proofs/SmoothingCommands.lean ====
section
/-! SUPPORT. The smoothing filter's commands (41_smoothing.md R120 to R123): what SMOOTH_CONFIG, SMOOTH_PROCESS,
SMOOTH_SETSTATE and SMOOTH_SETCOEF commit, the fault SMOOTH_CONFIG takes, and the coefficient of a zero cutoff. -/

namespace Sys2Proof.Machine

/-! A zero cutoff, followed through the operations of R120. -/

namespace Binary32

theorem isFinite_of_isZero {x : F32} (h : isZero x = true) : isFinite x = true := by
  rcases isZero_iff_pattern.1 h with rfl | rfl <;> decide

@[simp] theorem isZero_negate (x : F32) : isZero (negate x) = isZero x := by simp [isZero]

theorem gt_zero_iff {y : F32} : gt y zero = true ↔ isNaN y = false ∧ 0 < toUnits y := by
  have hnan : isNaN zero = false := by decide
  have hunits : toUnits zero = 0 := by decide
  simp [gt, lt, hnan, hunits]

theorem roundMag_zero {den : Nat} (hd : 0 < den) : roundMag 0 den = 0 :=
  Nat.le_zero.1 (roundMag_le_of_le hd (Nat.zero_le _) (Nat.zero_le _))

/-- A zero divided by what is neither a NaN nor a zero is a zero, of whichever sign. -/
theorem isZero_div {x y : F32} (hx : isZero x = true) (hnan : isNaN y = false) (hy : toUnits y ≠ 0) :
    isZero (div x y) = true := by
  have hxfin := isFinite_of_isZero hx
  cases hinf : isInf y
  · have hden : 0 < magnitude y := by rw [← natAbs_toUnits]; omega
    have hnum : magnitude x = 0 := by rw [← natAbs_toUnits, (isZero_iff x).1 hx, Int.natAbs_zero]
    rw [div_finite hxfin ((isFinite_iff y).2 ⟨hnan, hinf⟩) hy, isZero, magBits_roundSigned, hnum, Nat.zero_mul,
      roundMag_zero hden]
    rfl
  · rw [div_of_isInf_right (isNaN_of_isFinite hxfin) hnan hxfin hinf, isZero, magBits_withSign _ (by decide)]
    rfl

end Binary32

open Binary32

/-- EXP is 1 at a zero of either sign (R16, P1). -/
theorem expFn_of_isZero (p : Params) {x : F32} (h : isZero x = true) : expFn p x = one := by
  rw [expFn, isNaN_of_isFinite (isFinite_of_isZero h), h]; rfl

/-- Settles O34: the argument of EXP stays a zero, and 1.0 - 1.0 is +0.0. -/
theorem zeroCutoffGivesCoefficientZero : Obligations.ZeroCutoffGivesCoefficientZero := by
  intro p fc sr hfc hsr
  obtain ⟨hnan, hpos⟩ := gt_zero_iff.1 hsr
  have hmul : isZero (mul twoPi fc) = true := by
    rcases isZero_iff_pattern.1 hfc with rfl | rfl <;> decide
  have harg : isZero (negate (div (mul twoPi fc) sr)) = true :=
    (isZero_negate _).trans (isZero_div hmul hnan hpos.ne')
  rw [smoothCoefficient_eq, expFn_of_isZero p harg]
  decide

/-! What the operations answer. -/

theorem smoothConfigure_eq_ok {p : Params} (a : UnitIx) {s : State} (h : gt s.arg1 zero = true) :
    smoothConfigure p a s = .ok (s.setSm a ⟨(s.sm a).state, smoothCoefficient p s.arg0 s.arg1⟩) := by
  simp [smoothConfigure, smoothSampleRateArg, cutoffArg, h]

theorem smoothConfigure_badSampleRate (p : Params) (a : UnitIx) {s : State} (h : gt s.arg1 zero = false) :
    smoothConfigure p a s = .error ⟨.badSampleRate, unitNumber a⟩ := by
  simp [smoothConfigure, smoothSampleRateArg, h]

theorem smoothProcessCommand_eq (a : UnitIx) (s : State) : smoothProcessCommand a s =
    (s.setSm a ⟨smoothOutput (s.sm a) s.arg0, (s.sm a).coef⟩).setResult (smoothOutput (s.sm a) s.arg0) := rfl

/-! Obligations. -/

/-- Settles O33: the one check of SMOOTH_CONFIG is that of the sample rate. -/
theorem smoothConfigWritesTheCoefficientOrFaults : Obligations.SmoothConfigWritesTheCoefficientOrFaults := by
  refine ⟨rfl, rfl, fun u s hrun => ⟨fun hrate => ?_, fun hrate => ?_⟩⟩
  · rw [exec_ok hrun (smoothConfigure_eq_ok (unitOf u) hrate), smoothCoefficient_eq]; rfl
  · have hu : unitNumber (unitOf u) = u := unitNumber_of_mayRun hrun
    rw [exec_error hrun (smoothConfigure_badSampleRate _ (unitOf u) hrate), hu]; rfl

/-- Settles O35: the command has no check of its own, and writes its value twice. -/
theorem smoothProcessUpdatesStateAndResult : Obligations.SmoothProcessUpdatesStateAndResult := by
  refine ⟨rfl, rfl, ?_⟩
  intro u s hrun f y
  rw [exec_ok (t := smoothProcessCommand (unitOf u) s) hrun rfl, smoothProcessCommand_eq, smoothOutput_eq]; rfl

/-- Settles O36: the direct loads have no check of their own and do no arithmetic. -/
theorem smoothLoadsStoreTheOperand : Obligations.SmoothLoadsStoreTheOperand :=
  ⟨⟨rfl, rfl, rfl, rfl⟩, fun _ _ => ⟨fun hrun => exec_ok hrun rfl, fun hrun => exec_ok hrun rfl⟩⟩

end Sys2Proof.Machine
end

