-- ==== Sys2Proof/Proofs/IdealSmoothing.lean ====
section
/-! SUPPORT. The smoothing filter in exact arithmetic (00_scope.md R12; 41_smoothing.md R124). One call multiplies the
distance of the state from the input by 1 - c; the shape of the approach follows from the powers of that factor. -/

namespace Sys2Proof.Machine.Ideal

section
variable {α : Type} [Field α]

/-- One call keeps the input and scales the distance to it. -/
theorem smoothNext_exact (c s x : α) : smoothNext (exact α) c s x = x + (1 - c) * (s - x) := by
  change s + c * (x - s) = x + (1 - c) * (s - x)
  ring

/-- The state after m calls with the input x (R124). -/
theorem smoothNext_iterate (c x s0 : α) (m : Nat) :
    (fun s => smoothNext (exact α) c s x)^[m] s0 = x + (1 - c) ^ m * (s0 - x) := by
  induction m with
  | zero => simp
  | succ m ih => rw [Function.iterate_succ_apply', ih, smoothNext_exact]; ring

end

section
variable {c x s0 : ℝ}

/-- The distance to the input shrinks with each call where the factor lies in (0, 1). -/
theorem distance_strictly_decreases (hc0 : 0 < c) (hc1 : c < 1) (hne : s0 ≠ x) (m : Nat) :
    |(1 - c) ^ (m + 1) * (s0 - x)| < |(1 - c) ^ m * (s0 - x)| := by
  have hpow : (1 - c) ^ (m + 1) < (1 - c) ^ m :=
    pow_lt_pow_right_of_lt_one₀ (by linarith) (by linarith) m.lt_succ_self
  have hdist : 0 < |s0 - x| := abs_pos.2 (sub_ne_zero.2 hne)
  have hnonneg : ∀ k, (0 : ℝ) ≤ (1 - c) ^ k := fun k => pow_nonneg (by linarith) k
  rw [abs_mul, abs_mul, abs_of_nonneg (hnonneg _), abs_of_nonneg (hnonneg _)]
  exact mul_lt_mul_of_pos_right hpow hdist

/-- The distance keeps its sign: the state stays on its side of the input. -/
theorem distance_keeps_side (hc1 : c ≤ 1) (m : Nat) : 0 ≤ (1 - c) ^ m * (s0 - x) * (s0 - x) := by
  rw [mul_assoc]
  exact mul_nonneg (pow_nonneg (by linarith) m) (mul_self_nonneg _)

theorem distance_tendsto_zero (hc0 : 0 < c) (hc1 : c ≤ 1) :
    Filter.Tendsto (fun m : Nat => (1 - c) ^ m * (s0 - x)) Filter.atTop (nhds 0) := by
  simpa using (tendsto_pow_atTop_nhds_zero_of_lt_one (by linarith : 0 ≤ 1 - c) (by linarith)).mul_const (s0 - x)

/-- The distance is eventually below any bound (R124). -/
theorem distance_eventually_lt (hc0 : 0 < c) (hc1 : c ≤ 1) {ε : ℝ} (hε : 0 < ε) :
    ∃ m0 : Nat, ∀ m, m0 ≤ m → |(1 - c) ^ m * (s0 - x)| < ε := by
  simpa using Metric.tendsto_atTop.1 (distance_tendsto_zero (x := x) (s0 := s0) hc0 hc1) ε hε

end

/-- Settles O37: the closed form leaves the distance (1 - c)^m·(s0 - x); the two binary32 calls are evaluated. -/
theorem idealSmoothingApproachesTheInput : Obligations.IdealSmoothingApproachesTheInput := by
  refine ⟨?_, by decide, by decide⟩
  intro c x s0 hc0 hc1 hne state
  have hstate : ∀ m, state m = x + (1 - c) ^ m * (s0 - x) := smoothNext_iterate c x s0
  have hdist : ∀ m, state m - x = (1 - c) ^ m * (s0 - x) := fun m => by rw [hstate, add_sub_cancel_left]
  simp only [hdist]
  refine ⟨hstate, fun hlt => distance_strictly_decreases hc0 hlt hne, fun heq => ?_, distance_keeps_side hc1,
    fun ε => distance_eventually_lt hc0 hc1⟩
  rw [hstate, heq, sub_self, pow_one, zero_mul, add_zero]

end Sys2Proof.Machine.Ideal
end

