-- ==== Sys2Proof/Proofs/MapperCommand.lean ====
section
/-! SUPPORT. The range mapper (42_range_mapper.md R140, R141): the value or the fault of MAP, and the map over [0, 1] that
the engine uses, where the offset 0 and the divisor 1 - 0 round nothing. -/

namespace Sys2Proof.Machine

/-! The exact steps of a map over [0, 1]. -/

namespace Binary32

theorem sub_zero_right {x : F32} (h : isNaN x = false) : sub x zero = x :=
  add_zero_right h (by decide) fun _ => by decide

/-- Subtracting +0 before a product changes nothing, since a NaN's payload does not survive the product. -/
theorem mul_sub_zero (x y : F32) : mul (sub x zero) y = mul x y := by
  cases h : isNaN x
  · rw [sub_zero_right h]
  · rw [sub_of_isNaN (.inl h), mul_nan_left y isNaN_qnan, mul_nan_left y h]

/-- Dividing a product by one is exact even where it is NaN, since that NaN is the canonical one. -/
theorem div_mul_one (x y : F32) : div (mul x y) one = mul x y := by
  cases h : isNaN (mul x y)
  · exact div_one_right h
  · rw [div_of_isNaN (.inl h), mul_eq_qnan h]

end Binary32

open Binary32

/-- Over [0, 1] only the difference of the output bounds, the product and the sum round (R141). -/
theorem mapFn_zero_one (v c d : F32) : mapFn v zero one c d = add c (mul v (sub d c)) := by
  rw [mapFn_eq, sub_zero_right (x := one) (by decide), mul_sub_zero, div_mul_one]

/-- 880.0 - 55.0, the width of the frequency range (R141). -/
theorem sub_eightEighty_fiftyFive : sub eightEighty fiftyFive = 0x444E4000#32 := by decide

/-- 1.0 - 0.3, the width of the intensity range (R141). -/
theorem sub_one_threeTenths : sub one threeTenths = 0x3F333333#32 := by decide

theorem controlFrequency_eq (v : F32) : controlFrequency v = add fiftyFive (mul v 0x444E4000#32) := by
  rw [controlFrequency, mapFn_zero_one, sub_eightEighty_fiftyFive]

theorem controlIntensity_eq (v : F32) : controlIntensity v = add threeTenths (mul v 0x3F333333#32) := by
  rw [controlIntensity, mapFn_zero_one, sub_one_threeTenths]

/-- Settles O39: both ranges are maps over [0, 1]; the end points follow from the two-rounding form. -/
theorem fixedRangesOfTheEngine : Obligations.FixedRangesOfTheEngine := by
  refine ⟨⟨?_, ?_, sub_eightEighty_fiftyFive, sub_one_threeTenths, by decide⟩,
    fun v => ⟨sub_zero_right, controlFrequency_eq v, controlIntensity_eq v⟩⟩
  · rw [controlIntensity_eq]; decide
  · rw [controlIntensity_eq]; decide

/-! What MAP answers. -/

/-- MAP is one of RUN_SAFE_OPS: only a halted block does not run it (R140). -/
theorem mayRun_map {s : State} (h : s.halted = false) : MayRun .map s := ⟨h, .inr rfl, rfl⟩

theorem mapCommand_eq_ok {s : State} (h : Binary32.eq s.arg1 s.arg2 = false) :
    mapCommand s = .ok (s.setResult (mapFn s.arg0 s.arg1 s.arg2 s.arg3 s.arg4)) := by
  simp [mapCommand, mapValueArg, mapInMinArg, mapInMaxArg, mapOutMinArg, mapOutMaxArg, h]

theorem mapCommand_mapDivZero {s : State} (h : Binary32.eq s.arg1 s.arg2 = true) :
    mapCommand s = .error ⟨.mapDivZero, 0⟩ := by
  simp [mapCommand, mapInMinArg, mapInMaxArg, h]

/-- Settles O38: the one check of MAP is that of its input bounds. -/
theorem mapComputesTheLinearMapOrFaults : Obligations.MapComputesTheLinearMapOrFaults := by
  refine ⟨rfl, fun s hrun => ⟨fun hne => ?_, fun heq => ?_⟩⟩
  · rw [exec_ok (mayRun_map hrun) (mapCommand_eq_ok hne), mapFn_eq]; rfl
  · rw [exec_error (mayRun_map hrun) (mapCommand_mapDivZero heq)]; rfl

end Sys2Proof.Machine
end

