-- ==== Sys2Proof/Proofs/IdealMapper.lean ====
section
/-! SUPPORT. The range mapper in exact arithmetic (00_scope.md R12; 42_range_mapper.md R142): the line through
(inMin, outMin) with the slope (outMax - outMin) / (inMax - inMin), from which its values follow. -/

namespace Sys2Proof.Machine.Ideal

section
variable {α : Type} [Field α]

/-- The map as a line in point-slope form. -/
theorem mapValue_exact (v a b c d : α) : mapValue (exact α) v a b c d = c + (v - a) * ((d - c) / (b - a)) := by
  change c + (v - a) * (d - c) / (b - a) = c + (v - a) * ((d - c) / (b - a))
  rw [mul_div_assoc]

theorem mapValue_inMin (a b c d : α) : mapValue (exact α) a a b c d = c := by
  rw [mapValue_exact, sub_self, zero_mul, add_zero]

/-- Differences of values are differences of inputs, scaled by the slope. -/
theorem mapValue_sub_mapValue (v w a b c d : α) :
    mapValue (exact α) v a b c d - mapValue (exact α) w a b c d = (v - w) * ((d - c) / (b - a)) := by
  rw [mapValue_exact, mapValue_exact]; ring

/-- The value at the fraction `t` of the way from inMin to inMax lies the same fraction of the way between the outputs. -/
theorem mapValue_fraction {a b : α} (hne : a ≠ b) (t c d : α) :
    mapValue (exact α) (a + t * (b - a)) a b c d = c + t * (d - c) := by
  rw [mapValue_exact, add_sub_cancel_left, mul_assoc, mul_div_cancel₀ _ (sub_ne_zero.2 hne.symm)]

end

/-- Settles O40: inMax and the middle lie the fractions 1 and 1/2 of the way from inMin. -/
theorem idealMapIsTheLineThroughItsBounds : Obligations.IdealMapIsTheLineThroughItsBounds := by
  intro a b c d hne
  refine ⟨mapValue_inMin a b c d, ?_, ?_, fun v w => mapValue_sub_mapValue v w a b c d⟩
  · have hend := mapValue_fraction hne 1 c d
    rwa [one_mul, one_mul, add_sub_cancel, add_sub_cancel] at hend
  · calc mapValue (exact ℝ) ((a + b) / 2) a b c d
        = mapValue (exact ℝ) (a + 1 / 2 * (b - a)) a b c d := by congr 1; ring
      _ = c + 1 / 2 * (d - c) := mapValue_fraction hne _ c d
      _ = (c + d) / 2 := by ring

end Sys2Proof.Machine.Ideal
end

