-- ==== Sys2Proof/Proofs/OutputCommands.lean ====
section
/-! SUPPORT. Amplitude modulation, gain and output scaling (43_am_gain_output.md R150 to R153): what AM, GAIN_DB and
OUT_SCALE commit, the gains R16 fixes, and the AM output at the ends of the modulator's range. -/

namespace Sys2Proof.Machine

open Binary32

/-! What the commands answer. -/

/-- A command of RUN_SAFE_OPS runs whether or not RUN = 1: only a halted block does not run it (R82). -/
theorem mayRun_of_runSafe {i : Instr} {s : State} (hh : s.halted = false) (hsafe : runSafe i = true)
    (hwf : WellFormed i = true) : MayRun i s := ⟨hh, .inr hsafe, hwf⟩

theorem amCommand_eq (s : State) : amCommand s = s.setResult (amFn s.arg0 s.arg1) := rfl

theorem gainCommand_eq (p : Params) (s : State) : gainCommand p s = s.setResult (gainFn p s.arg0) := rfl

theorem outCommand_eq (s : State) : outCommand s = s.setResult (outFn s.arg0 s.arg1) := rfl

/-- Settles O41: the three commands are of RUN_SAFE_OPS, have no check of their own, and write RESULT only. -/
theorem amGainDbAndOutScaleWriteResult : Obligations.AmGainDbAndOutScaleWriteResult := by
  refine ⟨⟨rfl, rfl, rfl⟩, fun s hh => ⟨?_, ?_, ?_⟩⟩
  · rw [exec_ok (t := amCommand s) (mayRun_of_runSafe hh rfl rfl) rfl, amCommand_eq, amFn_eq]; rfl
  · rw [exec_ok (t := gainCommand Config.params s) (mayRun_of_runSafe hh rfl rfl) rfl, gainCommand_eq, gainFn_eq]; rfl
  · rw [exec_ok (t := outCommand s) (mayRun_of_runSafe hh rfl rfl) rfl, outCommand_eq, outFn_eq]; rfl

/-! The gains that R16 fixes. -/

/-- POW10 of a NaN is the canonical NaN (R16, P4). -/
theorem pow10Fn_of_isNaN (p : Params) {x : F32} (h : isNaN x = true) : pow10Fn p x = qnan := by
  rw [pow10Fn, if_pos h]

/-- POW10 is 1 at a zero of either sign (R16, P2). -/
theorem pow10Fn_of_isZero (p : Params) {x : F32} (h : isZero x = true) : pow10Fn p x = one := by
  rw [pow10Fn, isNaN_of_isFinite (isFinite_of_isZero h), h]; rfl

/-- POW10 is exact at 1, 2 and 3 (R16, P3). -/
theorem pow10Fn_one_two_three (p : Params) :
    pow10Fn p one = ten ∧ pow10Fn p two = hundred ∧ pow10Fn p three = thousand := ⟨rfl, rfl, rfl⟩

/-- The gain depends on the quotient dB / 20 only. -/
theorem gainFn_of_div {p : Params} {db q g : F32} (hdiv : div db twenty = q) (hpow : pow10Fn p q = g) :
    gainFn p db = g := by
  rw [gainFn_eq, hdiv, hpow]

/-- Settles O42: the quotients of the listed levels by 20 are exact, and each is one that P2 to P4 speak of. -/
theorem gainOfTheExactDecibels : Obligations.GainOfTheExactDecibels := by
  intro p
  obtain ⟨hone, htwo, hthree⟩ := pow10Fn_one_two_three p
  refine ⟨?_, ?_, ?_, ?_, ?_, fun db hnan => ?_⟩
  · exact gainFn_of_div rfl (pow10Fn_of_isZero p (by decide))
  · exact gainFn_of_div rfl (pow10Fn_of_isZero p (by decide))
  · exact gainFn_of_div (by decide) hone
  · exact gainFn_of_div (by decide) htwo
  · exact gainFn_of_div (by decide) hthree
  · exact gainFn_of_div (div_of_isNaN (.inl hnan)) (pow10Fn_of_isNaN p isNaN_qnan)

/-! The ends of the modulator's range. -/

/-- At a modulator of 1 the envelope is exactly 1 (R153). -/
theorem envelope_one : add (mul one half) half = one := by decide

/-- At a modulator of -1 the envelope is exactly +0 (R153). -/
theorem envelope_neg_one : add (mul (negate one) half) half = zero := by decide

/-- A finite value times +0 is the zero of its sign. -/
theorem Binary32.mul_zero_right {x : F32} (hx : isFinite x = true) : mul x zero = withSign (neg? x) 0 := by
  have hmag : magnitude zero = 0 := by decide
  have hsign : neg? zero = false := by decide
  rw [mul_finite hx (by decide), hmag, Nat.mul_zero, hsign, Bool.bne_false, roundSigned, roundMag_zero (by decide)]

/-- Settles O43: both envelopes are exact, so the carrier is multiplied by 1 and by +0. -/
theorem amAtPeakAndTrough : Obligations.AmAtPeakAndTrough := by
  refine fun c => ⟨fun hnan => ?_, fun hfin => ?_⟩
  · calc amFn c one
        = mul c (add (mul one half) half) := amFn_eq c one
      _ = mul c one := by rw [envelope_one]
      _ = c := mul_one_right hnan
  · have hneg : 0xBF800000#32 = negate one := by decide
    calc amFn c 0xBF800000#32
        = mul c (add (mul (negate one) half) half) := by rw [amFn_eq, hneg]
      _ = mul c zero := by rw [envelope_neg_one]
      _ = withSign (neg? c) 0 := mul_zero_right hfin

end Sys2Proof.Machine
end

