-- ==== Sys2Proof/Proofs/StreamStep.lean ====
section
/-! SUPPORT. The stream step (44_engine_stream.md R180 to R182): what it leaves, register by register, when both oscillators
are ready, and that CTRL.RUN has no part in it. STEP and the tick are then one stream step each. -/

namespace Sys2Proof.Machine

/-! What a stream step leaves. -/

@[simp] theorem processedOsc_freq (o : Osc) : (processedOsc o).freq = o.freq := by unfold processedOsc; split <;> rfl

section
variable {p : Params} {s t : State} (h : streamStep p s = .ok t)
include h

/-- The frame step's registers, written at FRAME_POS = 0 only (R180, R182). -/
theorem streamStep_frameRegs :
    (t.target0 = if s.framePos = 0 ∧ touchGate s.touchSize = true then s.touchX else s.target0) ∧
    (t.target1 = if s.framePos = 0 ∧ touchGate s.touchSize = true then s.touchY else s.target1) ∧
    (t.presence = if s.framePos = 0 then touchGate s.touchSize else s.presence) ∧
    (t.gain = if s.framePos = 0 then gainFn p s.levelDb else s.gain) := by
  obtain ⟨-, rfl⟩ := streamStep_ok h
  rw [axesStep_eq, frameGate_eq]
  exact ⟨rfl, rfl, rfl, rfl⟩

/-- Each filter takes one step towards its target, which the frame test has already updated (R121, R181). -/
theorem streamStep_sm (k : UnitIx) : t.sm k = ⟨smoothOutput (s.sm k) (t.target k), (s.sm k).coef⟩ := by
  obtain ⟨-, rfl⟩ := streamStep_ok h
  rw [axesStep_eq, frameGate_eq]
  cases k <;> rfl

/-- The intensity is mapped from the smoothed control (R181). -/
theorem streamStep_intensity (k : UnitIx) : t.intensity k = controlIntensity (t.sm k).state := by
  obtain ⟨-, rfl⟩ := streamStep_ok h
  rw [axesStep_eq]
  cases k <;> rfl

/-- Each oscillator processes once, at the frequency mapped from its smoothed control (R181). -/
theorem streamStep_osc (k : UnitIx) :
    t.osc k = processedOsc { s.osc k with freq := controlFrequency (t.sm k).state } := by
  obtain ⟨-, rfl⟩ := streamStep_ok h
  rw [axesStep_eq, frameGate_eq]
  cases k <;> rfl

/-- The output: the carrier modulated by oscillator 1's sample, at the gain the frame test has already updated (R181). -/
theorem streamStep_lastOut :
    t.lastOut = outFn (amFn (processedSample (axesStep (frameGate p s)) .k0)
      (processedSample (axesStep (frameGate p s)) .k1)) t.gain := by
  obtain ⟨-, rfl⟩ := streamStep_ok h
  rfl

/-- FRAME_POS counts modulo BLOCK_SIZE, which fits a word (R36). -/
theorem streamStep_framePos : t.framePos.toNat = (s.framePos.toNat + 1) % p.blockSize := by
  have hframe : (axesStep (frameGate p s)).framePos = s.framePos := by rw [axesStep_eq, frameGate_eq]
  obtain ⟨hpos, hle⟩ := blockSize_bounds p
  have hlt := Nat.mod_lt (s.framePos.toNat + 1) hpos
  obtain ⟨-, rfl⟩ := streamStep_ok h
  simp only [advanceCounters_framePos, emitSample_framePos, setOsc_framePos, hframe]
  rw [BitVec.toNat_ofNat, Nat.mod_eq_of_lt (by omega)]

/-- The whole effect, from the facts about each register and the frame. -/
theorem StreamStepEffect.of_streamStep : StreamStepEffect p s t := by
  obtain ⟨htarget0, htarget1, hpresence, hgain⟩ := streamStep_frameRegs h
  obtain ⟨q, hdac, hscope, h0, h1, hout, hcount⟩ := streamStep_emits h
  have hq : q = ⟨q.output, t.target0, t.target1⟩ := by rw [← h0, ← h1]
  have hlast := streamStep_lastOut h
  rw [outFn_eq, amFn_eq] at hlast
  have hsame := streamStep_sameControl h
  refine ⟨htarget0, htarget1, hpresence, ?_, fun k => ?_, hlast, ?_, ?_, streamStep_framePos h, hcount,
    hsame.run, hsame.halted, hsame.faultCause, hsame.faultInfo, hsame.cmd, streamStep_result h, hsame.arg0, hsame.arg1,
    hsame.arg2, hsame.arg3, hsame.arg4, hsame.touchSize, hsame.touchX, hsame.touchY, hsame.levelDb,
    tableByte_congr (streamStep_mem h) hsame.tableEpoch, hsame.inputs, hsame.responses, hsame.tableEpoch⟩
  · rw [hgain, gainFn_eq]; rfl
  · have hsm := streamStep_sm h k
    have hstate : (t.sm k).state = smoothOutput (s.sm k) (t.target k) := by rw [hsm]
    have hcoef : (t.sm k).coef = (s.sm k).coef := by rw [hsm]
    have hosc := streamStep_osc h k
    exact ⟨hcoef, hstate.trans (smoothOutput_eq _ _), streamStep_intensity h k, by rw [hosc, processedOsc_freq],
      by rw [hosc, processedOsc_len], by rw [hosc, processedOsc_invSr], by rw [hosc, processedOsc_interp], by rw [hosc]⟩
  · rw [hdac, ← hout, hlast]; rfl
  · rw [hscope, hq, ← hout, hlast]; rfl

end

/-- A stream step with both oscillators ready completes, with its whole effect. -/
theorem streamStep_completes {p : Params} {s : State} (h : StreamReady p s) :
    ∃ t, streamStep p s = .ok t ∧ StreamStepEffect p s t :=
  ⟨_, streamStep_ready h, .of_streamStep (streamStep_ready h)⟩

/-- Readiness does not look at the inputs still to come. -/
theorem StreamReady.setInputs {p : Params} {s : State} (h : StreamReady p s) (rest : List Input) :
    StreamReady p { s with inputs := rest } := by
  intro k
  have hosc : (axesStep (frameGate p { s with inputs := rest })).osc k = (axesStep (frameGate p s)).osc k := by
    rw [axesStep_eq, axesStep_eq, frameGate_eq, frameGate_eq]
    cases k <;> rfl
  rw [hosc]
  exact h k

/-! CTRL.RUN has no part in a stream step. -/

/-- The state with another CTRL.RUN. -/
def State.withRun (s : State) (b : Bool) : State := { s with run := b }

theorem osc_withRun (s : State) (b : Bool) (k : UnitIx) : (s.withRun b).osc k = s.osc k := by cases k <;> rfl

theorem setOsc_withRun (s : State) (b : Bool) (k : UnitIx) (o : Osc) :
    (s.withRun b).setOsc k o = (s.setOsc k o).withRun b := by cases k <;> rfl

theorem axesStep_withRun (s : State) (b : Bool) : axesStep (s.withRun b) = (axesStep s).withRun b := by
  rw [axesStep_eq, axesStep_eq]; rfl

theorem frameGate_withRun (p : Params) (s : State) (b : Bool) :
    frameGate p (s.withRun b) = (frameGate p s).withRun b := by
  rw [frameGate_eq, frameGate_eq]; rfl

theorem processedSample_withRun (s : State) (b : Bool) (k : UnitIx) :
    processedSample (s.withRun b) k = processedSample s k := by cases k <;> rfl

theorem oscProcess_withRun (p : Params) (k : UnitIx) (s : State) (b : Bool) :
    oscProcess p k (s.withRun b) = (oscProcess p k s).map fun q => (q.1, q.2.withRun b) := by
  have hosc := osc_withRun s b k
  by_cases hready : OscReady p (s.osc k)
  · rw [oscProcess_ready (hosc ▸ hready), oscProcess_ready hready, processedSample_withRun, hosc, setOsc_withRun]
    rfl
  · rw [oscProcess_not_ready (hosc ▸ hready), oscProcess_not_ready hready, hosc]
    rfl

theorem sampleStep_withRun (p : Params) (s : State) (b : Bool) :
    sampleStep p (s.withRun b) = (sampleStep p s).map (·.withRun b) := by
  unfold sampleStep
  rw [axesStep_withRun, oscProcess_withRun]
  cases oscProcess p .k0 (axesStep s) with
  | error f => rfl
  | ok q =>
    simp only [Except.map, oscProcess_withRun]
    cases oscProcess p .k1 q.2 <;> rfl

theorem streamStep_withRun (p : Params) (s : State) (b : Bool) :
    streamStep p (s.withRun b) = (streamStep p s).map (·.withRun b) := by
  unfold streamStep
  rw [frameGate_withRun, sampleStep_withRun]
  cases sampleStep p (frameGate p s) <;> rfl

/-- SRC_TICK is bit 8 of FAULT_CAUSE, between the code and the unit (R202). -/
theorem causeWord_srcTick (f : BlockFault) : causeWord true f = causeWord false f ||| 0x100#32 := by
  obtain ⟨cause, unit⟩ := f
  cases cause <;> revert unit <;> decide

/-! Obligations. -/

/-- Settles O46: STEP commits the stream step, whose oscillators raise no fault. -/
theorem stepCommandCompletesAStreamStep : Obligations.StepCommandCompletesAStreamStep := by
  intro s hrun hready
  obtain ⟨t, ht, heffect⟩ := streamStep_completes hready
  exact ⟨t, exec_ok hrun ht, heffect⟩

/-- Settles O47: the tick is not dropped, and commits the stream step of the state with its input consumed. -/
theorem tickCompletesAStreamStep : Obligations.TickCompletesAStreamStep := by
  intro s rest hin hrun hh hready
  obtain ⟨t, ht, heffect⟩ := streamStep_completes (hready.setInputs rest)
  refine ⟨t, ?_, heffect⟩
  rw [step_cons hin, applyInput, dacTick_running (s := { s with inputs := rest }) _ hrun hh, ht, settle]

/-- Settles O48: the tick only consumes its input. -/
theorem tickIsDroppedWhenStoppedOrHalted : Obligations.TickIsDroppedWhenStoppedOrHalted := by
  intro s rest hin hdrop
  rw [step_cons hin, applyInput, dacTick_dropped (s := { s with inputs := rest }) _ hdrop]

/-- Settles O50: both are the stream step of `s` up to RUN, which commits, or raises the fault that each records. -/
theorem stepCommandAgreesWithTheTick : Obligations.StepCommandAgreesWithTheTick := by
  intro s hrun
  have htick : dacTick Config.params { s with run := true } =
      settle true tickFaultInfo (s.withRun true) ((streamStep Config.params s).map (·.withRun true)) := by
    rw [← streamStep_withRun]
    exact dacTick_running (s := s.withRun true) Config.params rfl hrun.1
  rw [htick]
  cases hs : streamStep Config.params s with
  | ok t =>
    have hh : t.halted = false := (streamStep_sameControl hs).halted.trans hrun.1
    refine ⟨t, exec_ok hrun hs, ?_⟩
    rw [if_neg (by simp [hh])]
    rfl
  | error f =>
    refine ⟨_, exec_error hrun hs, ?_⟩
    simp only [takeFault_faultCause, takeFault_halted, if_true, ← causeWord_srcTick]
    rfl

end Sys2Proof.Machine
end

