-- ==== Sys2Proof/Proofs/EngineCommands.lean ====
section
/-! SUPPORT. The engine's commands beside STEP (44_engine_stream.md R170, R171): NOP and FRAME. -/

namespace Sys2Proof.Machine

/-- NOP is of RUN_SAFE_OPS and commits the state it finds (R170). -/
theorem exec_nop {s : State} (hh : s.halted = false) : exec .nop s = .next s :=
  exec_ok (mayRun_of_runSafe hh rfl rfl) rfl

/-- The one legal word with OPCODE 0x00 is NOP's. -/
theorem decode_error_of_opcode_zero {c : Word} (hop : c.toNat % 256 = 0) (hc : c ≠ 0) :
    ∃ e, decode c = .error e := by
  have hpos : c.toNat ≠ 0 := fun h0 => hc (BitVec.eq_of_toNat_eq h0)
  refine (illegalWordsAreTheFourKinds c).2 ?_
  omega

/-- Settles O44: a bus write of NOP's word latches it and runs NOP. -/
theorem nopChangesNothing : Obligations.NopChangesNothing := by
  refine ⟨rfl, fun c hop hc => decode_error_of_opcode_zero hop hc, fun s hh => ⟨exec_nop hh, ?_⟩⟩
  calc memWrite Config.params cmdAddr 0x00000000#32 s
      = writeCmd 0x00000000#32 s := memWrite_cmd _ _ (placeOf_cmdAddr _)
    _ = exec .nop (latchCmd 0x00000000#32 s) := writeCmd_legal hh rfl
    _ = .next (latchCmd 0x00000000#32 s) := exec_nop (s := latchCmd 0x00000000#32 s) hh

/-- Settles O45: FRAME commits the frame step, which has no check of its own. -/
theorem frameGatesTheTouch : Obligations.FrameGatesTheTouch := by
  refine ⟨rfl, fun s hrun => ?_⟩
  rw [exec_ok (t := frameStep Config.params s) hrun rfl, frameStep, gainFn_eq]
  rfl

end Sys2Proof.Machine
end

