-- ==== Sys2Proof/Proofs/PreciseFaults.lean ====
section
/-! SUPPORT. Faults are precise (60_exceptions.md R202) and ordered inside a stream step (R205): what halts the block is a
fault taken in the state before, and that fault is the first oscillator's to raise one. -/

namespace Sys2Proof.Machine

/-! Halting is taking a fault. -/

/-- An operation that commits leaves HALTED alone, so a command that halts the block has taken a fault. -/
theorem exec_halts {i : Instr} {s t : State} (h : exec i s = .next t) (hh : s.halted = false) :
    t.halted = true → ∃ f, t = takeFault false (encode i) f s := by
  apply exec_induction h
  · simp [hh]
  · exact fun f _ => ⟨f, rfl⟩
  · intro _ u hu
    have hkept : u.halted = s.halted := (operationOf_sameControl hu).halted
    simp [hkept, hh]

/-- The same of a tick, whose stream step leaves HALTED alone where it commits. -/
theorem dacTick_halts {p : Params} {s t : State} (h : t = dacTick p s) (hh : s.halted = false) :
    t.halted = true → ∃ f, t = takeFault true tickFaultInfo f s := by
  apply dacTick_induction h
  · simp [hh]
  · exact fun f _ => ⟨f, rfl⟩
  · intro u hu
    have hkept : u.halted = s.halted := (streamStep_sameControl hu).halted
    simp [hkept, hh]

/-! The fault of a stream step. -/

/-- The fault `osc_process(k)` raises depends on the registers of oscillator k alone (R102). -/
theorem oscProcess_error_congr {p : Params} {k : UnitIx} {s t : State} {f : BlockFault}
    (h : oscProcess p k s = .error f) (hosc : t.osc k = s.osc k) : oscProcess p k t = .error f := by
  have hnot : ¬ OscReady p (s.osc k) := fun hready => by
    rw [oscProcess_ready hready] at h
    cases h
  rw [oscProcess_not_ready (hosc ▸ hnot), hosc, ← oscProcess_not_ready hnot, h]

section
variable {p : Params} {s : State} {f : BlockFault}

/-- A fault of oscillator 0 ends the stream step before oscillator 1 is looked at (R205). -/
theorem streamStep_error_of_osc0 (h : oscProcess p .k0 (axesStep (frameGate p s)) = .error f) :
    streamStep p s = .error f := by
  rw [streamStep, sampleStep, h]

/-- Once oscillator 0 has processed, a fault of oscillator 1 is the stream step's. -/
theorem streamStep_error_of_osc1 (hready : OscReady p ((axesStep (frameGate p s)).osc .k0))
    (h : oscProcess p .k1 (axesStep (frameGate p s)) = .error f) : streamStep p s = .error f := by
  have hafter : oscProcess p .k1 ((axesStep (frameGate p s)).setOsc .k0
      (processedOsc ((axesStep (frameGate p s)).osc .k0))) = .error f := oscProcess_error_congr h rfl
  rw [streamStep, sampleStep, oscProcess_ready hready]
  simp only [hafter]

end

/-! Obligations. -/

/-- Settles O18: whatever halts the block has taken a fault, which writes only the fault record and HALTED. -/
theorem faultsArePrecise : Obligations.FaultsArePrecise :=
  ⟨fun _ _ _ h hh hhalt => exec_halts h hh hhalt, fun _ _ hh hhalt => dacTick_halts rfl hh hhalt⟩

/-- Settles O49: either way the stream step raises `f`, which STEP and the tick take in the state before. -/
theorem streamStepFaultOrder : Obligations.StreamStepFaultOrder := by
  intro s f a hfault
  have hstep : streamStep Config.params s = .error f := by
    rcases hfault with h0 | ⟨hready, h1⟩
    · exact streamStep_error_of_osc0 h0
    · exact streamStep_error_of_osc1 hready h1
  refine ⟨fun hrun => exec_error hrun hstep, fun hrun hh => ?_⟩
  rw [dacTick_running Config.params hrun hh, hstep]
  rfl

end Sys2Proof.Machine
end

