-- ==== Sys2Proof/Proofs/ResetInput.lean ====
section
/-! SUPPORT. The reset input (70_reset_and_hazards.md R230), the only way out of a fault (60_exceptions.md R208). -/

namespace Sys2Proof.Machine

/-- A reset input consumes itself and resets the block, whatever the state. -/
theorem step_reset {s : State} {rest : List Input} (h : s.inputs = .reset :: rest) :
    step s = .next (resetBlock { s with inputs := rest }) :=
  step_cons h

/-- What reset keeps of the old state (the schedule, the words returned, the epoch) is no register. -/
theorem readReg_resetBlock (p : Params) (s : State) (r : Reg) :
    readReg p (resetBlock s) r = readReg p State.reset r := by
  cases r <;> rfl

/-- Settles O21: the step is the reset of the block, which has the reset state's registers, streams and table bytes. -/
theorem resetInputRestoresTheResetState : Obligations.ResetInputRestoresTheResetState :=
  fun p _ _ hreset => ⟨_, step_reset hreset, rfl, rfl, rfl, rfl, readReg_resetBlock p _, rfl, rfl⟩

end Sys2Proof.Machine
end
